-- ==== Sys2Proof/Word.lean ====
section
/-! DEFINITION. The word types of the block (R7: 8-bit registers, 16-bit step labels). -/

namespace Sys2Proof

/-- One register, one datum on the bus (R43). -/
abbrev Byte := BitVec 8

/-- One step-label word, and the baud divisor's width (R24, R57). -/
abbrev Word := BitVec 16

end Sys2Proof
end

