-- ==== Sys2Proof/Config.lean ====
section
/-! DEFINITION. Fixed values of the hardware (R7) and the open parameters and free values of the spec (R8, R12,
92_eei_decisions.md "Open parameters"). An `opaque` constant has no value here: nothing can be proved of it. -/

namespace Sys2Proof

/-- The two baud rates chosen "at compile/config time" (R8). -/
inductive BaudSel where
  | baud9600
  | baud115200
  deriving DecidableEq, Repr, Inhabited

namespace Config

/-- The smallest legal divisor (R7, R24). -/
def minDivisor : Nat := 3

/-- The bit-times of one frame: start, d0..d7, stop (R14). -/
def frameBits : Nat := 10

/-- `draw()`, any 8-bit value under no law (R12): a fresh one for each value of the counter `State.draws`.
DESIGN CHOICE (log 6), safe. -/
opaque freeByte : Nat → Byte

/-- One less than F_PCLK, so that F_PCLK is a positive integer. -/
opaque fPclkPred : Nat

/-- F_PCLK in hertz, the frequency of the peripheral clock (R8); open (log 14), safe. -/
def fPclk : Nat := fPclkPred + 1

/-- One less than F_REFCLK, so that F_REFCLK is a positive integer. -/
opaque fRefclkPred : Nat

/-- F_REFCLK in hertz, the frequency of the reference clock (R8); open (log 14), safe. -/
def fRefclk : Nat := fRefclkPred + 1

/-- BAUD_SEL, the host's selection (R8); open (log 14), safe. -/
opaque baudSel : BaudSel

/-- ECHO_VIA_CALLBACK: echo in a callback (true) or inline in the rx ISR (false) (R8, R121); open (log 14), safe. -/
opaque echoViaCallback : Bool

/-- PERIODIC_ENABLE: whether the board's periodic timer is armed (R8, R125); open (log 14), safe. -/
opaque periodicEnable : Bool

/-- PERIODIC_BYTE, the "fixed byte" of the timer handler (R8, R125); open (log 14), safe. -/
opaque periodicByte : Byte

/-- VECTOR_RX, the host's vector of irq_rx (R135); open (log 14), safe. -/
opaque vectorRx : Nat

/-- VECTOR_TX, the host's vector of irq_tx (R135); open (log 14), safe. -/
opaque vectorTx : Nat

/-- UART_BASE, the base of the eight registers in the host's map (R139); open (log 14), safe. -/
opaque uartBase : Nat

end Config
end Sys2Proof
end

