-- ==== Sys2Proof/Syntax.lean ====
section
/-! DEFINITION. The step labels, one constructor per row of spec/opcode_table.json (R63). -/

namespace Sys2Proof

/-- A step label (R9, R57): a bus READ of one register, a bus WRITE of a byte to one register, a TICK of the baud
clock with the sampled receive line, or the hardware RESET. -/
inductive Instr where
  | rdData
  | rdCtl
  | rdBrlo
  | rdBrhi
  | rdMod
  | rdIe
  | rdIp
  | rdRsvd
  | wrData (data : Byte)
  | wrCtl (data : Byte)
  | wrBrlo (data : Byte)
  | wrBrhi (data : Byte)
  | wrMod (data : Byte)
  | wrIe (data : Byte)
  | wrIp (data : Byte)
  | wrRsvd (data : Byte)
  | tick (r : Bool)
  | reset
  deriving DecidableEq, Repr

end Sys2Proof
end

