-- ==== Sys2Proof/Syntax/Driver.lean ====
section
/-! DEFINITION. The words around the step labels: register names, bus accesses, the assembler's lines (R66, R67) and
the host driver's operations and program steps (R68, R112 to R125). -/

namespace Sys2Proof

/-- The eight registers of the bus (R15). -/
inductive Reg where
  | data | ctl | brlo | brhi | mod | ie | ip | rsvd
  deriving DecidableEq, Repr

/-- One bus access of the host (R10). -/
inductive BusOp where
  | rd (reg : Reg)
  | wr (reg : Reg) (data : Byte)
  deriving DecidableEq, Repr

/-- A register operand of the assembler: a name or a number (R66). -/
inductive AsmReg where
  | name (reg : Reg)
  | num (n : Nat)
  deriving DecidableEq, Repr

/-- A line of a label sequence (R66) or a pseudo-label (R67). `expect` is the test annotation after `->`. -/
inductive AsmLine where
  | rd (reg : AsmReg) (expect : Option Nat)
  | wr (reg : AsmReg) (imm : Nat)
  | tick (r : Nat)
  | reset
  | ticks (n r : Nat)
  | idle (n : Nat)
  | frame (b : Nat)
  deriving DecidableEq, Repr

/-- A reference to a host procedure with no arguments and no result (R112): the echo application's `echo_rx` (R124),
or the n-th procedure of the host's program. DESIGN CHOICE (log 11). -/
inductive CbRef where
  | echoRx
  | user (n : Nat)
  deriving DecidableEq, Repr

/-- The driver's functions (R5, R68). -/
inductive DriverOp where
  | init (br : Word) (mod : Byte) (clksel : Bool)
  | setCallbacks (t r : Option CbRef)
  | enableInterrupts
  | disableInterrupts
  | clearRxInterrupt
  | clearTxInterrupt
  | writeByte (b : Byte)
  | readByte
  deriving DecidableEq, Repr

/-- What a host procedure computes with, on natural numbers; `eq` and `lt` answer 1 or 0. DESIGN CHOICE (log 11). -/
inductive HostFn where
  | add | sub | mul | div | mod | and | or | xor | eq | lt
  deriving DecidableEq, Repr

/-- A value a host procedure computes: a constant, the context's byte `b` (R121, R124), the host variable at a computed
index, or a function of two values. DESIGN CHOICE (log 11). -/
inductive HostExpr where
  | const (n : Nat)
  | byte
  | var (index : HostExpr)
  | app (f : HostFn) (x y : HostExpr)
  deriving DecidableEq, Repr

/-- One step of host code, in a handler or in the main context. A callback is any procedure (R112), so that host code may
compute, remember, ask the host's other devices, branch and, by a branch to a procedure under way, repeat (log 11). -/
inductive HostAct where
  /-- A bus access; a READ's answer goes to the context's byte `b`. -/
  | bus (op : BusOp)
  /-- A bus write of a computed value's low byte; `write_byte(b)` is one (R121, R124). -/
  | write (reg : Reg) (value : HostExpr)
  /-- A host variable takes a computed value. -/
  | assign (index value : HostExpr)
  /-- A host variable takes a byte from outside the block and the host program: any value. -/
  | input (index : HostExpr)
  /-- Enter one of two procedures of the program: the first unless the condition is 0. -/
  | branch (cond : HostExpr) (thenProc elseProc : Nat)
  /-- The atomic replacement of the callback pair (R114). -/
  | setCallbacks (t r : Option CbRef)
  /-- `led_rx <- led_rx + 1` (R112). -/
  | toggleRx
  /-- `led_timer <- led_timer + 1` (R112). -/
  | toggleTimer
  /-- "if tx_cb is not none then tx_cb()" (R122). -/
  | callTx
  /-- "if rx_cb is not none then rx_cb()" (R121). -/
  | callRx
  deriving DecidableEq, Repr

/-- One step of the main context: host code, or the low-power wait (R123). -/
inductive MainAct where
  | act (a : HostAct)
  | wait
  deriving DecidableEq, Repr

/-- The interrupt sources the host dispatches (R130). -/
inductive Source where
  | rx | tx | timer
  deriving DecidableEq, Repr

/-- The two host contexts (R130). -/
inductive Ctx where
  | main | handler
  deriving DecidableEq, Repr

end Sys2Proof
end

