-- ==== Sys2Proof/Machine/State.lean ====
section
/-! DEFINITION. The machine's state as plain data: the block (R15 to R36), the run's record (R133, R157), the agents'
turns (R9) and the host (R112, R130); why a step can stop; and the state after reset (R39, R146). -/

namespace Sys2Proof.Machine

/-- The transmitter's phase (R30). -/
inductive TxPhase where
  | idle | wait | bit
  deriving DecidableEq, Repr

/-- The receiver's phase (R32). -/
inductive RxPhase where
  | idle | bit
  deriving DecidableEq, Repr

/-- The codes of the model fault markers (R131). -/
inductive FaultCode where
  /-- Code 1: a write of DATA while the transmitter is busy and HOLD = 0 (R88). -/
  | txWriteWhileBusy
  /-- Code 2: a byte delivered while the one before it is unread (R105). -/
  | rxOverrun
  /-- Code 3: a release with BR < 3 (R145). -/
  | illegalDivisor
  deriving DecidableEq, Repr

/-- The set `faults` of R36: which markers are set. -/
structure Faults where
  txWriteWhileBusy : Bool
  rxOverrun : Bool
  illegalDivisor : Bool
  deriving DecidableEq, Repr

/-- `faults = ∅`. -/
def Faults.empty : Faults := ⟨false, false, false⟩

/-- The UART block: its bus-visible registers (R15 to R28) and hidden state (R30 to R36). BR, the bytes CTL, IE, IP and
the output lines are computed from these (Operands, Flags). -/
structure Block where
  /-- TXBUF, the single transmit slot (R17). -/
  txbuf : Byte
  /-- RXBUF, the most recently received byte (R18). -/
  rxbuf : Option Byte
  /-- CTL.HOLD (R20). -/
  hold : Bool
  /-- CTL.CLKSEL (R21). -/
  clksel : Bool
  /-- BR[7:0] (R22). -/
  brlo : Byte
  /-- BR[15:8] (R23). -/
  brhi : Byte
  /-- MOD, the modulation value (R25). -/
  mod : Byte
  /-- IE.RXIE (R26). -/
  rxie : Bool
  /-- IE.TXIE (R26). -/
  txie : Bool
  /-- IP.RXIP (R27). -/
  rxip : Bool
  /-- IP.TXIP (R27). -/
  txip : Bool
  /-- tx_phase (R30). -/
  txPhase : TxPhase
  /-- tx_bit (R30). -/
  txBit : BitVec 4
  /-- tx_cnt (R30). -/
  txCnt : BitVec 16
  /-- rx_phase (R32). -/
  rxPhase : RxPhase
  /-- rx_bit (R32). -/
  rxBit : BitVec 4
  /-- rx_cnt (R32). -/
  rxCnt : BitVec 16
  /-- rx_shift, bit k holds data bit dk (R32). -/
  rxShift : Byte
  /-- rx_prev, the receive line at the previous TICK (R33). -/
  rxPrev : Bool
  /-- rx_unread, model bookkeeping for the overrun marker (R34). -/
  rxUnread : Bool
  /-- The sticky model fault markers (R36). -/
  faults : Faults
  deriving DecidableEq, Repr

/-- One turn: which agent acts next (R9, R130). Any agent may, so the turns come from outside the machine as plain data
(DESIGN CHOICE, log 1). -/
inductive Turn where
  /-- A label word reaches the block: from a bus master, the baud clock or the reset input (R9). -/
  | label (w : Word)
  /-- The board's timer expires (R125). -/
  | timerExpiry
  /-- The host's dispatch step, its choice among the pending sources (IRQ_ORDER, R130). -/
  | dispatch (choice : Source)
  /-- The running handler takes its next step (R130). -/
  | handler
  /-- The main context takes its next step (R130). -/
  | main
  deriving DecidableEq, Repr

/-- The host software's state (R112, R130), outside the block and in scope as the host's contract (R5). -/
structure HostSide where
  /-- tx_cb (R112). -/
  txCb : Option CbRef
  /-- rx_cb (R112). -/
  rxCb : Option CbRef
  /-- The bodies of the host program's procedures (log 11). -/
  procs : List (List HostAct)
  /-- The host program's variables, by index; one not listed holds 0 (log 11). -/
  vars : List (Nat × Nat)
  /-- led_rx (R112). -/
  ledRx : Nat
  /-- led_timer (R112). -/
  ledTimer : Nat
  /-- in_handler (R130). -/
  inHandler : Option Source
  /-- What is left of the running handler's body (R130). -/
  handlerTodo : List HostAct
  /-- What is left of the main context's program (R130). -/
  mainTodo : List MainAct
  /-- The handler's local byte `b` (R121). -/
  handlerByte : Byte
  /-- The main context's local byte. -/
  mainByte : Byte
  /-- TIMER_EXPIRY events not yet taken (R130, log 12). -/
  timerPending : Nat
  /-- The main context is in its low-power wait (R123, R142). -/
  waiting : Bool
  deriving DecidableEq, Repr

/-- The whole state. -/
structure State where
  /-- The UART block. -/
  block : Block
  /-- The sticky mark of an ill-formed word (R133). -/
  refused : Bool
  /-- The READ answers so far, newest first (R157); its head is rdata of the last READ (R10). -/
  answers : List Byte
  /-- txd after every label so far, newest first (R157). -/
  txdLog : List Bool
  /-- How many free values have been drawn (the model's own field, log 6). -/
  draws : Nat
  /-- The turns to come (the model's own field, log 1). -/
  schedule : List Turn
  /-- The host software. -/
  host : HostSide
  deriving DecidableEq, Repr

/-- Why a step stops with a fault. -/
inductive Fault where
  /-- Raised by TICK with HOLD = 0 and BR < 3: the clock has no step (R94, R132). Safe: the run stops. -/
  | tickStuck
  deriving DecidableEq, Repr

/-- Why a step is refused. -/
inductive Refusal where
  /-- Raised by an arm of `exec` without a meaning; no arm is without one. Safe. -/
  | notModelled (mnemonic : String)
  /-- Raised by `step` when the schedule is empty: no agent acts, so there is no step (R157, log 2). Safe. -/
  | noTurn
  deriving DecidableEq, Repr

/-- The block at power-on (R39, R146). TXBUF and rx_shift are unspecified there: 0x00 is a DESIGN CHOICE (log 7). -/
def Block.powerOn : Block :=
  { txbuf := 0, rxbuf := none, hold := true, clksel := false, brlo := 0, brhi := 0, mod := 0
    rxie := false, txie := false, rxip := false, txip := true
    txPhase := .idle, txBit := 0, txCnt := 0
    rxPhase := .idle, rxBit := 0, rxCnt := 0, rxShift := 0, rxPrev := true, rxUnread := false
    faults := Faults.empty }

/-- The host at its start (R112): callbacks none, counters 0; the rest DESIGN CHOICE (log 10). -/
def HostSide.start : HostSide :=
  { txCb := none, rxCb := none, procs := [], vars := [], ledRx := 0, ledTimer := 0
    inHandler := none, handlerTodo := [], mainTodo := [], handlerByte := 0, mainByte := 0
    timerPending := 0, waiting := false }

/-- The machine right after power-on (R146), nothing recorded, no turn placed. -/
def State.reset : State :=
  { block := Block.powerOn, refused := false, answers := [], txdLog := [], draws := 0, schedule := []
    host := HostSide.start }

end Sys2Proof.Machine
end

