-- ==== Sys2Proof/Machine/Operands.lean ====
section
/-! DEFINITION. What the labels compute with: the register bytes as the bus reads them (R15), the divisor (R24), a
bit of a byte, and the bit-times of a frame (R92, R93). -/

namespace Sys2Proof.Machine

/-- `000000 ‖ b1 ‖ b0`: a register with two fields and six reserved bits that read as zero (R50). -/
def twoBits (b1 b0 : Bool) : Byte := 0#6 ++ BitVec.ofBool b1 ++ BitVec.ofBool b0

/-- CTL as a read returns it (R19). -/
def Block.ctlByte (b : Block) : Byte := twoBits b.clksel b.hold

/-- IE as a read returns it (R26). -/
def Block.ieByte (b : Block) : Byte := twoBits b.txie b.rxie

/-- IP as a read returns it (R27). -/
def Block.ipByte (b : Block) : Byte := twoBits b.txip b.rxip

/-- The baud divisor `BR = x[BRHI] ‖ x[BRLO]` (R24, R43). -/
def Block.br (b : Block) : Word := b.brhi ++ b.brlo

/-- `v[k] <- x` for a byte. -/
def setBit (v : Byte) (k : Nat) (x : Bool) : Byte :=
  if x then v ||| (1#8 <<< k) else v &&& ~~~(1#8 <<< k)

/-- `L(i) = BR + MOD[i mod 8]`, the length of bit-time i in TICKs, an exact integer (R92). -/
def bitTime (br : Word) (mod : Byte) (i : Nat) : Nat := br.toNat + (mod.getLsbD (i % 8)).toNat

/-- `H(i) = floor(L(i) / 2)`, where the receiver samples (R92, R101). -/
def halfTime (br : Word) (mod : Byte) (i : Nat) : Nat := bitTime br mod i / 2

/-- `S(i) = L(0) + ... + L(i - 1)`, the start of bit-time i (R92). -/
def startTime (br : Word) (mod : Byte) : Nat → Nat
  | 0 => 0
  | i + 1 => startTime br mod i + bitTime br mod i

/-- `N_F = S(10)`, the frame length (R92). -/
def frameTime (br : Word) (mod : Byte) : Nat := startTime br mod Config.frameBits

/-- L(i) under the block's BR and MOD: the transmitter and the receiver use the same (R92). -/
def Block.bitLen (b : Block) (i : Nat) : Nat := bitTime b.br b.mod i

/-- H(i) under the block's BR and MOD (R92). -/
def Block.halfLen (b : Block) (i : Nat) : Nat := halfTime b.br b.mod i

/-- S(i) under the block's BR and MOD (R92). -/
def Block.startLen (b : Block) (i : Nat) : Nat := startTime b.br b.mod i

/-- N_F under the block's BR and MOD (R92). -/
def Block.frameLen (b : Block) : Nat := frameTime b.br b.mod

/-- The frame bit function f(b, i) (R93): start bit 0, data bits least significant first, stop bit 1
(the spec's own general knowledge, log 20). A bit-time above 9
does not occur (R38); it is shown as the idle level (DESIGN CHOICE, log 17). -/
def frameBit (b : Byte) (i : Nat) : Bool :=
  if i = 0 then false else if i ≤ 8 then b.getLsbD (i - 1) else true

end Sys2Proof.Machine
end

