-- ==== Sys2Proof/Machine/Baud.lean ====
section
/-! DEFINITION. Baud arithmetic (R91, R109) and the reference procedure for the divisor and the modulation (R110), in
exact rational arithmetic. The block only uses the result. -/

namespace Sys2Proof.Machine

/-- F_BRCLK: the frequency of the clock CTL.CLKSEL selects (R21, R91). -/
def Block.brclk (b : Block) : Nat := if b.clksel then Config.fRefclk else Config.fPclk

/-- `B_avg = 10 * F_BRCLK / N_F` (R109). -/
def averageBaud (f : Nat) (br : Word) (mod : Byte) : Rat := 10 * (f : Rat) / (frameTime br mod : Rat)

/-- `e = 10 * F_BRCLK / (N_F * B) - 1` (R109). -/
def baudError (f target : Nat) (br : Word) (mod : Byte) : Rat :=
  10 * (f : Rat) / ((frameTime br mod : Rat) * (target : Rat)) - 1

/-- `D(k) = S(k) - k * F_BRCLK / B` (R109). -/
def edgeDeviation (f target : Nat) (br : Word) (mod : Byte) (k : Nat) : Rat :=
  (startTime br mod k : Rat) - (k : Rat) * (f : Rat) / (target : Rat)

/-- `|e| ≤ 0.01` (R109). -/
def withinTolerance (f target : Nat) (br : Word) (mod : Byte) : Prop :=
  -(1 / 100 : Rat) ≤ baudError f target br mod ∧ baudError f target br mod ≤ 1 / 100

/-- `BR <- floor(F / B)` (R110). -/
def refDivisor (f target : Nat) : Nat := f / target

/-- `E(k) = floor(k * q + 1/2)` with `q = F / B - BR = (F mod B) / B`, over the common denominator 2 B (R110, log 27). -/
def refEdge (f target k : Nat) : Nat := (2 * k * (f % target) + target) / (2 * target)

/-- `q <- F / B - BR`, as R110 writes it. -/
def exactFraction (f target : Nat) : Rat :=
  (f : Rat) / (target : Rat) - (((f : Rat) / (target : Rat)).floor : Rat)

/-- `E(k) <- floor(k * q + 1/2)`, as R110 writes it. -/
def exactEdge (f target k : Nat) : Int := ((k : Rat) * exactFraction f target + 1 / 2).floor

/-- `MOD[j] <- E(j + 1) - E(j)` for j = 0..7 (R110). -/
def refMod (f target : Nat) : Byte :=
  (List.range 8).foldl (fun v j => setBit v j (refEdge f target (j + 1) - refEdge f target j == 1)) 0

/-- The result is legal only if 3 ≤ BR, and BR has 16 bits (R24, R110). -/
def refLegal (f target : Nat) : Bool :=
  Config.minDivisor ≤ refDivisor f target && decide (refDivisor f target < 2 ^ 16)

/-- The clock frequency of a selection: "9600 baud from a 32 kHz reference clock, and 115200 baud from a 4.8 MHz
clock" (R8, R69), 32 kHz read as 32 768 Hz. -/
def selClock : BaudSel → Nat
  | .baud9600 => 32768
  | .baud115200 => 4800000

/-- The target baud rate of a selection (R8). -/
def selTarget : BaudSel → Nat
  | .baud9600 => 9600
  | .baud115200 => 115200

/-- The divisor of a selection (R69). -/
def selBr (sel : BaudSel) : Word := BitVec.ofNat 16 (refDivisor (selClock sel) (selTarget sel))

/-- The modulation of a selection (R69). -/
def selMod (sel : BaudSel) : Byte := refMod (selClock sel) (selTarget sel)

/-- The clock source of a selection (R69). -/
def selClksel : BaudSel → Bool
  | .baud9600 => true
  | .baud115200 => false

end Sys2Proof.Machine
end

