-- ==== Sys2Proof/WellFormed.lean ====
section
/-! DEFINITION. Well-formedness: of label words (R57 to R62), of instructions, of assembler lines (R66, R67) and of the
driver's operations (R24, R113). -/

namespace Sys2Proof

/-- A READ word's must-be-zero bits (R58). -/
def Word.readZeros (w : Word) : Bool := w.extractLsb' 11 3 == 0#3 && w.extractLsb' 0 8 == 0#8

/-- A WRITE word's must-be-zero bits (R59). -/
def Word.writeZeros (w : Word) : Bool := w.extractLsb' 11 3 == 0#3

/-- A TICK word's must-be-zero bits (R60). -/
def Word.tickZeros (w : Word) : Bool := w.extractLsb' 1 13 == 0#13

/-- A RESET word's must-be-zero bits (R61). -/
def Word.resetZeros (w : Word) : Bool := w.extractLsb' 0 14 == 0#14

/-- A word is well formed when the must-be-zero bits of its kind are all zero (R62). -/
def Word.wf (w : Word) : Bool :=
  if w.extractLsb' 14 2 == 0b00#2 then Word.readZeros w
  else if w.extractLsb' 14 2 == 0b01#2 then Word.writeZeros w
  else if w.extractLsb' 14 2 == 0b10#2 then Word.tickZeros w
  else Word.resetZeros w

/-- Every label is well formed: its operands are an 8-bit byte or one bit by type, and every byte value may be written
to every address (R50, R59, R64). -/
def Instr.wf : Instr → Bool
  | .rdData | .rdCtl | .rdBrlo | .rdBrhi | .rdMod | .rdIe | .rdIp | .rdRsvd => true
  | .wrData _ | .wrCtl _ | .wrBrlo _ | .wrBrhi _ | .wrMod _ | .wrIe _ | .wrIp _ | .wrRsvd _ => true
  | .tick _ => true
  | .reset => true

/-- A register operand is one of the eight names or a number 0 to 7 (R66). -/
def AsmReg.wf : AsmReg → Bool
  | .name _ => true
  | .num n => n ≤ 7

/-- An assembler line's numbers are in the ranges of R66 and R67. -/
def AsmLine.wf : AsmLine → Bool
  | .rd reg expect => reg.wf && expect.all (· ≤ 255)
  | .wr reg imm => reg.wf && imm ≤ 255
  | .tick r => r ≤ 1
  | .reset => true
  | .ticks _ r => r ≤ 1
  | .idle _ => true
  | .frame b => b ≤ 255

/-- A driver operation is legal as far as its operands alone decide: `init` needs a legal divisor (R24, R113). -/
def DriverOp.wf : DriverOp → Bool
  | .init br _ _ => Config.minDivisor ≤ br.toNat
  | .setCallbacks _ _ | .enableInterrupts | .disableInterrupts => true
  | .clearRxInterrupt | .clearTxInterrupt | .writeByte _ | .readByte => true

end Sys2Proof
end

