-- ==== Sys2Proof/Decode.lean ====
section
/-! DEFINITION. The opcode table (R63), the decoder, total on 16-bit words (R62), and the encoder (R57, R66). -/

namespace Sys2Proof

/-- The 3-bit address of a register (R15). -/
def Reg.addr : Reg → BitVec 3
  | .data => 0#3
  | .ctl => 1#3
  | .brlo => 2#3
  | .brhi => 3#3
  | .mod => 4#3
  | .ie => 5#3
  | .ip => 6#3
  | .rsvd => 7#3

/-- Address decoding is total: every 3-bit address names exactly one register (R42). -/
def Reg.ofAddr (a : BitVec 3) : Reg :=
  match a.toNat with
  | 0 => .data
  | 1 => .ctl
  | 2 => .brlo
  | 3 => .brhi
  | 4 => .mod
  | 5 => .ie
  | 6 => .ip
  | _ => .rsvd

/-- The READ label of a register (R58). -/
def Instr.ofRead : Reg → Instr
  | .data => .rdData
  | .ctl => .rdCtl
  | .brlo => .rdBrlo
  | .brhi => .rdBrhi
  | .mod => .rdMod
  | .ie => .rdIe
  | .ip => .rdIp
  | .rsvd => .rdRsvd

/-- The WRITE label of a byte to a register (R59). -/
def Instr.ofWrite (reg : Reg) (data : Byte) : Instr :=
  match reg with
  | .data => .wrData data
  | .ctl => .wrCtl data
  | .brlo => .wrBrlo data
  | .brhi => .wrBrhi data
  | .mod => .wrMod data
  | .ie => .wrIe data
  | .ip => .wrIp data
  | .rsvd => .wrRsvd data

/-- The label of one bus access (R10: `we` chooses the kind). -/
def BusOp.instr : BusOp → Instr
  | .rd reg => Instr.ofRead reg
  | .wr reg data => Instr.ofWrite reg data

/-- Why a word spells no label (R62): a must-be-zero bit of its kind is set. -/
inductive DecodeError where
  /-- READ with a bit of w[13:11] or w[7:0] set (R58). -/
  | readReserved
  /-- WRITE with a bit of w[13:11] set (R59). -/
  | writeReserved
  /-- TICK with a bit of w[13:1] set (R60). -/
  | tickReserved
  /-- RESET with a bit of w[13:0] set (R61). -/
  | resetReserved
  deriving DecidableEq, Repr

/-- The decoder: kind w[15:14], address w[10:8], data w[7:0], r w[0] (R57 to R62). -/
def decode (w : Word) : Except DecodeError Instr :=
  if w.extractLsb' 14 2 = 0b00#2 then
    if Word.readZeros w then .ok (Instr.ofRead (Reg.ofAddr (w.extractLsb' 8 3))) else .error .readReserved
  else if w.extractLsb' 14 2 = 0b01#2 then
    if Word.writeZeros w then .ok (Instr.ofWrite (Reg.ofAddr (w.extractLsb' 8 3)) (w.extractLsb' 0 8))
    else .error .writeReserved
  else if w.extractLsb' 14 2 = 0b10#2 then
    if Word.tickZeros w then .ok (.tick (w[0])) else .error .tickReserved
  else if Word.resetZeros w then .ok .reset
  else .error .resetReserved

/-- A label word laid out field by field, w[15:14] first (R57). -/
def labelWord (kind : BitVec 2) (addr : BitVec 3) (low : Byte) : Word := kind ++ 0#3 ++ addr ++ low

/-- A READ word (R58). -/
def readWord (reg : Reg) : Word := labelWord 0b00#2 reg.addr 0#8

/-- A WRITE word (R59). -/
def writeWord (reg : Reg) (data : Byte) : Word := labelWord 0b01#2 reg.addr data

/-- A TICK word (R60). -/
def tickWord (r : Bool) : Word := labelWord 0b10#2 0#3 (0#7 ++ BitVec.ofBool r)

/-- The RESET word (R61). -/
def resetWord : Word := labelWord 0b11#2 0#3 0#8

/-- The word of a label (R57, R66). -/
def encode : Instr → Word
  | .rdData => readWord .data
  | .rdCtl => readWord .ctl
  | .rdBrlo => readWord .brlo
  | .rdBrhi => readWord .brhi
  | .rdMod => readWord .mod
  | .rdIe => readWord .ie
  | .rdIp => readWord .ip
  | .rdRsvd => readWord .rsvd
  | .wrData data => writeWord .data data
  | .wrCtl data => writeWord .ctl data
  | .wrBrlo data => writeWord .brlo data
  | .wrBrhi data => writeWord .brhi data
  | .wrMod data => writeWord .mod data
  | .wrIe data => writeWord .ie data
  | .wrIp data => writeWord .ip data
  | .wrRsvd data => writeWord .rsvd data
  | .tick r => tickWord r
  | .reset => resetWord

/-- A row of the opcode map: a word selects it when `(w & mask) = match` (R63). -/
structure OpcodeRow where
  mnemonic : String
  pattern : Word
  mask : Word
  deriving DecidableEq, Repr

/-- `(w & mask) = match` (R63). -/
def OpcodeRow.selects (row : OpcodeRow) (w : Word) : Bool := w &&& row.mask == row.pattern

/-- The READ rows of the opcode map (R63). -/
def readRows : List OpcodeRow :=
  [⟨"RD_DATA", 0x0000#16, 0xFFFF#16⟩, ⟨"RD_CTL", 0x0100#16, 0xFFFF#16⟩, ⟨"RD_BRLO", 0x0200#16, 0xFFFF#16⟩,
   ⟨"RD_BRHI", 0x0300#16, 0xFFFF#16⟩, ⟨"RD_MOD", 0x0400#16, 0xFFFF#16⟩, ⟨"RD_IE", 0x0500#16, 0xFFFF#16⟩,
   ⟨"RD_IP", 0x0600#16, 0xFFFF#16⟩, ⟨"RD_RSVD", 0x0700#16, 0xFFFF#16⟩]

/-- The WRITE rows of the opcode map (R63). -/
def writeRows : List OpcodeRow :=
  [⟨"WR_DATA", 0x4000#16, 0xFF00#16⟩, ⟨"WR_CTL", 0x4100#16, 0xFF00#16⟩, ⟨"WR_BRLO", 0x4200#16, 0xFF00#16⟩,
   ⟨"WR_BRHI", 0x4300#16, 0xFF00#16⟩, ⟨"WR_MOD", 0x4400#16, 0xFF00#16⟩, ⟨"WR_IE", 0x4500#16, 0xFF00#16⟩,
   ⟨"WR_IP", 0x4600#16, 0xFF00#16⟩, ⟨"WR_RSVD", 0x4700#16, 0xFF00#16⟩]

/-- The opcode map, in the table's order (R63). -/
def opcodeTable : List OpcodeRow :=
  readRows ++ writeRows ++ [⟨"TICK", 0x8000#16, 0xFFFE#16⟩, ⟨"RESET", 0xC000#16, 0xFFFF#16⟩]

/-- The mnemonic of a label's row (R63). -/
def Instr.mnemonic : Instr → String
  | .rdData => "RD_DATA"
  | .rdCtl => "RD_CTL"
  | .rdBrlo => "RD_BRLO"
  | .rdBrhi => "RD_BRHI"
  | .rdMod => "RD_MOD"
  | .rdIe => "RD_IE"
  | .rdIp => "RD_IP"
  | .rdRsvd => "RD_RSVD"
  | .wrData _ => "WR_DATA"
  | .wrCtl _ => "WR_CTL"
  | .wrBrlo _ => "WR_BRLO"
  | .wrBrhi _ => "WR_BRHI"
  | .wrMod _ => "WR_MOD"
  | .wrIe _ => "WR_IE"
  | .wrIp _ => "WR_IP"
  | .wrRsvd _ => "WR_RSVD"
  | .tick _ => "TICK"
  | .reset => "RESET"

/-- The label word given as the low `nbits` bits of a number, the bits above them zero. A label is one whole 16-bit word
(R57), so no byte order arises (log 25). -/
def tableWord (nbits w : Nat) : Nat := w % 2 ^ nbits

/-- What the decoder reads from an opcode-table word; none where it refuses, and for a number that is no 16-bit word,
since no other length exists (R57). -/
def decodeTableWord (nbits w : Nat) : Option Instr :=
  if tableWord nbits w < 2 ^ 16 then (decode (BitVec.ofNat 16 (tableWord nbits w))).toOption else none

end Sys2Proof
end

