-- ==== Sys2Proof/Machine/Flags.lean ====
section
/-! DEFINITION. The interrupt-pending flags' rules (R27), the output lines (R37) and the model fault markers (R131). -/

namespace Sys2Proof.Machine

/-- Write 1 to clear: bit 0 clears RXIP, bit 1 clears TXIP, no write sets a flag (R83). -/
def Block.clearFlags (data : Byte) (b : Block) : Block :=
  { b with rxip := b.rxip && !data[0], txip := b.txip && !data[1] }

/-- irq_rx, a level (R127). -/
def Block.irqRx (b : Block) : Bool := b.rxie && b.rxip

/-- irq_tx, a level (R127). -/
def Block.irqTx (b : Block) : Bool := b.txie && b.txip

/-- txd, a function of the state (R95). -/
def Block.txd (b : Block) : Bool :=
  match b.txPhase with
  | .idle | .wait => true
  | .bit => frameBit b.txbuf b.txBit.toNat

/-- tx_busy (R31). -/
def Block.txBusy (b : Block) : Bool := decide (b.txPhase ≠ .idle)

/-- The code number of a marker (R131). -/
def FaultCode.number : FaultCode → Nat
  | .txWriteWhileBusy => 1
  | .rxOverrun => 2
  | .illegalDivisor => 3

/-- Whether a marker is set. -/
def Faults.has (f : Faults) : FaultCode → Bool
  | .txWriteWhileBusy => f.txWriteWhileBusy
  | .rxOverrun => f.rxOverrun
  | .illegalDivisor => f.illegalDivisor

/-- Set a marker; no operation clears one (R36). -/
def Faults.mark (f : Faults) : FaultCode → Faults
  | .txWriteWhileBusy => { f with txWriteWhileBusy := true }
  | .rxOverrun => { f with rxOverrun := true }
  | .illegalDivisor => { f with illegalDivisor := true }

/-- `raise Fault(code)`: the marker is set and the step goes on (R12, R131). -/
def Block.raise (code : FaultCode) (b : Block) : Block := { b with faults := b.faults.mark code }

end Sys2Proof.Machine
end

