-- ==== Sys2Proof/Machine/Ops.lean ====
section
/-! DEFINITION. The operations the meanings share: acting on the block, a READ's answer, free values, hold entry and
release (R144, R145), and the host's entry into a handler and its return (R130, R135, R136). -/

namespace Sys2Proof.Machine

/-- The state with the block changed. -/
def State.onBlock (f : Block → Block) (s : State) : State := { s with block := f s.block }

/-- The block answers a READ with `rdata` (R58). -/
def State.answer (v : Byte) (s : State) : State := { s with answers := v :: s.answers }

/-- rdata of the last READ, if there was one (R10). -/
def State.rdata (s : State) : Option Byte := s.answers.head?

/-- The k-th free value not yet drawn (R12, log 6). -/
def State.draw (k : Nat) (s : State) : Byte := Config.freeByte (s.draws + k)

/-- The state after n free values were drawn. -/
def State.drawn (n : Nat) (s : State) : State := { s with draws := s.draws + n }

/-- HoldEntry() (R144). -/
def Block.holdEntry (b : Block) : Block :=
  { b with
    txPhase := .idle, txBit := 0, txCnt := 0
    rxPhase := .idle, rxBit := 0, rxCnt := 0
    rxPrev := true, rxUnread := false, rxip := false, txip := true }

/-- Release() (R145). -/
def Block.release (b : Block) : Block :=
  if b.br.toNat < Config.minDivisor then b.raise .illegalDivisor else b

/-- The host enters a handler (R130): `in_handler` is set, the body is to run, a TIMER_EXPIRY that is taken is consumed
(log 12), and the main context leaves its low-power wait (R123, R142; DEDUCED, log 16). The block saves nothing and
changes nothing (R135), and what the host's CPU saves is outside the model (log 21). -/
def State.enterHandler (src : Source) (body : List HostAct) (s : State) : State :=
  { s with
    host :=
      { s.host with
        inHandler := some src
        handlerTodo := body
        timerPending := if src = .timer then s.host.timerPending - 1 else s.host.timerPending
        waiting := false } }

/-- The handler returns (R130, R136): interrupts are accepted again at once. -/
def State.leaveHandler (s : State) : State :=
  { s with host := { s.host with inHandler := none, handlerTodo := [] } }

/-- The next turn and the turns after it, if any is placed. -/
def State.nextTurn? (s : State) : Option (Turn × State) :=
  match s.schedule with
  | [] => none
  | t :: ts => some (t, { s with schedule := ts })

end Sys2Proof.Machine
end

