-- ==== Sys2Proof/Machine/DataPath.lean ====
section
/-! DEFINITION. The data path labels (41_data_path.md, R87 to R90). -/

namespace Sys2Proof.Machine

/-- The effect of a write of DATA on the block (R88). -/
def Block.writeData (data : Byte) (b : Block) : Block :=
  if b.hold then b
  else if b.txPhase = .idle then { b with txbuf := data, txPhase := .wait }
  else { b.raise .txWriteWhileBusy with txbuf := data }

/-- WR_DATA (R88). -/
def execWrData (data : Byte) (s : State) : Host.Outcome State Fault Refusal :=
  .next (s.onBlock (Block.writeData data))

/-- RD_DATA (R89): RXBUF, or `draw()` before any delivery; rx_unread is cleared, RXIP is not. -/
def execRdData (s : State) : Host.Outcome State Fault Refusal :=
  match s.block.rxbuf with
  | some v => .next ((s.answer v).onBlock fun b => { b with rxUnread := false })
  | none => .next (((s.answer (s.draw 0)).drawn 1).onBlock fun b => { b with rxUnread := false })

end Sys2Proof.Machine
end

