-- ==== Sys2Proof/Machine/Engines.lean ====
section
/-! DEFINITION. The TICK label: the transmitter and the receiver (42_baud_and_engines.md, R91 to R106). -/

namespace Sys2Proof.Machine

/-- EndOfFrame, at the TICK that ends the stop bit (R98). -/
def Block.endOfFrame (b : Block) : Block := { b with txPhase := .idle, txip := true }

/-- TxTick in phase Bit (R97); the count is formed exactly before it is compared (R111). -/
def Block.txAdvance (b : Block) : Block :=
  if b.txCnt.toNat + 1 < b.bitLen b.txBit.toNat then { b with txCnt := BitVec.ofNat 16 (b.txCnt.toNat + 1) }
  else if b.txBit.toNat < 9 then { b with txBit := b.txBit + 1#4, txCnt := 0 }
  else b.endOfFrame

/-- TxTick (R96, R97). -/
def Block.txTick (b : Block) : Block :=
  match b.txPhase with
  | .idle => b
  | .wait => { b with txPhase := .bit, txBit := 0, txCnt := 0 }
  | .bit => b.txAdvance

/-- Delivery at the stop sample, its overrun check first (R104, R105). -/
def Block.deliver (b : Block) : Block :=
  let checked := if b.rxUnread then b.raise .rxOverrun else b
  { checked with rxbuf := some b.rxShift, rxip := true, rxUnread := true, rxPhase := .idle }

/-- Sample(rx_bit, r) (R102 to R104). A bit-time above 9 does not occur (R38) and has no sample (log 17). -/
def Block.sample (k : Nat) (r : Bool) (b : Block) : Block :=
  if k = 0 then (if r then { b with rxPhase := .idle } else b)
  else if k ≤ 8 then { b with rxShift := setBit b.rxShift (k - 1) r }
  else if k = 9 then b.deliver
  else b

/-- RxTick in phase Bit (R101). -/
def Block.rxAdvance (r : Bool) (b : Block) : Block :=
  if b.rxCnt.toNat + 1 = b.bitLen b.rxBit.toNat then { b with rxBit := b.rxBit + 1#4, rxCnt := 0 }
  else if b.rxCnt.toNat + 1 = b.halfLen b.rxBit.toNat then
    Block.sample b.rxBit.toNat r { b with rxCnt := BitVec.ofNat 16 (b.rxCnt.toNat + 1) }
  else { b with rxCnt := BitVec.ofNat 16 (b.rxCnt.toNat + 1) }

/-- RxTick (R100, R101): in phase Idle a 1-to-0 edge starts a frame. -/
def Block.rxTick (r : Bool) (b : Block) : Block :=
  match b.rxPhase with
  | .idle => if b.rxPrev && !r then { b with rxPhase := .bit, rxBit := 0, rxCnt := 0 } else b
  | .bit => b.rxAdvance r

/-- One TICK of running engines (R94). TxTick and RxTick write disjoint state and RxTick reads nothing that TxTick
writes, so that running one after the other reads the state before the TICK. -/
def Block.engines (r : Bool) (b : Block) : Block := { b.txTick.rxTick r with rxPrev := r }

/-- TICK (R94; r is the synchronised sample, log 19): nothing while held, no step with BR < 3 (R132; DEDUCED,
log 5), else both engines. -/
def execTick (r : Bool) (s : State) : Host.Outcome State Fault Refusal :=
  if s.block.hold then .next s
  else if s.block.br.toNat < Config.minDivisor then .fault .tickStuck
  else .next (s.onBlock (Block.engines r))

end Sys2Proof.Machine
end

