-- ==== Sys2Proof/Machine/Register.lean ====
section
/-! DEFINITION. The register access labels (40_register_access.md, R71 to R86). -/

namespace Sys2Proof.Machine

/-- RD_CTL (R72). -/
def execRdCtl (s : State) : Host.Outcome State Fault Refusal := .next (s.answer s.block.ctlByte)

/-- RD_BRLO (R74). -/
def execRdBrlo (s : State) : Host.Outcome State Fault Refusal := .next (s.answer s.block.brlo)

/-- RD_BRHI (R76). -/
def execRdBrhi (s : State) : Host.Outcome State Fault Refusal := .next (s.answer s.block.brhi)

/-- RD_MOD (R78). -/
def execRdMod (s : State) : Host.Outcome State Fault Refusal := .next (s.answer s.block.mod)

/-- RD_IE (R80). -/
def execRdIe (s : State) : Host.Outcome State Fault Refusal := .next (s.answer s.block.ieByte)

/-- RD_IP (R82). -/
def execRdIp (s : State) : Host.Outcome State Fault Refusal := .next (s.answer s.block.ipByte)

/-- RD_RSVD (R84). -/
def execRdRsvd (s : State) : Host.Outcome State Fault Refusal := .next (s.answer 0x00#8)

/-- The effect of a write of CTL on the block (R73): the conditions read HOLD as it was before the write. -/
def Block.writeCtl (data : Byte) (b : Block) : Block :=
  let written : Block :=
    { b with clksel := if b.hold then data[1] else b.clksel, hold := data[0] }
  if !b.hold && data[0] then written.holdEntry
  else if b.hold && !data[0] then written.release
  else written

/-- WR_CTL (R73). -/
def execWrCtl (data : Byte) (s : State) : Host.Outcome State Fault Refusal :=
  .next (s.onBlock (Block.writeCtl data))

/-- A write of configuration takes effect only while HOLD = 1 (R22, R23, R25, R86). -/
def Block.ifHeld (f : Block → Block) (b : Block) : Block := if b.hold then f b else b

/-- WR_BRLO (R75). -/
def execWrBrlo (data : Byte) (s : State) : Host.Outcome State Fault Refusal :=
  .next (s.onBlock (Block.ifHeld fun b => { b with brlo := data }))

/-- WR_BRHI (R77). -/
def execWrBrhi (data : Byte) (s : State) : Host.Outcome State Fault Refusal :=
  .next (s.onBlock (Block.ifHeld fun b => { b with brhi := data }))

/-- WR_MOD (R79). -/
def execWrMod (data : Byte) (s : State) : Host.Outcome State Fault Refusal :=
  .next (s.onBlock (Block.ifHeld fun b => { b with mod := data }))

/-- WR_IE (R81). -/
def execWrIe (data : Byte) (s : State) : Host.Outcome State Fault Refusal :=
  .next (s.onBlock fun b => { b with rxie := data[0], txie := data[1] })

/-- WR_IP (R83). -/
def execWrIp (data : Byte) (s : State) : Host.Outcome State Fault Refusal :=
  .next (s.onBlock (Block.clearFlags data))

/-- WR_RSVD (R85): nothing. -/
def execWrRsvd (_data : Byte) (s : State) : Host.Outcome State Fault Refusal := .next s

end Sys2Proof.Machine
end

