-- ==== Sys2Proof/Machine/Reset.lean ====
section
/-! DEFINITION. The RESET label (70_reset_and_hazards.md, R143). -/

namespace Sys2Proof.Machine

/-- The effect of RESET on the block (R143). TXBUF and rx_shift are unspecified after RESET (R39): they take the two
given values, which are free (log 8). RXBUF and the markers are kept. -/
def Block.hardReset (freeTx freeShift : Byte) (b : Block) : Block :=
  { b.holdEntry with
    hold := true, clksel := false, brlo := 0, brhi := 0, mod := 0, rxie := false, txie := false
    txbuf := freeTx, rxShift := freeShift }

/-- RESET (R143): enabled in every state; the refused mark and the host are kept (DEDUCED, log 23). -/
def execReset (s : State) : Host.Outcome State Fault Refusal :=
  .next ((s.onBlock (Block.hardReset (s.draw 0) (s.draw 1))).drawn 2)

end Sys2Proof.Machine
end

