-- ==== Sys2Proof/Machine/Dispatch.lean ====
section
/-! DEFINITION. One arm per step label (R63). -/

namespace Sys2Proof.Machine

/-- The effect of one step label. -/
def exec (i : Instr) (s : State) : Host.Outcome State Fault Refusal :=
  match i with
  | .rdData => Sys2Proof.Machine.execRdData s
  | .rdCtl => Sys2Proof.Machine.execRdCtl s
  | .rdBrlo => Sys2Proof.Machine.execRdBrlo s
  | .rdBrhi => Sys2Proof.Machine.execRdBrhi s
  | .rdMod => Sys2Proof.Machine.execRdMod s
  | .rdIe => Sys2Proof.Machine.execRdIe s
  | .rdIp => Sys2Proof.Machine.execRdIp s
  | .rdRsvd => Sys2Proof.Machine.execRdRsvd s
  | .wrData data => Sys2Proof.Machine.execWrData data s
  | .wrCtl data => Sys2Proof.Machine.execWrCtl data s
  | .wrBrlo data => Sys2Proof.Machine.execWrBrlo data s
  | .wrBrhi data => Sys2Proof.Machine.execWrBrhi data s
  | .wrMod data => Sys2Proof.Machine.execWrMod data s
  | .wrIe data => Sys2Proof.Machine.execWrIe data s
  | .wrIp data => Sys2Proof.Machine.execWrIp data s
  | .wrRsvd data => Sys2Proof.Machine.execWrRsvd data s
  | .tick r => Sys2Proof.Machine.execTick r s
  | .reset => Sys2Proof.Machine.execReset s

end Sys2Proof.Machine
end

