-- ==== Sys2Proof/Machine/Label.lean ====
section
/-! DEFINITION. A label as a step of a run (R133, R157), sequences of labels, and the line environment's pseudo-labels
(R67). -/

namespace Sys2Proof.Machine

/-- Go on with `f` after a next state; a fault or a refusal stops. -/
def andThen (o : Host.Outcome State Fault Refusal) (f : State → Host.Outcome State Fault Refusal) :
    Host.Outcome State Fault Refusal :=
  match o with
  | .next t => f t
  | .fault r => .fault r
  | .refused r => .refused r

/-- The run's record of txd after a label (R157). -/
def State.logTxd (s : State) : State := { s with txdLog := s.block.txd :: s.txdLog }

/-- One label of a run: its effect, then txd is recorded (R157). -/
def labelStep (i : Instr) (s : State) : Host.Outcome State Fault Refusal :=
  andThen (exec i s) fun t => .next t.logTxd

/-- One label word of a run: an ill-formed word is no step of the block and marks the run (R62, R133, log 4). -/
def wordStep (w : Word) (s : State) : Host.Outcome State Fault Refusal :=
  match decode w with
  | .ok i => labelStep i s
  | .error _ => .next { s with refused := true }

/-- A sequence of labels, stopping where a label has no step (R157). -/
def runLabels : List Instr → State → Host.Outcome State Fault Refusal
  | [], s => .next s
  | i :: rest, s => andThen (labelStep i s) (runLabels rest)

/-- A sequence of TICKs with the given receive-line samples. -/
def runTicks (rs : List Bool) (s : State) : Host.Outcome State Fault Refusal := runLabels (rs.map Instr.tick) s

/-- TICKs with rxd tied to txd: the r of every TICK is txd just before it (R108). -/
def runLoopback : Nat → State → Host.Outcome State Fault Refusal
  | 0, s => .next s
  | n + 1, s => andThen (labelStep (.tick s.block.txd) s) (runLoopback n)

/-- The levels of a correctly timed frame of byte v: f(v, i) for L(i) TICKs, i = 0 .. n - 1 (R67). -/
def frameLevels (br : Word) (mod : Byte) (v : Byte) : Nat → List Bool
  | 0 => []
  | n + 1 => frameLevels br mod v n ++ List.replicate (bitTime br mod n) (frameBit v n)

/-- `FRAME v` under the current BR and MOD (R67). -/
def Block.frameTicks (v : Byte) (b : Block) : List Bool := frameLevels b.br b.mod v Config.frameBits

/-- `TICK*n r` (R67). -/
def ticksOf (n : Nat) (r : Bool) : List Instr := List.replicate n (.tick r)

/-- `IDLE n` (R67). -/
def idleTicks (n : Nat) : List Instr := ticksOf n true

end Sys2Proof.Machine
end

