-- ==== Sys2Proof/Machine/Program.lean ====
section
/-! DEFINITION. What a host procedure remembers and computes (R112, R121, R124): the contexts' bytes, the host program's
variables, its values and its procedure bodies. The form of host programs is a DESIGN CHOICE (log 11). -/

namespace Sys2Proof.Machine

/-- Indexes at least `low` and strictly rising, and no entry equal to what an index that is not listed reads as. -/
def varsFrom (low : Nat) : List (Nat × Nat) → Bool
  | [] => true
  | e :: rest => decide (low ≤ e.1) && e.2 != 0 && varsFrom (e.1 + 1) rest

/-- The variables keep one canonical form, so that equal memories are equal data. -/
def HostSide.varsOk (h : HostSide) : Bool := varsFrom 0 h.vars

/-- The variable at an index; one not listed holds 0. -/
def readVar (k : Nat) : List (Nat × Nat) → Nat
  | [] => 0
  | e :: rest => if e.1 = k then e.2 else readVar k rest

/-- An entry before the rest, unless its value is 0. -/
def listVar (k v : Nat) (rest : List (Nat × Nat)) : List (Nat × Nat) := if v = 0 then rest else (k, v) :: rest

/-- The variable at an index takes a value. -/
def writeVar (k v : Nat) : List (Nat × Nat) → List (Nat × Nat)
  | [] => listVar k v []
  | e :: rest =>
    if k < e.1 then listVar k v (e :: rest)
    else if k = e.1 then listVar k v rest
    else e :: writeVar k v rest

/-- The host with a variable set. -/
def HostSide.setVar (k v : Nat) (h : HostSide) : HostSide := { h with vars := writeVar k v h.vars }

/-- A procedure's body; a number with no procedure has an empty one. -/
def HostSide.proc (h : HostSide) (n : Nat) : List HostAct := h.procs.getD n []

/-- A context's own byte `b` (log 15). -/
def HostSide.localByte (h : HostSide) : Ctx → Byte
  | .main => h.mainByte
  | .handler => h.handlerByte

/-- `b <- v` in a context. -/
def HostSide.setLocal (c : Ctx) (v : Byte) (h : HostSide) : HostSide :=
  match c with
  | .main => { h with mainByte := v }
  | .handler => { h with handlerByte := v }

/-- The functions of host values. -/
def HostFn.apply (f : HostFn) (x y : Nat) : Nat :=
  match f with
  | .add => x + y
  | .sub => x - y
  | .mul => x * y
  | .div => x / y
  | .mod => x % y
  | .and => x &&& y
  | .or => x ||| y
  | .xor => x ^^^ y
  | .eq => (x == y).toNat
  | .lt => (decide (x < y)).toNat

/-- The value of an expression in a context. -/
def HostSide.eval (c : Ctx) (h : HostSide) : HostExpr → Nat
  | .const n => n
  | .byte => (h.localByte c).toNat
  | .var i => readVar (HostSide.eval c h i) h.vars
  | .app f x y => HostFn.apply f (HostSide.eval c h x) (HostSide.eval c h y)

end Sys2Proof.Machine
end

