-- ==== Sys2Proof/Machine/Driver.lean ====
section
/-! DEFINITION. The host's contract (44_driver_operations.md, R112 to R126; 60_exceptions.md, R130, R135, R136): the
driver's operations, the interrupt handlers, the echo application, and the host's steps. -/

namespace Sys2Proof.Machine

/-- The expansion of a driver operation into bus accesses (R68, R113 to R120). -/
def DriverOp.busOps : DriverOp → List BusOp
  | .init br mod clksel =>
    [.wr .ctl (twoBits clksel true), .wr .brlo (br.extractLsb' 0 8), .wr .brhi (br.extractLsb' 8 8), .wr .mod mod,
     .wr .ie 0x00#8, .wr .ctl (twoBits clksel false)]
  | .setCallbacks _ _ => []
  | .enableInterrupts => [.wr .ie 0x03#8]
  | .disableInterrupts => [.wr .ie 0x00#8]
  | .clearRxInterrupt => [.wr .ip 0x01#8]
  | .clearTxInterrupt => [.wr .ip 0x02#8]
  | .writeByte v => [.wr .data v]
  | .readByte => [.rd .data]

/-- The labels of a driver operation (R68). -/
def DriverOp.labels (op : DriverOp) : List Instr := (DriverOp.busOps op).map BusOp.instr

/-- The host code of a driver operation: `set_callbacks` is one atomic update and no label (R114). -/
def DriverOp.acts (op : DriverOp) : List HostAct :=
  match op with
  | .setCallbacks t r => [.setCallbacks t r]
  | other => (DriverOp.busOps other).map .bus

/-- `init` for one of the two baud selections (R69, R113). -/
def initFor (sel : BaudSel) : DriverOp := .init (selBr sel) (selMod sel) (selClksel sel)

/-- `b <- read_byte(); write_byte(b); led_rx <- led_rx + 1` (R121, R124). -/
def echoBody : List HostAct := [.bus (.rd .data), .write .data .byte, .toggleRx]

/-- The body of a callback procedure; a missing callback is a no-op (R112, R121, R124). -/
def HostSide.callback (h : HostSide) : Option CbRef → List HostAct
  | none => []
  | some .echoRx => echoBody
  | some (.user n) => h.proc n

/-- `rx_isr` (R121): the clear is last, after the read. -/
def rxIsr (echoViaCallback : Bool) : List HostAct :=
  (if echoViaCallback then [] else echoBody) ++ [.callRx, .bus (.wr .ip 0x01#8)]

/-- `tx_isr` (R122): the clear is last, after arming the next write. -/
def txIsr : List HostAct := [.callTx, .bus (.wr .ip 0x02#8)]

/-- The host's timer handler (R125). -/
def timerIsr (periodicByte : Byte) : List HostAct := [.bus (.wr .data periodicByte), .toggleTimer]

/-- The handler of a source (R121, R122, R125). -/
def isrBody (echoViaCallback : Bool) (periodicByte : Byte) : Source → List HostAct
  | .rx => rxIsr echoViaCallback
  | .tx => txIsr
  | .timer => timerIsr periodicByte

/-- The host's vector of a source; the timer's belongs to the board (R135). -/
def Source.vector : Source → Option Nat
  | .rx => some Config.vectorRx
  | .tx => some Config.vectorTx
  | .timer => none

/-- Where a register stands in the host's address map (R139). -/
def hostAddress (reg : Reg) : Nat := Config.uartBase + (Reg.addr reg).toNat

/-- The echo application's main context (R123, R124): `init`, `set_callbacks` if the echo runs in the callback,
`enable_interrupts`, then the low-power wait. What the main context does after the wait is in no source: it ends
(DESIGN CHOICE, log 28). The board's steps before it are no label of the block (log 22). -/
def echoMain (echoViaCallback : Bool) (sel : BaudSel) : List MainAct :=
  ((DriverOp.acts (initFor sel)
      ++ (if echoViaCallback then DriverOp.acts (.setCallbacks none (some .echoRx)) else [])
      ++ DriverOp.acts .enableInterrupts).map MainAct.act) ++ [.wait]

/-- The host with the echo application loaded as its main program. -/
def State.loadEcho (s : State) : State :=
  { s with host := { s.host with mainTodo := echoMain Config.echoViaCallback Config.baudSel } }

/-- The state with the host changed. -/
def State.onHost (f : HostSide → HostSide) (s : State) : State := { s with host := f s.host }

/-- The host issues one bus access; a READ's answer goes to the context's local byte (R120, log 15). -/
def busStep (c : Ctx) (op : BusOp) (s : State) : Host.Outcome State Fault Refusal :=
  match op with
  | .rd reg =>
    andThen (labelStep (BusOp.instr (.rd reg)) s) fun t =>
      .next (t.onHost (HostSide.setLocal c (t.rdata.getD 0)))
  | .wr reg v => labelStep (BusOp.instr (.wr reg v)) s

/-- One step of host code in a context (R112 to R122). The body of a call or a branch is put first by
`HostAct.called`. -/
def HostAct.perform (c : Ctx) (a : HostAct) (s : State) : Host.Outcome State Fault Refusal :=
  match a with
  | .bus op => busStep c op s
  | .write reg e => busStep c (.wr reg (BitVec.ofNat 8 (s.host.eval c e))) s
  | .assign i e => .next (s.onHost fun h => h.setVar (h.eval c i) (h.eval c e))
  | .input i => .next ((s.onHost fun h => h.setVar (h.eval c i) (s.draw 0).toNat).drawn 1)
  | .branch _ _ _ => .next s
  | .setCallbacks t r => .next (s.onHost fun h => { h with txCb := t, rxCb := r })
  | .toggleRx => .next (s.onHost fun h => { h with ledRx := h.ledRx + 1 })
  | .toggleTimer => .next (s.onHost fun h => { h with ledTimer := h.ledTimer + 1 })
  | .callTx => .next s
  | .callRx => .next s

/-- The procedure body a step of host code enters: a registered callback's, at the moment of the call (R121, R122), or
the one a branch chooses. -/
def HostAct.called (c : Ctx) (h : HostSide) : HostAct → List HostAct
  | .bus _ | .write _ _ | .assign _ _ | .input _ | .setCallbacks _ _ | .toggleRx | .toggleTimer => []
  | .branch e p q => h.proc (if h.eval c e = 0 then q else p)
  | .callTx => h.callback h.txCb
  | .callRx => h.callback h.rxCb

/-- Whether a source is pending (R130). -/
def State.pending (s : State) : Source → Bool
  | .rx => s.block.irqRx
  | .tx => s.block.irqTx
  | .timer => decide (0 < s.host.timerPending)

/-- The dispatch step (R130): with no handler running, the host enters the chosen source's handler if that source is
pending; otherwise the turn is passed over (log 3). The turn's choice is IRQ_ORDER (log 13). -/
def dispatchStep (choice : Source) (s : State) : State :=
  if s.host.inHandler = none ∧ s.pending choice = true then
    s.enterHandler choice (isrBody Config.echoViaCallback Config.periodicByte choice)
  else s

/-- The handler returns when its body has ended (R130, R136, log 26). -/
def State.leaveIfDone (s : State) : State :=
  match s.host.handlerTodo with
  | [] => s.leaveHandler
  | _ :: _ => s

/-- A step of the running handler (R130); with no handler running the turn is passed over (log 3). -/
def handlerStep (s : State) : Host.Outcome State Fault Refusal :=
  match s.host.inHandler with
  | none => .next s
  | some _ =>
    match s.host.handlerTodo with
    | [] => .next s.leaveHandler
    | a :: rest =>
      andThen (HostAct.perform .handler a (s.onHost fun h => { h with handlerTodo := HostAct.called .handler s.host a ++ rest }))
        fun t => .next t.leaveIfDone

/-- n steps of the running handler with nothing between them. -/
def runHandler : Nat → State → Host.Outcome State Fault Refusal
  | 0, s => .next s
  | n + 1, s => andThen (handlerStep s) (runHandler n)

/-- A step of the main context, which runs only while no handler does and while it is not in its low-power wait (R130,
R142); otherwise the turn is passed over (log 3). A pending source does not hold it back: R130 says that the dispatch step
"may" enter again at once, so the main context may also go first (DESIGN CHOICE, log 29). -/
def mainStep (s : State) : Host.Outcome State Fault Refusal :=
  if s.host.inHandler = none ∧ s.host.waiting = false then
    match s.host.mainTodo with
    | [] => .next s
    | .wait :: rest => .next (s.onHost fun h => { h with mainTodo := rest, waiting := true })
    | .act a :: rest =>
      HostAct.perform .main a
        (s.onHost fun h => { h with mainTodo := (HostAct.called .main s.host a).map MainAct.act ++ rest })
  else .next s

/-- n steps of the main context with nothing between them. -/
def runMain : Nat → State → Host.Outcome State Fault Refusal
  | 0, s => .next s
  | n + 1, s => andThen (mainStep s) (runMain n)

/-- TIMER_EXPIRY (R125): an event only when the periodic timer is armed. -/
def timerStep (periodicEnable : Bool) (s : State) : State :=
  if periodicEnable then s.onHost fun h => { h with timerPending := h.timerPending + 1 } else s

/-- One turn of an agent (R9, R130). A label turn is not held back by the host's dispatch (R52, R137; DEDUCED,
log 18). -/
def turnStep (t : Turn) (s : State) : Host.Outcome State Fault Refusal :=
  match t with
  | .label w => wordStep w s
  | .timerExpiry => .next (timerStep Config.periodicEnable s)
  | .dispatch choice => .next (dispatchStep choice s)
  | .handler => handlerStep s
  | .main => mainStep s

/-- One step: the next turn is taken; with no turn placed there is no step (R157, log 2). -/
def stepNext (s : State) : Host.Outcome State Fault Refusal :=
  match s.nextTurn? with
  | none => .refused .noTurn
  | some (t, rest) => turnStep t rest

/-- The schedule with one label word as its very next turn. -/
def State.placeWord (w : Word) (s : State) : State := { s with schedule := .label w :: s.schedule }

/-- The driver's lifecycle (R40). -/
inductive Lifecycle where
  | uninitialized | configured | active
  deriving DecidableEq, Repr

/-- The lifecycle's place in the block's state (R40). -/
def Block.lifecycle (b : Block) : Lifecycle :=
  if b.hold then .uninitialized else if b.ieByte = 0x00#8 then .configured else .active

end Sys2Proof.Machine
end

