-- ==== Sys2Proof/Machine/Step.lean ====
section
/-! DEFINITION. One step of the machine, and placing a label word where the next step takes it. -/

namespace Sys2Proof.Machine

/-- One step: the agent whose turn is next acts (R9, R130, log 1). -/
def step (s : State) : Host.Outcome State Fault Refusal := stepNext s

/-- The state with the given label word as its very next turn (log 1). -/
def State.withFetchWord (s : State) (nbits w : Nat) : State :=
  s.placeWord (BitVec.ofNat 16 (tableWord nbits w))

end Sys2Proof.Machine
end

