-- ==== Sys2Proof/Machine/Asm.lean ====
section
/-! DEFINITION. The assembly text of label sequences (R66) and of the pseudo-labels (R67): reading a line, and the labels
it stands for. Details of the text that R66 leaves open are a DESIGN CHOICE (log 24). -/

namespace Sys2Proof.Machine

/-- The register of an assembler operand (R66). -/
def asmReg : AsmReg → Reg
  | .name reg => reg
  | .num n => Reg.ofAddr (BitVec.ofNat 3 n)

/-- The labels of a well-formed line, under the current BR and MOD, which `FRAME` needs (R66, R67). -/
def asmLabels (br : Word) (mod : Byte) (line : AsmLine) : Option (List Instr) :=
  if line.wf then
    some <| match line with
      | .rd reg _ => [Instr.ofRead (asmReg reg)]
      | .wr reg imm => [Instr.ofWrite (asmReg reg) (BitVec.ofNat 8 imm)]
      | .tick r => [.tick (r == 1)]
      | .reset => [.reset]
      | .ticks n r => ticksOf n (r == 1)
      | .idle n => idleTicks n
      | .frame b => (frameLevels br mod (BitVec.ofNat 8 b) Config.frameBits).map Instr.tick
  else none

/-- Put a finished token, collected in reverse, before the rest. -/
def pushToken (cur : List Char) (rest : List (List Char)) : List (List Char) :=
  if cur.isEmpty then rest else cur.reverse :: rest

/-- The tokens of a line: blanks separate, a comma stands alone, `;` begins a comment (R66). -/
def asmTokens (cur : List Char) : List Char → List (List Char)
  | [] => pushToken cur []
  | c :: cs =>
    if c = ';' then pushToken cur []
    else if c = ' ' ∨ c = '\t' then pushToken cur (asmTokens [] cs)
    else if c = ',' then pushToken cur ([c] :: asmTokens [] cs)
    else asmTokens (c :: cur) cs

/-- One digit in base ten or sixteen. -/
def digitValue (base : Nat) (c : Char) : Option Nat :=
  let v :=
    if '0'.toNat ≤ c.toNat ∧ c.toNat ≤ '9'.toNat then c.toNat - '0'.toNat
    else if 'a'.toNat ≤ c.toNat ∧ c.toNat ≤ 'f'.toNat then c.toNat - 'a'.toNat + 10
    else if 'A'.toNat ≤ c.toNat ∧ c.toNat ≤ 'F'.toNat then c.toNat - 'A'.toNat + 10
    else base
  if v < base then some v else none

/-- A run of digits, most significant first. -/
def digitsValue (base acc : Nat) : List Char → Option Nat
  | [] => some acc
  | c :: cs => (digitValue base c).bind fun d => digitsValue base (acc * base + d) cs

/-- A number "written in decimal or with `0x`": R66 says so of `<imm8>`, and the model reads every number of a line so, a
register number, TICK's r, the n of TICK*n and IDLE, FRAME's byte and the expected answer (DESIGN CHOICE, log 24). -/
def asmNumber : List Char → Option Nat
  | [] => none
  | ['0', 'x'] => none
  | '0' :: 'x' :: ds => digitsValue 16 0 ds
  | ds => digitsValue 10 0 ds

/-- A register name (R66). -/
def asmRegName (t : List Char) : Option Reg :=
  if t = "DATA".toList then some .data
  else if t = "CTL".toList then some .ctl
  else if t = "BRLO".toList then some .brlo
  else if t = "BRHI".toList then some .brhi
  else if t = "MOD".toList then some .mod
  else if t = "IE".toList then some .ie
  else if t = "IP".toList then some .ip
  else if t = "RSVD".toList then some .rsvd
  else none

/-- A register operand: a name or a number (R66), the number in either notation (log 24). -/
def asmRegOperand (t : List Char) : Option AsmReg :=
  match asmRegName t with
  | some reg => some (.name reg)
  | none => (asmNumber t).map .num

/-- `RD <reg>`, with an expected answer after `->` or without (R66). -/
def asmRead : List (List Char) → Option AsmLine
  | [reg] => (asmRegOperand reg).map (.rd · none)
  | [reg, arrow, v] =>
    if arrow = "->".toList then
      (asmRegOperand reg).bind fun a => (asmNumber v).map fun n => .rd a (some n)
    else none
  | _ => none

/-- `WR <reg>, <imm8>` (R66). -/
def asmWrite : List (List Char) → Option AsmLine
  | [reg, comma, imm] =>
    if comma = [','] then (asmRegOperand reg).bind fun a => (asmNumber imm).map (.wr a) else none
  | _ => none

/-- One number operand, in either notation (log 24). -/
def asmOne (f : Nat → AsmLine) : List (List Char) → Option AsmLine
  | [t] => (asmNumber t).map f
  | _ => none

/-- A line's first token chooses its form (R66, R67); the n of TICK*n is in either notation (log 24). -/
def asmForm (op : List Char) (args : List (List Char)) : Option AsmLine :=
  if op = "RD".toList then asmRead args
  else if op = "WR".toList then asmWrite args
  else if op = "TICK".toList then asmOne .tick args
  else if op = "RESET".toList then (if args.isEmpty then some .reset else none)
  else if op = "IDLE".toList then asmOne .idle args
  else if op = "FRAME".toList then asmOne .frame args
  else if op.take 5 = "TICK*".toList then (asmNumber (op.drop 5)).bind fun n => asmOne (.ticks n) args
  else none

/-- A line of text: none where it is no line of R66 or R67, `some []` for a blank or comment line. -/
def asmParse (text : List Char) : Option (List AsmLine) :=
  match asmTokens [] text with
  | [] => some []
  | op :: args => (asmForm op args).bind fun line => if line.wf then some [line] else none

end Sys2Proof.Machine
end

