-- ==== Sys2Proof/Safety.lean ====
section
/-! DEFINITION. What counts as a safe run, the events of the block, its invariants, and the host's duties as premises of
claims (R38, R128, R131, R147 to R157). -/

namespace Sys2Proof.Machine

/-- A run whose state has a marker set is a faulted run (R131). -/
def State.faulted (s : State) : Bool := decide (s.block.faults ≠ Faults.empty)

/-- A run ends successfully only if `faults = ∅` and `refused` is clear (R157). -/
def State.successful (s : State) : Bool := !s.faulted && !s.refused

/-- The stuck state: HOLD = 0 and BR < 3, where TICK has no step (R132). -/
def Block.Stuck (b : Block) : Prop := b.hold = false ∧ b.br.toNat < 3

/-- The clock steps the engines: HOLD = 0 and BR ≥ 3 (R94, R159). This is what booting must reach (R147). -/
def Block.Running (b : Block) : Prop := b.hold = false ∧ 3 ≤ b.br.toNat

/-- A write of DATA is legal only when the transmitter is Idle (R119, R149). -/
def Block.WriteLegal (b : Block) : Prop := b.txPhase = .idle

/-- The next delivery loses no byte: the byte before it has been read (R35, R120, R148). -/
def Block.ReadInTime (b : Block) : Prop := b.rxUnread = false

/-- Inside a critical section of the host: both enables are clear (R116, R150). -/
def Block.Critical (b : Block) : Prop := b.rxie = false ∧ b.txie = false

/-- A label that performs HoldEntry(): RESET, or a write of CTL that changes HOLD from 0 to 1 (R144). -/
def Block.HoldEntryBy (b : Block) (i : Instr) : Prop :=
  i = .reset ∨ ∃ d : Byte, i = .wrCtl d ∧ b.hold = false ∧ d[0] = true

/-- A label that performs Release(): a write of CTL that changes HOLD from 1 to 0 (R145). -/
def Block.ReleaseBy (b : Block) (i : Instr) : Prop :=
  ∃ d : Byte, i = .wrCtl d ∧ b.hold = true ∧ d[0] = false

/-- A TICK that ends the stop bit of the transmitter's frame (R97, R98). -/
def Block.FrameEndBy (b : Block) (i : Instr) : Prop :=
  (∃ r, i = .tick r) ∧ b.Running ∧ b.txPhase = .bit ∧ 9 ≤ b.txBit.toNat ∧
    b.bitLen b.txBit.toNat ≤ b.txCnt.toNat + 1

/-- A TICK that samples the stop bit of the receiver's frame and delivers (R101, R104). -/
def Block.DeliveryBy (b : Block) (i : Instr) : Prop :=
  (∃ r, i = .tick r) ∧ b.Running ∧ b.rxPhase = .bit ∧ b.rxBit.toNat = 9 ∧ b.rxCnt.toNat + 1 = b.halfLen 9

/-- The invariants of R38 (a), (b), (c), with what the rules add to them: the stop bit is left at its sample (R101,
R104), a frame in progress has a legal divisor (R94, R86), and nothing is received while held (R94, R144). Clause (d) is
about two states and clause (e) holds of every `Block` by its form. -/
structure Block.Inv (b : Block) : Prop where
  heldIdle : b.hold = true → b.txPhase = .idle ∧ b.rxPhase = .idle ∧ b.rxPrev = true
  txRange : b.txPhase = .bit → b.txBit.toNat ≤ 9 ∧ b.txCnt.toNat < b.bitLen b.txBit.toNat
  rxRange : b.rxPhase = .bit → b.rxBit.toNat ≤ 9 ∧ b.rxCnt.toNat < b.bitLen b.rxBit.toNat
  stopLeft : b.rxPhase = .bit → b.rxBit.toNat = 9 → b.rxCnt.toNat < b.halfLen 9
  legalDivisor : b.txPhase = .bit ∨ b.rxPhase = .bit → 3 ≤ b.br.toNat
  heldQuiet : b.hold = true → b.rxip = false ∧ b.rxUnread = false

/-- The data bits the receiver has sampled in the current frame: bit k is sampled in bit-time k + 1 (R103). -/
def Block.Sampled (b : Block) (k : Nat) : Prop :=
  b.rxPhase = .bit ∧ (k + 1 < b.rxBit.toNat ∨ k + 1 = b.rxBit.toNat ∧ b.halfLen (k + 1) ≤ b.rxCnt.toNat)

end Sys2Proof.Machine
end

