-- ==== Sys2Proof/Certificates/Slice0/Obligations.lean ====
section
/-! DEFINITION. The statements about the UART block and its host contract, for the provers. "R<n>" is the rule of spec/ a
statement formalises. A statement that rests on a rule the spec itself marks as derived or as general knowledge, or on a
choice of the model's log, says so. -/

open Sys2Proof Sys2Proof.Machine

/-! ### Encoding and the step -/

/-- Words written out from R57 and R63 and the worked decodings of R70 (which the spec marks derived). -/
def Obligations.DecodesWorkedWords : Prop :=
  decode 0x0000#16 = .ok .rdData ∧ decode 0x0600#16 = .ok .rdIp ∧ decode 0x40FF#16 = .ok (.wrData 0xFF#8) ∧
  decode 0x4603#16 = .ok (.wrIp 0x03#8) ∧ decode 0x47AB#16 = .ok (.wrRsvd 0xAB#8) ∧
  decode 0x8000#16 = .ok (.tick false) ∧ decode 0x8001#16 = .ok (.tick true) ∧ decode 0xC000#16 = .ok .reset ∧
  decode 0x0601#16 = .error .readReserved ∧ decode 0x4900#16 = .error .writeReserved ∧
  decode 0x8002#16 = .error .tickReserved ∧ decode 0xC001#16 = .error .resetReserved

/-- Encoding a label and decoding the word gives the label back, with every operand value (R57 to R64). -/
def Obligations.DecodeOfEncode : Prop :=
  ∀ i : Instr, i.wf = true → decode (encode i) = .ok i

/-- Each word has at most one meaning, and exactly the words whose must-be-zero bits are zero have one (R62). -/
def Obligations.EncodeOfDecode : Prop :=
  (∀ (w : Word) (i : Instr), decode w = .ok i → encode i = w) ∧
  (∀ w : Word, Word.wf w = true ↔ ∃ i, decode w = .ok i)

/-- The decoder and the opcode map agree on every 16-bit word: a word that decodes is selected by exactly one row, that
of its label, and a refused word by none (R62, R63). -/
def Obligations.DecoderAgreesWithOpcodeMap : Prop :=
  (∀ (w : Word) (i : Instr), decode w = .ok i →
    (opcodeTable.filter (·.selects w)).map (·.mnemonic) = [i.mnemonic]) ∧
  (∀ (w : Word) (e : DecodeError), decode w = .error e → opcodeTable.filter (·.selects w) = [])

/-- When the next turn is a word that decodes to a label, the step is `exec` of that label at the state without the turn,
and then txd is recorded (R157). The schedule of turns is the model's choice (log 1). -/
def Obligations.StepRunsDecodedLabel : Prop :=
  ∀ (s : State) (w : Word) (ts : List Turn) (i : Instr), s.schedule = .label w :: ts → decode w = .ok i →
    (∀ t, exec i { s with schedule := ts } = .next t →
      step s = .next { t with txdLog := t.block.txd :: t.txdLog }) ∧
    (∀ f, exec i { s with schedule := ts } = .fault f → step s = .fault f)

/-- An ill-formed word takes no step of the block and sets `refused` (R62, R133); that the run then goes on is read from
R133 and R143 (log 4). -/
def Obligations.StepMarksIllFormedWord : Prop :=
  ∀ (s : State) (w : Word) (ts : List Turn) (e : DecodeError), s.schedule = .label w :: ts → decode w = .error e →
    step s = .next { s with schedule := ts, refused := true }

/-- The assembler's four forms stand for the words of R66, for a register number and for every operand in range, a register
name stands for its number, and the pseudo-labels stand for the TICKs of R67. -/
def Obligations.AssemblerWords : Prop :=
  ∀ (br : Word) (mod : Byte),
    (∀ (a v r : Nat) (expect : Option Nat), a ≤ 7 → v ≤ 255 → r ≤ 1 → (∀ n, expect = some n → n ≤ 255) →
      (asmLabels br mod (.rd (.num a) expect)).map (·.map encode) = some [BitVec.ofNat 16 (a * 256)] ∧
      (asmLabels br mod (.wr (.num a) v)).map (·.map encode) = some [BitVec.ofNat 16 (0x4000 + a * 256 + v)] ∧
      (asmLabels br mod (.tick r)).map (·.map encode) = some [BitVec.ofNat 16 (0x8000 + r)] ∧
      (asmLabels br mod .reset).map (·.map encode) = some [0xC000#16]) ∧
    (∀ p ∈ [(Reg.data, 0), (.ctl, 1), (.brlo, 2), (.brhi, 3), (.mod, 4), (.ie, 5), (.ip, 6), (.rsvd, 7)],
      ∀ (v : Nat) (expect : Option Nat),
        asmLabels br mod (.rd (.name p.1) expect) = asmLabels br mod (.rd (.num p.2) expect) ∧
        asmLabels br mod (.wr (.name p.1) v) = asmLabels br mod (.wr (.num p.2) v)) ∧
    (∀ n r : Nat, r ≤ 1 → (asmLabels br mod (.ticks n r)).map (·.map encode) =
      some (List.replicate n (BitVec.ofNat 16 (0x8000 + r)))) ∧
    (∀ n : Nat, (asmLabels br mod (.idle n)).map (·.map encode) = some (List.replicate n 0x8001#16)) ∧
    (∀ b : Nat, b ≤ 255 → (asmLabels br mod (.frame b)).map (·.map encode) =
      some ((List.range 10).flatMap fun i => List.replicate (br.toNat + (mod.getLsbD (i % 8)).toNat)
        (BitVec.ofNat 16 (0x8000 + (frameBit (BitVec.ofNat 8 b) i).toNat))))

/-! ### Register access (R71 to R86) -/

/-- RD_CTL, RD_IE and RD_IP answer their two fields and zero in bits 7:2, and change nothing else (R72, R80, R82). -/
def Obligations.ReadsOfFieldRegisters : Prop :=
  encode .rdCtl = 0x0100#16 ∧ encode .rdIe = 0x0500#16 ∧ encode .rdIp = 0x0600#16 ∧
  ∀ s : State,
    (∃ v : Byte, exec .rdCtl s = .next { s with answers := v :: s.answers } ∧
      v[0] = s.block.hold ∧ v[1] = s.block.clksel ∧ ∀ k, 2 ≤ k → v.getLsbD k = false) ∧
    (∃ v : Byte, exec .rdIe s = .next { s with answers := v :: s.answers } ∧
      v[0] = s.block.rxie ∧ v[1] = s.block.txie ∧ ∀ k, 2 ≤ k → v.getLsbD k = false) ∧
    (∃ v : Byte, exec .rdIp s = .next { s with answers := v :: s.answers } ∧
      v[0] = s.block.rxip ∧ v[1] = s.block.txip ∧ ∀ k, 2 ≤ k → v.getLsbD k = false)

/-- RD_BRLO, RD_BRHI, RD_MOD and RD_RSVD answer BR[7:0], BR[15:8], MOD and 0x00, and change nothing else (R74, R76, R78,
R84). -/
def Obligations.ReadsOfByteRegisters : Prop :=
  encode .rdBrlo = 0x0200#16 ∧ encode .rdBrhi = 0x0300#16 ∧ encode .rdMod = 0x0400#16 ∧ encode .rdRsvd = 0x0700#16 ∧
  ∀ s : State,
    exec .rdBrlo s = .next { s with answers := s.block.br.extractLsb' 0 8 :: s.answers } ∧
    exec .rdBrhi s = .next { s with answers := s.block.br.extractLsb' 8 8 :: s.answers } ∧
    exec .rdMod s = .next { s with answers := s.block.mod :: s.answers } ∧
    exec .rdRsvd s = .next { s with answers := 0x00#8 :: s.answers }

/-- WR_BRLO, WR_BRHI and WR_MOD store their byte while HOLD = 1 and do nothing while HOLD = 0; nothing else changes
(R75, R77, R79). -/
def Obligations.ConfigWritesOnlyInHold : Prop :=
  ∀ (d : Byte) (s : State),
    encode (.wrBrlo d) = 0x42#8 ++ d ∧ encode (.wrBrhi d) = 0x43#8 ++ d ∧ encode (.wrMod d) = 0x44#8 ++ d ∧
    exec (.wrBrlo d) s = .next (if s.block.hold then { s with block := { s.block with brlo := d } } else s) ∧
    exec (.wrBrhi d) s = .next (if s.block.hold then { s with block := { s.block with brhi := d } } else s) ∧
    exec (.wrMod d) s = .next (if s.block.hold then { s with block := { s.block with mod := d } } else s)

/-- WR_CTL: the clock source only from hold, hold entry on 0 to 1, release on 1 to 0 with the divisor check, and nothing
else (R73, R145; hold entry's values by R144). -/
def Obligations.WriteCtlCases : Prop :=
  ∀ (d : Byte) (s : State),
    encode (.wrCtl d) = 0x41#8 ++ d ∧
    (s.block.hold = true → d[0] = true →
      exec (.wrCtl d) s = .next { s with block := { s.block with clksel := d[1] } }) ∧
    (s.block.hold = true → d[0] = false → 3 ≤ s.block.br.toNat →
      exec (.wrCtl d) s = .next { s with block := { s.block with clksel := d[1], hold := false } }) ∧
    (s.block.hold = true → d[0] = false → s.block.br.toNat < 3 →
      exec (.wrCtl d) s = .next { s with block := { s.block with
        clksel := d[1], hold := false, faults := { s.block.faults with illegalDivisor := true } } }) ∧
    (s.block.hold = false → d[0] = false → exec (.wrCtl d) s = .next s) ∧
    (s.block.hold = false → d[0] = true →
      exec (.wrCtl d) s = .next { s with block := { s.block with
        hold := true, txPhase := .idle, txBit := 0, txCnt := 0, rxPhase := .idle, rxBit := 0, rxCnt := 0
        rxPrev := true, rxUnread := false, rxip := false, txip := true } })

/-- WR_IE sets the two enables and changes nothing else; the lines follow at once (R81). -/
def Obligations.WriteIeSetsEnables : Prop :=
  ∀ (d : Byte) (s : State), encode (.wrIe d) = 0x45#8 ++ d ∧ ∃ t,
    exec (.wrIe d) s = .next t ∧ t = { s with block := { s.block with rxie := d[0], txie := d[1] } } ∧
    t.block.irqRx = (d[0] && s.block.rxip) ∧ t.block.irqTx = (d[1] && s.block.txip)

/-- WR_IP clears the flags whose bit is written 1, sets none, and changes nothing else (R83). -/
def Obligations.WriteIpClearsFlags : Prop :=
  ∀ (d : Byte) (s : State),
    encode (.wrIp d) = 0x46#8 ++ d ∧
    exec (.wrIp d) s = .next { s with block := { s.block with
      rxip := if d[0] then false else s.block.rxip, txip := if d[1] then false else s.block.txip } }

/-- WR_RSVD changes nothing (R85). -/
def Obligations.WriteRsvdDoesNothing : Prop :=
  ∀ (d : Byte) (s : State), encode (.wrRsvd d) = 0x47#8 ++ d ∧ exec (.wrRsvd d) s = .next s

/-- A reserved bit of CTL, IE or IP ignores what is written to it and reads as zero, and every byte value may be written to
every address (R50). -/
def Obligations.ReservedBitsReadZeroIgnoreWrites : Prop :=
  (∀ (d e : Byte) (s : State), d[0] = e[0] → d[1] = e[1] →
    exec (.wrCtl d) s = exec (.wrCtl e) s ∧ exec (.wrIe d) s = exec (.wrIe e) s ∧
    exec (.wrIp d) s = exec (.wrIp e) s) ∧
  (∀ (reg : Reg) (s : State), reg = .ctl ∨ reg = .ie ∨ reg = .ip → ∃ t v, exec (Instr.ofRead reg) s = .next t ∧
    t.answers = v :: s.answers ∧ ∀ k, 2 ≤ k → v.getLsbD k = false) ∧
  (∀ (reg : Reg) (d : Byte) (s : State), ∃ t, exec (Instr.ofWrite reg d) s = .next t)

/-- Configuration is fixed while the block runs: through any labels without a RESET and without a WR_CTL whose bit 0 is
1, HOLD stays 0 and CLKSEL, BR and MOD keep their values (R86, which the spec marks derived). -/
def Obligations.ConfigurationFixedWhileRunning : Prop :=
  ∀ (is : List Instr) (s t : State), s.block.hold = false →
    (∀ i ∈ is, i ≠ .reset ∧ ∀ d : Byte, i = .wrCtl d → d[0] = false) → runLabels is s = .next t →
    t.block.hold = false ∧ t.block.clksel = s.block.clksel ∧ t.block.br = s.block.br ∧ t.block.mod = s.block.mod

/-- Each register is written only by its labels: IE by WR_IE and RESET, TXBUF by WR_DATA and RESET, RXBUF by a delivery,
CTL by WR_CTL and RESET, BR and MOD by their writes and RESET, IP by WR_IP, hold entry and its two events. -/
def Obligations.RegistersWrittenOnlyByTheirLabels : Prop :=
  ∀ (i : Instr) (s t : State), exec i s = .next t → i ≠ .reset →
    ((∀ d, i ≠ .wrIe d) → t.block.rxie = s.block.rxie ∧ t.block.txie = s.block.txie) ∧
    ((∀ d, i ≠ .wrData d) → t.block.txbuf = s.block.txbuf) ∧
    ((∀ d, i ≠ .wrCtl d) → t.block.hold = s.block.hold ∧ t.block.clksel = s.block.clksel) ∧
    ((∀ d, i ≠ .wrBrlo d) → t.block.brlo = s.block.brlo) ∧
    ((∀ d, i ≠ .wrBrhi d) → t.block.brhi = s.block.brhi) ∧
    ((∀ d, i ≠ .wrMod d) → t.block.mod = s.block.mod) ∧
    (¬ s.block.DeliveryBy i → t.block.rxbuf = s.block.rxbuf) ∧
    ((∀ d, i ≠ .wrIp d) → ¬ s.block.HoldEntryBy i → ¬ s.block.DeliveryBy i → t.block.rxip = s.block.rxip) ∧
    ((∀ d, i ≠ .wrIp d) → ¬ s.block.HoldEntryBy i → ¬ s.block.FrameEndBy i → t.block.txip = s.block.txip)

/-- A label touches the block, the READ answers and the free-value counter only, and only a READ answers. That RESET
leaves the host alone is read from R143 by inference (log 23). -/
def Obligations.LabelsLeaveTheRestAlone : Prop :=
  ∀ (i : Instr) (s t : State), exec i s = .next t →
    t.host = s.host ∧ t.schedule = s.schedule ∧ t.refused = s.refused ∧ t.txdLog = s.txdLog ∧
    (t.answers = s.answers ∨ ∃ reg v, i = Instr.ofRead reg ∧ t.answers = v :: s.answers) ∧
    (∀ reg, i = Instr.ofRead reg → ∃ v, t.answers = v :: s.answers)

/-! ### Data path (R87 to R90) -/

/-- WR_DATA: ignored while held, accepted while the transmitter is Idle, and while it is busy the slot is overwritten with
the phase kept and the marker set; nothing else changes. While bit-time k is on the line, txd shows the new byte's bit at
once (R88). -/
def Obligations.WriteDataCases : Prop :=
  ∀ (d : Byte) (s : State),
    encode (.wrData d) = 0x40#8 ++ d ∧
    (s.block.hold = true → exec (.wrData d) s = .next s) ∧
    (s.block.hold = false → s.block.txPhase = .idle →
      exec (.wrData d) s = .next { s with block := { s.block with txbuf := d, txPhase := .wait } }) ∧
    (s.block.hold = false → s.block.txPhase ≠ .idle → ∃ t,
      exec (.wrData d) s = .next t ∧
      t = { s with block := { s.block with
        txbuf := d, faults := { s.block.faults with txWriteWhileBusy := true } } } ∧
      (s.block.txPhase = .bit → ∀ k, 1 ≤ k → k ≤ 8 → s.block.txBit.toNat = k → t.block.txd = d.getLsbD (k - 1)) ∧
      (s.block.txPhase = .bit → s.block.txBit.toNat = 9 → t.block.txd = s.block.txd))

/-- RD_DATA answers RXBUF, or any byte before the first delivery, clears rx_unread and changes nothing else but the
model's counter of free values (R89). -/
def Obligations.ReadDataAnswersRxbuf : Prop :=
  encode .rdData = 0x0000#16 ∧
  ∀ s : State,
    (∀ v, s.block.rxbuf = some v →
      exec .rdData s = .next { s with answers := v :: s.answers, block := { s.block with rxUnread := false } }) ∧
    (s.block.rxbuf = none → ∃ (v : Byte) (n : Nat),
      exec .rdData s =
        .next { s with answers := v :: s.answers, draws := n, block := { s.block with rxUnread := false } })

/-! ### TICK (R91 to R111) -/

/-- Bit-time lengths: L(i) = BR + MOD[i mod 8], H(i) = floor(L(i) / 2), S(i) their running sum, and
N_F = S(10) = 10 * BR + popcount(MOD) + MOD[0] + MOD[1] (R92). -/
def Obligations.BitTimeLengths : Prop :=
  ∀ b : Block,
    (∀ i, b.bitLen i = b.br.toNat + (b.mod.getLsbD (i % 8)).toNat) ∧
    (∀ i, b.halfLen i = b.bitLen i / 2) ∧
    b.startLen 0 = 0 ∧ (∀ i, b.startLen (i + 1) = b.startLen i + b.bitLen i) ∧
    b.frameLen = b.startLen 10 ∧
    b.frameLen = 10 * b.br.toNat + ((List.range 8).map fun j => (b.mod.getLsbD j).toNat).sum +
      b.mod[0].toNat + b.mod[1].toNat

/-- The sampling margin and the integer widths (R107, R111, which the spec marks derived): with BR ≥ 3 a sample lies
strictly inside its bit-time even one TICK late; L(i) ≤ 65536 and N_F ≤ 655 360. -/
def Obligations.SamplingMarginAndWidths : Prop :=
  ∀ (b : Block) (i : Nat),
    (3 ≤ b.br.toNat → 1 ≤ b.halfLen i ∧ b.halfLen i < b.bitLen i ∧ b.halfLen i + 1 < b.bitLen i) ∧
    b.bitLen i ≤ 65536 ∧ b.frameLen ≤ 655360

/-- TICK: with HOLD = 1 nothing; with HOLD = 0 and BR < 3 no step; else TxTick and RxTick, both reading the state before
the TICK and writing disjoint state, in either order, and rx_prev takes r; nothing outside the block changes (R94). -/
def Obligations.TickRunsBothEngines : Prop :=
  ∀ (r : Bool) (s : State),
    encode (.tick r) = 0x8000#16 ||| (BitVec.ofBool r).zeroExtend 16 ∧
    (s.block.hold = true → exec (.tick r) s = .next s) ∧
    (s.block.Stuck → ∀ t, exec (.tick r) s ≠ .next t) ∧
    (s.block.Running → ∃ t : State,
      exec (.tick r) s = .next { s with block := t.block } ∧
      t.block = { (s.block.txTick).rxTick r with rxPrev := r } ∧
      t.block = { (s.block.rxTick r).txTick with rxPrev := r } ∧
      t.block = { s.block.rxTick r with
        txPhase := s.block.txTick.txPhase, txBit := s.block.txTick.txBit, txCnt := s.block.txTick.txCnt
        txip := s.block.txTick.txip, rxPrev := r })

/-- The transmitter's TICK, phase by phase: Idle stays, Wait begins the start bit, Bit counts to L(tx_bit), moves to the
next bit-time, and ends the frame after bit-time 9 with TXIP set (R96, R97, R98). -/
def Obligations.TransmitterTick : Prop :=
  ∀ (r : Bool) (s : State), s.block.Running → ∃ t, exec (.tick r) s = .next t ∧
    (s.block.txPhase = .idle → t.block.txPhase = .idle ∧ t.block.txBit = s.block.txBit ∧
      t.block.txCnt = s.block.txCnt ∧ t.block.txip = s.block.txip) ∧
    (s.block.txPhase = .wait → t.block.txPhase = .bit ∧ t.block.txBit = 0 ∧ t.block.txCnt = 0 ∧
      t.block.txip = s.block.txip) ∧
    (s.block.txPhase = .bit → s.block.txCnt.toNat + 1 < s.block.bitLen s.block.txBit.toNat →
      t.block.txPhase = .bit ∧ t.block.txBit = s.block.txBit ∧ t.block.txCnt.toNat = s.block.txCnt.toNat + 1 ∧
      t.block.txip = s.block.txip) ∧
    (s.block.txPhase = .bit → s.block.bitLen s.block.txBit.toNat ≤ s.block.txCnt.toNat + 1 →
      s.block.txBit.toNat < 9 →
      t.block.txPhase = .bit ∧ t.block.txBit.toNat = s.block.txBit.toNat + 1 ∧ t.block.txCnt = 0 ∧
      t.block.txip = s.block.txip) ∧
    (s.block.txPhase = .bit → s.block.bitLen s.block.txBit.toNat ≤ s.block.txCnt.toNat + 1 →
      9 ≤ s.block.txBit.toNat →
      t.block.txPhase = .idle ∧ t.block.txBit = s.block.txBit ∧ t.block.txCnt = s.block.txCnt ∧ t.block.txip = true)

/-- The receiver's TICK outside a sample: in Idle a 1-to-0 edge starts a frame and nothing else does (R100); in Bit, in
states that keep the invariants, the count runs to L(rx_bit) and then the next bit-time begins (R101: its counting). No byte is delivered, no flag or marker changes, and rx_shift keeps its value. -/
def Obligations.ReceiverTickCounts : Prop :=
  ∀ (r : Bool) (s : State), s.block.Running → (s.block.rxPhase = .bit → s.block.Inv) →
    ¬ (s.block.rxPhase = .bit ∧ s.block.rxCnt.toNat + 1 = s.block.halfLen s.block.rxBit.toNat) →
    ∃ t, exec (.tick r) s = .next t ∧
      t.block.rxbuf = s.block.rxbuf ∧ t.block.rxip = s.block.rxip ∧ t.block.rxUnread = s.block.rxUnread ∧
      t.block.rxShift = s.block.rxShift ∧ t.block.faults = s.block.faults ∧
      (s.block.rxPhase = .idle → s.block.rxPrev = true → r = false →
        t.block.rxPhase = .bit ∧ t.block.rxBit = 0 ∧ t.block.rxCnt = 0) ∧
      (s.block.rxPhase = .idle → s.block.rxPrev = false ∨ r = true → t.block.rxPhase = .idle ∧
        t.block.rxBit = s.block.rxBit ∧ t.block.rxCnt = s.block.rxCnt) ∧
      (s.block.rxPhase = .bit → s.block.rxCnt.toNat + 1 = s.block.bitLen s.block.rxBit.toNat →
        t.block.rxPhase = .bit ∧ t.block.rxBit.toNat = s.block.rxBit.toNat + 1 ∧ t.block.rxCnt = 0) ∧
      (s.block.rxPhase = .bit → s.block.rxCnt.toNat + 1 ≠ s.block.bitLen s.block.rxBit.toNat →
        t.block.rxPhase = .bit ∧ t.block.rxBit = s.block.rxBit ∧ t.block.rxCnt.toNat = s.block.rxCnt.toNat + 1)

/-- The receiver's samples: a start bit sampled 1 is a false start, data bit k goes to
rx_shift[k - 1], and the stop sample delivers whatever its value, the new byte replacing an unread one with RxOverrun set
(R102, R103, R104, R105). -/
def Obligations.ReceiverSamples : Prop :=
  ∀ (r : Bool) (s : State), s.block.Running → s.block.rxPhase = .bit →
    s.block.rxCnt.toNat + 1 = s.block.halfLen s.block.rxBit.toNat →
    ∃ t, exec (.tick r) s = .next t ∧
      t.block.rxBit = s.block.rxBit ∧ t.block.rxCnt.toNat = s.block.rxCnt.toNat + 1 ∧
      (s.block.rxBit.toNat = 0 →
        t.block.rxPhase = (if r then .idle else .bit) ∧ t.block.rxShift = s.block.rxShift ∧
        t.block.rxbuf = s.block.rxbuf ∧ t.block.rxip = s.block.rxip ∧ t.block.rxUnread = s.block.rxUnread ∧
        t.block.faults = s.block.faults) ∧
      (∀ k, 1 ≤ k → k ≤ 8 → s.block.rxBit.toNat = k →
        t.block.rxPhase = .bit ∧ t.block.rxShift.getLsbD (k - 1) = r ∧
        (∀ j, j < 8 → j ≠ k - 1 → t.block.rxShift.getLsbD j = s.block.rxShift.getLsbD j) ∧
        t.block.rxbuf = s.block.rxbuf ∧ t.block.rxip = s.block.rxip ∧ t.block.rxUnread = s.block.rxUnread ∧
        t.block.faults = s.block.faults) ∧
      (s.block.rxBit.toNat = 9 →
        t.block.rxbuf = some s.block.rxShift ∧ t.block.rxip = true ∧ t.block.rxUnread = true ∧
        t.block.rxPhase = .idle ∧ t.block.rxShift = s.block.rxShift ∧
        t.block.faults =
          { s.block.faults with rxOverrun := s.block.faults.rxOverrun || s.block.rxUnread })

/-- The frame of TICK: it changes nothing outside the two engines and rx_prev (R94). -/
def Obligations.TickFrame : Prop :=
  ∀ (r : Bool) (s t : State), exec (.tick r) s = .next t →
    t.block.hold = s.block.hold ∧ t.block.clksel = s.block.clksel ∧ t.block.brlo = s.block.brlo ∧
    t.block.brhi = s.block.brhi ∧ t.block.mod = s.block.mod ∧ t.block.rxie = s.block.rxie ∧
    t.block.txie = s.block.txie ∧ t.block.txbuf = s.block.txbuf ∧ t.answers = s.answers ∧ t.draws = s.draws ∧
    t.block.faults.txWriteWhileBusy = s.block.faults.txWriteWhileBusy ∧
    t.block.faults.illegalDivisor = s.block.faults.illegalDivisor

/-- A line that stays 0 starts nothing: from Idle with rx_prev = 0, no number of TICKs with r = 0 starts a frame or
delivers a byte (R100). -/
def Obligations.StuckLowLineStartsNothing : Prop :=
  ∀ (n : Nat) (s : State), s.block.Running → s.block.rxPhase = .idle → s.block.rxPrev = false →
    ∃ t, runTicks (List.replicate n false) s = .next t ∧ t.block.rxPhase = .idle ∧ t.block.rxPrev = false ∧
      t.block.rxbuf = s.block.rxbuf ∧ t.block.rxip = s.block.rxip

/-- Transmit timing (R99, which the spec marks derived; levels and bit order by R93): after a WR_DATA of v accepted with the
transmitter Idle, and whatever the receive line does, txd after TICK t is f(v, i) for 1 + S(i) ≤ t ≤ S(i + 1), TXIP is set
by TICK 1 + N_F and not before, and after it the line is 1 and the transmitter Idle. The same holds of a WR_DATA that
overwrites a byte still in phase Wait: the frame carries only the new byte (R88 (a)). -/
def Obligations.TransmitTiming : Prop :=
  ∀ (v : Byte) (rs : List Bool) (s : State), s.block.Running → s.block.txPhase ≠ .bit →
    ∃ t, runLabels (.wrData v :: rs.map Instr.tick) s = .next t ∧
      (rs.length = 0 → t.block.txPhase = .wait ∧ t.block.txd = true) ∧
      (∀ i, i ≤ 9 → 1 + s.block.startLen i ≤ rs.length → rs.length ≤ s.block.startLen (i + 1) →
        t.block.txd = frameBit v i) ∧
      (rs.length ≤ s.block.frameLen → t.block.txip = s.block.txip) ∧
      (1 + s.block.frameLen ≤ rs.length → t.block.txip = true ∧ t.block.txPhase = .idle ∧ t.block.txd = true)

/-- A write while a frame is on the line (R88 (b), (c); levels and bit order by R93): in bit-time k with c TICKs spent, the
rest of the frame, from this write on, shows the new byte's bits in the same bit-times; the frame ends when it would have,
not before its N_F TICKs are over and with TXIP set and the line idle then, and no second frame follows. -/
def Obligations.OverwrittenFrameGoesOn : Prop :=
  ∀ (v : Byte) (rs : List Bool) (s : State), s.block.Running → s.block.txPhase = .bit → s.block.txBit.toNat ≤ 9 →
    s.block.txCnt.toNat < s.block.bitLen s.block.txBit.toNat →
    ∃ t, runLabels (.wrData v :: rs.map Instr.tick) s = .next t ∧ t.block.faults.txWriteWhileBusy = true ∧
      (∀ i, i ≤ 9 →
        s.block.startLen i ≤ s.block.startLen s.block.txBit.toNat + s.block.txCnt.toNat + rs.length →
        s.block.startLen s.block.txBit.toNat + s.block.txCnt.toNat + rs.length < s.block.startLen (i + 1) →
        t.block.txd = frameBit v i) ∧
      (s.block.startLen s.block.txBit.toNat + s.block.txCnt.toNat + rs.length < s.block.frameLen →
        t.block.txip = s.block.txip ∧ t.block.txPhase = .bit) ∧
      (s.block.frameLen ≤ s.block.startLen s.block.txBit.toNat + s.block.txCnt.toNat + rs.length →
        t.block.txip = true ∧ t.block.txPhase = .idle ∧ t.block.txd = true)

/-- Receive timing (R106, which the spec marks derived): the pseudo-label FRAME v, begun with the receiver Idle and
rx_prev = 1, delivers v at frame TICK S(9) + H(9), counted from 0, and not before. -/
def Obligations.FrameDeliversItsByte : Prop :=
  ∀ (v : Byte) (n : Nat) (s : State), s.block.Running → s.block.rxPhase = .idle → s.block.rxPrev = true →
    ∃ t, runTicks ((s.block.frameTicks v).take n) s = .next t ∧
      (n ≤ s.block.startLen 9 + s.block.halfLen 9 →
        t.block.rxbuf = s.block.rxbuf ∧ t.block.rxip = s.block.rxip ∧ t.block.rxUnread = s.block.rxUnread) ∧
      (s.block.startLen 9 + s.block.halfLen 9 < n →
        t.block.rxbuf = some v ∧ t.block.rxip = true ∧ t.block.rxUnread = true ∧ t.block.rxPhase = .idle ∧
        t.block.faults.rxOverrun = (s.block.faults.rxOverrun || s.block.rxUnread))

/-- Loopback (R108, R90, which the spec marks derived): with rxd tied to txd, a byte written while both engines are idle
is delivered into RXBUF unchanged at TICK 2 + S(9) + H(9) and not before, and TXIP rises at TICK 1 + N_F, strictly
later. -/
def Obligations.LoopbackRoundTrip : Prop :=
  ∀ (v : Byte) (n : Nat) (s : State), s.block.Running → s.block.txPhase = .idle → s.block.rxPhase = .idle →
    s.block.rxPrev = true →
    2 + s.block.startLen 9 + s.block.halfLen 9 < 1 + s.block.frameLen ∧
    ∃ u t, labelStep (.wrData v) s = .next u ∧ runLoopback n u = .next t ∧
      (n < 2 + s.block.startLen 9 + s.block.halfLen 9 → t.block.rxbuf = s.block.rxbuf) ∧
      (2 + s.block.startLen 9 + s.block.halfLen 9 ≤ n → t.block.rxbuf = some v ∧ t.block.txbuf = v) ∧
      (n < 1 + s.block.frameLen → t.block.txip = s.block.txip) ∧
      (1 + s.block.frameLen ≤ n → t.block.txip = true)

/-- The receive deadline (R148, which the spec marks derived): from a receiver that is Idle, as after a delivery, no byte is
delivered in the next S(9) + H(9) TICKs, whatever the line does. -/
def Obligations.ReceiveDeadline : Prop :=
  ∀ (rs : List Bool) (s : State), s.block.Running → s.block.rxPhase = .idle →
    rs.length ≤ s.block.startLen 9 + s.block.halfLen 9 →
    ∃ t, runTicks rs s = .next t ∧ t.block.rxbuf = s.block.rxbuf ∧ t.block.rxip = s.block.rxip ∧
      t.block.rxUnread = s.block.rxUnread ∧ t.block.faults = s.block.faults

/-- The reference procedure (R110, which the spec marks derived): the whole-number form (log 27) equals the exact rational
one, BR = floor(F / B), E(k) = floor(k * q + 1/2) with q = F / B - BR, and MOD[j] = E(j + 1) - E(j). -/
def Obligations.ReferenceProcedureIsExact : Prop :=
  ∀ f target : Nat, 0 < target →
    (refDivisor f target : Int) = ((f : Rat) / (target : Rat)).floor ∧
    (∀ k, (refEdge f target k : Int) = exactEdge f target k) ∧
    ∀ j, j < 8 → (((refMod f target).getLsbD j).toNat : Int) = exactEdge f target (j + 1) - exactEdge f target j

/-- The two baud selections: their divisors, modulations and `init` words, and an error within 1 % (R69, R109, R110). -/
def Obligations.BaudSelections : Prop :=
  selBr .baud115200 = 41#16 ∧ selMod .baud115200 = 0x6D#8 ∧ selBr .baud9600 = 3#16 ∧ selMod .baud9600 = 0x4A#8 ∧
  (DriverOp.labels (initFor .baud115200)).map encode =
    [0x4101#16, 0x4229#16, 0x4300#16, 0x446D#16, 0x4500#16, 0x4100#16] ∧
  (DriverOp.labels (initFor .baud9600)).map encode =
    [0x4103#16, 0x4203#16, 0x4300#16, 0x444A#16, 0x4500#16, 0x4102#16] ∧
  withinTolerance 4800000 115200 41#16 0x6D#8 ∧ withinTolerance 32768 9600 3#16 0x4A#8

/-! ### Reset, hold and faults -/

/-- RESET from any state gives the values of R39 and keeps RXBUF and the markers (R143); TXBUF and rx_shift take free
values (R39; DEDUCED, log 8), and the counter of free values moves on. That the host is kept is read from R143 by
inference (log 23). -/
def Obligations.ResetValues : Prop :=
  encode .reset = 0xC000#16 ∧
  ∀ s : State, ∃ (tb sh : Byte) (n : Nat),
    exec .reset s = .next { s with
      draws := n
      block :=
        { txbuf := tb, rxbuf := s.block.rxbuf, hold := true, clksel := false, brlo := 0x00#8, brhi := 0x00#8
          mod := 0x00#8, rxie := false, txie := false, rxip := false, txip := true
          txPhase := .idle, txBit := 0, txCnt := 0, rxPhase := .idle, rxBit := 0, rxCnt := 0
          rxShift := sh, rxPrev := true, rxUnread := false, faults := s.block.faults } }

/-- Power-on (R146): the state RESET gives, but for the values only power-on sets (RXBUF none, no marker) and for TXBUF and
rx_shift, which the spec leaves unspecified; `refused` clear, IE = 0x00, both lines low, txd 1. -/
def Obligations.PowerOnIsReset : Prop :=
  (∀ s t : State, exec .reset s = .next t →
    State.reset.block = { t.block with
      rxbuf := none, faults := Faults.empty
      txbuf := State.reset.block.txbuf, rxShift := State.reset.block.rxShift }) ∧
  State.reset.block.rxbuf = none ∧ State.reset.block.faults = Faults.empty ∧ State.reset.refused = false ∧
  State.reset.block.ieByte = 0x00#8 ∧ State.reset.block.irqRx = false ∧ State.reset.block.irqTx = false ∧
  State.reset.block.txd = true

/-- The invariants of R38 (a) to (c), with the clauses the rules add (`Block.Inv`), hold at power-on. -/
def Obligations.InvariantsAtReset : Prop := State.reset.block.Inv

/-- Every step of every agent keeps the invariants of R38 (which the spec marks derived), from every state that has
them. -/
def Obligations.InvariantsKeptByEveryStep : Prop :=
  ∀ s t : State, s.block.Inv → step s = .next t → t.block.Inv

/-- Only a TICK in the stuck state stops, and no label is refused: register accesses and RESET step in every state (R71,
R132, R143). -/
def Obligations.OnlyStuckTickStops : Prop :=
  ∀ (i : Instr) (s : State),
    ((∃ f, exec i s = .fault f) ↔ (∃ r, i = .tick r) ∧ s.block.Stuck) ∧ (∀ r, exec i s ≠ .refused r)

/-- The stuck state ends only by a hold entry, and is begun only by a release that raises IllegalDivisor (R132). -/
def Obligations.StuckOnlyByIllegalRelease : Prop :=
  ∀ (i : Instr) (s t : State), exec i s = .next t →
    (¬ s.block.Stuck → t.block.Stuck → s.block.ReleaseBy i ∧ t.block.faults.illegalDivisor = true) ∧
    (s.block.Stuck → (¬ t.block.Stuck ↔ s.block.HoldEntryBy i))

/-- A marker, once set, is never cleared by a step of any agent, and neither is the refused mark (R36, R133). -/
def Obligations.MarkersAreSticky : Prop :=
  ∀ s t : State, step s = .next t →
    (∀ c, s.block.faults.has c = true → t.block.faults.has c = true) ∧ (s.refused = true → t.refused = true)

/-- Each marker is raised by exactly its cause, so a single label raises at most one (R131, R134). -/
def Obligations.MarkerCauses : Prop :=
  ∀ (i : Instr) (s t : State), exec i s = .next t →
    (t.block.faults.has .txWriteWhileBusy = true ↔ s.block.faults.has .txWriteWhileBusy = true ∨
      (∃ d, i = .wrData d) ∧ s.block.hold = false ∧ s.block.txPhase ≠ .idle) ∧
    (t.block.faults.has .rxOverrun = true ↔ s.block.faults.has .rxOverrun = true ∨
      s.block.DeliveryBy i ∧ s.block.rxUnread = true) ∧
    (t.block.faults.has .illegalDivisor = true ↔ s.block.faults.has .illegalDivisor = true ∨
      s.block.ReleaseBy i ∧ s.block.br.toNat < 3) ∧
    (∀ c c', t.block.faults.has c = true → s.block.faults.has c = false →
      t.block.faults.has c' = true → s.block.faults.has c' = false → c = c')

/-- RXIP is set exactly by a delivery and cleared exactly by WR_IP with data[0] = 1 and by hold entry; TXIP is set exactly
by the end of a frame and by hold entry, and cleared exactly by WR_IP with data[1] = 1; whatever IE is (R27). Each drives
its level line through its enable, at once (R127), and has its handler (R128). -/
def Obligations.FlagEvents : Prop :=
  ∀ (i : Instr) (s t : State), exec i s = .next t →
    (t.block.rxip = true ↔ s.block.DeliveryBy i ∨ s.block.rxip = true ∧ ¬ s.block.HoldEntryBy i ∧
      ¬ ∃ d : Byte, i = .wrIp d ∧ d[0] = true) ∧
    (t.block.txip = true ↔ s.block.FrameEndBy i ∨ s.block.HoldEntryBy i ∨ s.block.txip = true ∧
      ¬ ∃ d : Byte, i = .wrIp d ∧ d[1] = true) ∧
    (t.block.irqRx = true ↔ t.block.rxie = true ∧ t.block.rxip = true) ∧
    (t.block.irqTx = true ↔ t.block.txie = true ∧ t.block.txip = true) ∧
    (∀ (via : Bool) (v : Byte), isrBody via v .rx = rxIsr via ∧ isrBody via v .tx = txIsr)

/-- A flag that is set latches until it is cleared, RXIP by WR_IP or by hold entry and TXIP by WR_IP alone, and asserts its
line at once when its enable is written 1 (R129, R81). -/
def Obligations.FlagsLatchAndAreServiceable : Prop :=
  ∀ (is : List Instr) (d : Byte) (s t : State), runLabels is s = .next t →
    ((∀ i ∈ is, i ≠ .reset ∧ (∀ e : Byte, i = .wrCtl e → e[0] = false) ∧ (∀ e : Byte, i = .wrIp e → e[0] = false)) →
      s.block.hold = false → s.block.rxip = true →
      t.block.rxip = true ∧ (d[0] = true → ∃ u, exec (.wrIe d) t = .next u ∧ u.block.irqRx = true)) ∧
    ((∀ i ∈ is, ∀ e : Byte, i = .wrIp e → e[1] = false) → s.block.txip = true →
      t.block.txip = true ∧ (d[1] = true → ∃ u, exec (.wrIe d) t = .next u ∧ u.block.irqTx = true))

/-- After `disable_interrupts()` neither line is asserted, and it stays so through any labels that do not write IE, RESET
among them (R116, R127). -/
def Obligations.DisabledInterruptsStayLow : Prop :=
  ∀ (is : List Instr) (s t : State), (∀ i ∈ is, ∀ d, i ≠ .wrIe d) →
    runLabels (DriverOp.labels .disableInterrupts ++ is) s = .next t →
    t.block.irqRx = false ∧ t.block.irqTx = false

/-- The windows of the two orders of read and clear around a delivery (R152, which the spec marks derived): "read,
delivery, clear" loses the interrupt but keeps the byte; "clear, delivery, read" loses the unread byte with RxOverrun set,
and RXIP stays set. -/
def Obligations.ReceiveClearWindows : Prop :=
  ∀ (r : Bool) (s : State), s.block.DeliveryBy (.tick r) →
    (∃ t, runLabels [.rdData, .tick r, .wrIp 0x01#8] s = .next t ∧ t.block.rxbuf = some s.block.rxShift ∧
      t.block.rxip = false ∧ t.block.rxUnread = true ∧ t.block.faults.rxOverrun = s.block.faults.rxOverrun) ∧
    (s.block.rxUnread = true → ∃ t, runLabels [.wrIp 0x01#8, .tick r, .rdData] s = .next t ∧
      t.answers = s.block.rxShift :: s.answers ∧ t.block.rxip = true ∧ t.block.rxUnread = false ∧
      t.block.faults.rxOverrun = true)

/-! ### Noninterference -/

/-- No hardware output depends on the markers or on rx_unread (R34, R36, R131): two states that differ only in them take
the same steps, whatever agent acts, to states that differ only in them; so txd, the lines and the READ answers agree. -/
def Obligations.MarkersChangeNoOutput : Prop :=
  ∀ (s : State) (f : Faults) (u : Bool),
    (∀ t, step s = .next t → ∃ (f' : Faults) (u' : Bool),
      step { s with block := { s.block with faults := f, rxUnread := u } } =
        .next { t with block := { t.block with faults := f', rxUnread := u' } }) ∧
    (∀ e, step s = .fault e → step { s with block := { s.block with faults := f, rxUnread := u } } = .fault e) ∧
    (∀ e, step s = .refused e → step { s with block := { s.block with faults := f, rxUnread := u } } = .refused e)

/-- TXBUF is not observable while the transmitter is Idle (R17): two states that differ only in TXBUF with the transmitter
Idle run every label alike, and differ after it at most in TXBUF, and not at all once the transmitter is busy. -/
def Obligations.IdleTxbufIsUnseen : Prop :=
  ∀ (i : Instr) (s t : State) (v : Byte), s.block.txPhase = .idle → exec i s = .next t →
    ∃ v', exec i { s with block := { s.block with txbuf := v } } =
        .next { t with block := { t.block with txbuf := v' } } ∧
      (t.block.txPhase ≠ .idle → v' = t.block.txbuf) ∧
      { t.block with txbuf := v' }.txd = t.block.txd

/-- rx_shift is not observable beyond the bits already sampled in the current frame (R32, R103): two states that differ
only in bits of rx_shift not yet sampled run every label alike, deliver the same bytes, and differ after it only in bits not
yet sampled. -/
def Obligations.UnsampledShiftBitsAreUnseen : Prop :=
  ∀ (i : Instr) (s t : State) (v : Byte), s.block.Inv →
    (∀ k, k < 8 → s.block.Sampled k → v.getLsbD k = s.block.rxShift.getLsbD k) → exec i s = .next t →
    ∃ v', exec i { s with block := { s.block with rxShift := v } } =
        .next { t with block := { t.block with rxShift := v' } } ∧
      ∀ k, k < 8 → t.block.Sampled k → v'.getLsbD k = t.block.rxShift.getLsbD k

/-! ### The host's contract -/

/-- `init(BRv, MODv, CLKSELv)` from any state of HOLD configures the block, leaves interrupts disabled, releases HOLD, and
records IllegalDivisor exactly when BRv < 3; from HOLD = 1 with RXIP = 0 and TXIP = 1, as after RESET, IP is 0x02 (R113). -/
def Obligations.InitConfiguresTheBlock : Prop :=
  ∀ (br : Word) (mod : Byte) (clksel : Bool) (s : State), ∃ t,
    runLabels (DriverOp.labels (.init br mod clksel)) s = .next t ∧
    t.block.hold = false ∧ t.block.clksel = clksel ∧ t.block.br = br ∧ t.block.mod = mod ∧
    t.block.ieByte = 0x00#8 ∧ t.block.irqRx = false ∧ t.block.irqTx = false ∧
    t.block.faults.illegalDivisor = (s.block.faults.illegalDivisor || decide (br.toNat < 3)) ∧
    (s.block.hold = true → t.block.ipByte = s.block.ipByte) ∧
    (s.block.hold = false → t.block.ipByte = 0x02#8)

/-- The driver's single-label operations are the words of R68. -/
def Obligations.DriverWords : Prop :=
  (DriverOp.labels .enableInterrupts).map encode = [0x4503#16] ∧
  (DriverOp.labels .disableInterrupts).map encode = [0x4500#16] ∧
  (DriverOp.labels .clearRxInterrupt).map encode = [0x4601#16] ∧
  (DriverOp.labels .clearTxInterrupt).map encode = [0x4602#16] ∧
  (DriverOp.labels .readByte).map encode = [0x0000#16] ∧
  (∀ b : Byte, (DriverOp.labels (.writeByte b)).map encode = [0x40#8 ++ b]) ∧
  (∀ t r, DriverOp.labels (.setCallbacks t r) = [])

/-- Dispatch (R130, R134, R135): with no handler running, the host may enter the handler of any pending source, whichever
it chooses; entry changes nothing in the block. With a handler running neither another handler nor the main context gets a
step (R136). That entry into any handler ends the low-power wait is read from R123 and R142 by inference (log 16), and that
a turn whose agent cannot act is passed over is the model's choice (log 3). -/
def Obligations.DispatchWithoutNesting : Prop :=
  ∀ (s : State) (ts : List Turn) (c : Source),
    (s.schedule = .dispatch c :: ts → s.host.inHandler = none → s.pending c = true → ∃ t, step s = .next t ∧
      t.block = s.block ∧ t.host.inHandler = some c ∧ t.host.waiting = false ∧
      t.host.handlerTodo = isrBody Config.echoViaCallback Config.periodicByte c ∧
      t.host.mainTodo = s.host.mainTodo) ∧
    (s.schedule = .dispatch c :: ts → s.host.inHandler ≠ none → step s = .next { s with schedule := ts }) ∧
    (s.schedule = .main :: ts → s.host.inHandler ≠ none → step s = .next { s with schedule := ts })

/-- One rx ISR of the echo application, in either mode (R121, R124, R126 (a)): its labels are exactly RD DATA, WR DATA
of the byte read, WR IP 0x01, in that order; one toggle of the status indicator; then the handler returns. The count of
turns, the byte kept in the host and the return with the last act's turn are the model's choice (logs 11, 15, 26). -/
def Obligations.RxIsrEchoesOnce : Prop :=
  ∀ (viaCallback : Bool) (v : Byte) (s : State),
    s.host.inHandler = some .rx → s.host.handlerTodo = rxIsr viaCallback → s.block.rxbuf = some v →
    s.host.rxCb = (if viaCallback then some .echoRx else none) →
    ∃ u t, runLabels [.rdData, .wrData v, .wrIp 0x01#8] s = .next u ∧ runHandler 5 s = .next t ∧
      t = { u with host := { s.host with
        inHandler := none, handlerTodo := [], handlerByte := v, ledRx := s.host.ledRx + 1 } }

/-- A missing callback is a no-op (R121, R122): the tx ISR without a tx callback is exactly WR IP 0x02, and the rx ISR
in callback mode without an rx callback exactly WR IP 0x01. The count of turns and the return with the last act's turn
are the model's choice (logs 11, 26). -/
def Obligations.MissingCallbacksAreNoOps : Prop :=
  ∀ s : State,
    (s.host.inHandler = some .tx → s.host.handlerTodo = txIsr → s.host.txCb = none →
      ∃ u t, runLabels [.wrIp 0x02#8] s = .next u ∧ runHandler 2 s = .next t ∧
        t = { u with host := { s.host with inHandler := none, handlerTodo := [] } }) ∧
    (s.host.inHandler = some .rx → s.host.handlerTodo = rxIsr true → s.host.rxCb = none →
      ∃ u t, runLabels [.wrIp 0x01#8] s = .next u ∧ runHandler 2 s = .next t ∧
        t = { u with host := { s.host with inHandler := none, handlerTodo := [] } })

/-- The periodic timer's handler (R125): its labels are exactly WR DATA of the fixed byte, with one toggle of its own
indicator; the timer's expiry is an event only when the timer is armed. The count of turns, that pending expiries are
counted and the return with the last act's turn are the model's choice (logs 11, 12, 26). -/
def Obligations.TimerHandlerWritesOnce : Prop :=
  ∀ (v : Byte) (s : State),
    (s.host.inHandler = some .timer → s.host.handlerTodo = timerIsr v →
      ∃ u t, runLabels [.wrData v] s = .next u ∧ runHandler 2 s = .next t ∧
        t = { u with host := { s.host with
          inHandler := none, handlerTodo := [], ledTimer := s.host.ledTimer + 1 } }) ∧
    timerStep true s = { s with host := { s.host with timerPending := s.host.timerPending + 1 } } ∧
    timerStep false s = s

/-- The echo application's startup (R123, R147): its labels are those of `init` for the selection and then of
`enable_interrupts()`, the callback is set before the enable, and the main context then waits. The count of turns, one
for each act, is the model's choice (log 11), and so is that nothing is left of the main program once the wait has
begun, since R123 is silent on what follows it (log 28). -/
def Obligations.EchoStartupOrder : Prop :=
  ∀ (viaCallback : Bool) (sel : BaudSel) (s : State),
    s.host.inHandler = none → s.host.waiting = false → s.host.mainTodo = echoMain viaCallback sel →
    ∃ u t, runLabels (DriverOp.labels (initFor sel) ++ DriverOp.labels .enableInterrupts) s = .next u ∧
      runMain (if viaCallback then 9 else 8) s = .next t ∧
      t = { u with host := { s.host with
        mainTodo := [], waiting := true
        txCb := if viaCallback then none else s.host.txCb
        rxCb := if viaCallback then some .echoRx else s.host.rxCb } } ∧
      t.block.lifecycle = .active ∧
      ∃ w, runMain (if viaCallback then 7 else 6) s = .next w ∧ w.block.lifecycle = .configured ∧
        w.host.txCb = t.host.txCb ∧ w.host.rxCb = t.host.rxCb

/-- `set_callbacks` replaces both references at once; after two calls only the second pair is called (R114). -/
def Obligations.SetCallbacksReplacesThePair : Prop :=
  ∀ (c : Ctx) (t1 r1 t2 r2 : Option CbRef) (s : State), ∃ u v,
    HostAct.perform c (.setCallbacks t1 r1) s = .next u ∧ HostAct.perform c (.setCallbacks t2 r2) u = .next v ∧
    v.block = s.block ∧ v.answers = s.answers ∧ v.host.txCb = t2 ∧ v.host.rxCb = r2 ∧
    HostAct.called c v.host .callTx = s.host.callback t2 ∧ HostAct.called c v.host .callRx = s.host.callback r2

/-- A turn of the handler, of the main context, of dispatch or of the timer never stops: register accesses are enabled in
every state (R71), and a turn whose agent cannot act is passed over, which is the model's choice (log 3). -/
def Obligations.HostTurnsNeverStop : Prop :=
  ∀ (s : State) (t : Turn) (ts : List Turn), s.schedule = t :: ts → (∀ w, t ≠ .label w) → ∃ u, step s = .next u

/-- A callback may be any procedure (R112), in the model's form of host programs (log 11): a registered one runs its body
before the clear (R121, R122), and in a handler it may use the byte it read, branch on a computed value, write one, and
remember one. -/
def Obligations.HostProceduresComputeOnTheByteRead : Prop :=
  ∀ (s : State) (src : Source) (rest : List HostAct), s.host.inHandler = some src → rest ≠ [] →
    (∀ n, s.host.handlerTodo = txIsr → s.host.txCb = some (.user n) → handlerStep s =
      .next { s with host := { s.host with handlerTodo := s.host.proc n ++ [.bus (.wr .ip 0x02#8)] } }) ∧
    (∀ n, s.host.handlerTodo = rxIsr true → s.host.rxCb = some (.user n) → handlerStep s =
      .next { s with host := { s.host with handlerTodo := s.host.proc n ++ [.bus (.wr .ip 0x01#8)] } }) ∧
    (s.host.handlerTodo = .bus (.rd .data) :: rest → ∃ u v, labelStep .rdData s = .next u ∧
      u.answers = v :: s.answers ∧ handlerStep s =
        .next { u with host := { s.host with handlerTodo := rest, handlerByte := v } }) ∧
    (∀ e p q, s.host.handlerTodo = .branch e p q :: rest → handlerStep s = .next { s with host := { s.host with
      handlerTodo := s.host.proc (if s.host.eval .handler e = 0 then q else p) ++ rest } }) ∧
    (∀ reg e, s.host.handlerTodo = .write reg e :: rest → ∃ u,
      labelStep (Instr.ofWrite reg (BitVec.ofNat 8 (s.host.eval .handler e))) s = .next u ∧
      handlerStep s = .next { u with host := { s.host with handlerTodo := rest } }) ∧
    (∀ i e, s.host.handlerTodo = .assign i e :: rest → s.host.varsOk = true → ∃ t, handlerStep s = .next t ∧
      t.block = s.block ∧ t.host.handlerTodo = rest ∧ t.host.varsOk = true ∧
      ∀ k, readVar k t.host.vars =
        if k = s.host.eval .handler i then s.host.eval .handler e else readVar k s.host.vars)
end

