-- ==== Sys2Proof/Laws/Bits.lean ====
section
/-! SUPPORT. A label word as its high and its low byte, and what the opcode table's rows and the must-be-zero checks say
of the two halves (R57, R63). -/

namespace Sys2Proof

theorem append_toNat (hi lo : Byte) : (hi ++ lo : Word).toNat = hi.toNat * 256 + lo.toNat := by
  rw [BitVec.toNat_append, ← Nat.shiftLeft_add_eq_or_of_lt lo.isLt, Nat.shiftLeft_eq]

/-- A word is its two bytes. -/
theorem split_append (w : Word) : w = w.extractLsb' 8 8 ++ w.extractLsb' 0 8 := by
  apply BitVec.eq_of_toNat_eq
  rw [append_toNat]
  simp only [BitVec.extractLsb'_toNat, Nat.shiftRight_eq_div_pow]
  omega

theorem append_inj (a b c d : Byte) : (a ++ b : Word) = c ++ d ↔ a = c ∧ b = d := by
  rw [← BitVec.toNat_inj, ← BitVec.toNat_inj, ← BitVec.toNat_inj, append_toNat, append_toNat]
  omega

/-- A field of the high byte. -/
theorem extract_high (hi lo : Byte) (k n : Nat) :
    (hi ++ lo : Word).extractLsb' (8 + k) n = hi.extractLsb' k n := by
  apply BitVec.eq_of_toNat_eq
  simp only [BitVec.extractLsb'_toNat, append_toNat, Nat.shiftRight_eq_div_pow, Nat.pow_add]
  rw [← Nat.div_div_eq_div_mul]
  congr 2
  omega

/-- The low byte. -/
theorem extract_low (hi lo : Byte) : (hi ++ lo : Word).extractLsb' 0 8 = lo := by
  apply BitVec.eq_of_toNat_eq
  simp only [BitVec.extractLsb'_toNat, append_toNat, Nat.shiftRight_eq_div_pow]
  omega

/-- A row selects a word by its two halves (R63). -/
theorem selects_append (row : OpcodeRow) (hi lo : Byte) :
    row.selects (hi ++ lo) = (hi &&& row.mask.extractLsb' 8 8 == row.pattern.extractLsb' 8 8 &&
      lo &&& row.mask.extractLsb' 0 8 == row.pattern.extractLsb' 0 8) := by
  rw [Bool.eq_iff_iff, OpcodeRow.selects]
  simp only [beq_iff_eq, Bool.and_eq_true]
  rw [← append_inj, ← BitVec.and_append, ← split_append, ← split_append]

/-- A word of kind WRITE with zero reserved bits is well formed whatever its low byte (R59). -/
theorem wf_write (hi lo : Byte) (hk : hi.extractLsb' 6 2 = 0b01#2) (hz : hi.extractLsb' 3 3 = 0#3) :
    Word.wf (hi ++ lo) = true := by
  have h1 := extract_high hi lo 6 2
  have h2 := extract_high hi lo 3 3
  rw [hk] at h1
  rw [hz] at h2
  simp only [Nat.reduceAdd] at h1 h2
  simp [Word.wf, Word.writeZeros, h1, h2]

end Sys2Proof
end

