-- ==== Sys2Proof/Laws/State.lean ====
section
/-! SUPPORT. One lemma per field per update, true by unfolding, so that no proof unfolds a record update. -/

namespace Sys2Proof.Machine

@[simp] theorem State.onBlock_block (f : Block → Block) (s : State) : (s.onBlock f).block = f s.block := rfl
@[simp] theorem State.onBlock_refused (f : Block → Block) (s : State) : (s.onBlock f).refused = s.refused := rfl
@[simp] theorem State.onBlock_answers (f : Block → Block) (s : State) : (s.onBlock f).answers = s.answers := rfl
@[simp] theorem State.onBlock_txdLog (f : Block → Block) (s : State) : (s.onBlock f).txdLog = s.txdLog := rfl
@[simp] theorem State.onBlock_draws (f : Block → Block) (s : State) : (s.onBlock f).draws = s.draws := rfl
@[simp] theorem State.onBlock_schedule (f : Block → Block) (s : State) : (s.onBlock f).schedule = s.schedule := rfl
@[simp] theorem State.onBlock_host (f : Block → Block) (s : State) : (s.onBlock f).host = s.host := rfl

@[simp] theorem State.answer_block (v : Byte) (s : State) : (s.answer v).block = s.block := rfl
@[simp] theorem State.answer_refused (v : Byte) (s : State) : (s.answer v).refused = s.refused := rfl
@[simp] theorem State.answer_answers (v : Byte) (s : State) : (s.answer v).answers = v :: s.answers := rfl
@[simp] theorem State.answer_txdLog (v : Byte) (s : State) : (s.answer v).txdLog = s.txdLog := rfl
@[simp] theorem State.answer_draws (v : Byte) (s : State) : (s.answer v).draws = s.draws := rfl
@[simp] theorem State.answer_schedule (v : Byte) (s : State) : (s.answer v).schedule = s.schedule := rfl
@[simp] theorem State.answer_host (v : Byte) (s : State) : (s.answer v).host = s.host := rfl

@[simp] theorem State.drawn_block (n : Nat) (s : State) : (s.drawn n).block = s.block := rfl
@[simp] theorem State.drawn_refused (n : Nat) (s : State) : (s.drawn n).refused = s.refused := rfl
@[simp] theorem State.drawn_answers (n : Nat) (s : State) : (s.drawn n).answers = s.answers := rfl
@[simp] theorem State.drawn_txdLog (n : Nat) (s : State) : (s.drawn n).txdLog = s.txdLog := rfl
@[simp] theorem State.drawn_draws (n : Nat) (s : State) : (s.drawn n).draws = s.draws + n := rfl
@[simp] theorem State.drawn_schedule (n : Nat) (s : State) : (s.drawn n).schedule = s.schedule := rfl
@[simp] theorem State.drawn_host (n : Nat) (s : State) : (s.drawn n).host = s.host := rfl

@[simp] theorem State.onHost_block (f : HostSide → HostSide) (s : State) : (s.onHost f).block = s.block := rfl
@[simp] theorem State.onHost_refused (f : HostSide → HostSide) (s : State) : (s.onHost f).refused = s.refused := rfl
@[simp] theorem State.onHost_answers (f : HostSide → HostSide) (s : State) : (s.onHost f).answers = s.answers := rfl
@[simp] theorem State.onHost_txdLog (f : HostSide → HostSide) (s : State) : (s.onHost f).txdLog = s.txdLog := rfl
@[simp] theorem State.onHost_draws (f : HostSide → HostSide) (s : State) : (s.onHost f).draws = s.draws := rfl
@[simp] theorem State.onHost_schedule (f : HostSide → HostSide) (s : State) : (s.onHost f).schedule = s.schedule := rfl
@[simp] theorem State.onHost_host (f : HostSide → HostSide) (s : State) : (s.onHost f).host = f s.host := rfl

@[simp] theorem State.logTxd_block (s : State) : (s.logTxd).block = s.block := rfl
@[simp] theorem State.logTxd_refused (s : State) : (s.logTxd).refused = s.refused := rfl
@[simp] theorem State.logTxd_answers (s : State) : (s.logTxd).answers = s.answers := rfl
@[simp] theorem State.logTxd_txdLog (s : State) : (s.logTxd).txdLog = s.block.txd :: s.txdLog := rfl
@[simp] theorem State.logTxd_draws (s : State) : (s.logTxd).draws = s.draws := rfl
@[simp] theorem State.logTxd_schedule (s : State) : (s.logTxd).schedule = s.schedule := rfl
@[simp] theorem State.logTxd_host (s : State) : (s.logTxd).host = s.host := rfl

@[simp] theorem State.placeWord_block (w : Word) (s : State) : (s.placeWord w).block = s.block := rfl
@[simp] theorem State.placeWord_refused (w : Word) (s : State) : (s.placeWord w).refused = s.refused := rfl
@[simp] theorem State.placeWord_answers (w : Word) (s : State) : (s.placeWord w).answers = s.answers := rfl
@[simp] theorem State.placeWord_txdLog (w : Word) (s : State) : (s.placeWord w).txdLog = s.txdLog := rfl
@[simp] theorem State.placeWord_draws (w : Word) (s : State) : (s.placeWord w).draws = s.draws := rfl
@[simp] theorem State.placeWord_schedule (w : Word) (s : State) : (s.placeWord w).schedule = .label w :: s.schedule := rfl
@[simp] theorem State.placeWord_host (w : Word) (s : State) : (s.placeWord w).host = s.host := rfl

@[simp] theorem State.enterHandler_block (src : Source) (body : List HostAct) (s : State) : (s.enterHandler src body).block = s.block := rfl
@[simp] theorem State.enterHandler_refused (src : Source) (body : List HostAct) (s : State) : (s.enterHandler src body).refused = s.refused := rfl
@[simp] theorem State.enterHandler_answers (src : Source) (body : List HostAct) (s : State) : (s.enterHandler src body).answers = s.answers := rfl
@[simp] theorem State.enterHandler_txdLog (src : Source) (body : List HostAct) (s : State) : (s.enterHandler src body).txdLog = s.txdLog := rfl
@[simp] theorem State.enterHandler_draws (src : Source) (body : List HostAct) (s : State) : (s.enterHandler src body).draws = s.draws := rfl
@[simp] theorem State.enterHandler_schedule (src : Source) (body : List HostAct) (s : State) : (s.enterHandler src body).schedule = s.schedule := rfl
@[simp] theorem State.enterHandler_host_txCb (src : Source) (body : List HostAct) (s : State) :
    (s.enterHandler src body).host.txCb = s.host.txCb := rfl
@[simp] theorem State.enterHandler_host_rxCb (src : Source) (body : List HostAct) (s : State) :
    (s.enterHandler src body).host.rxCb = s.host.rxCb := rfl
@[simp] theorem State.enterHandler_host_procs (src : Source) (body : List HostAct) (s : State) :
    (s.enterHandler src body).host.procs = s.host.procs := rfl
@[simp] theorem State.enterHandler_host_vars (src : Source) (body : List HostAct) (s : State) :
    (s.enterHandler src body).host.vars = s.host.vars := rfl
@[simp] theorem State.enterHandler_host_ledRx (src : Source) (body : List HostAct) (s : State) :
    (s.enterHandler src body).host.ledRx = s.host.ledRx := rfl
@[simp] theorem State.enterHandler_host_ledTimer (src : Source) (body : List HostAct) (s : State) :
    (s.enterHandler src body).host.ledTimer = s.host.ledTimer := rfl
@[simp] theorem State.enterHandler_host_inHandler (src : Source) (body : List HostAct) (s : State) :
    (s.enterHandler src body).host.inHandler = some src := rfl
@[simp] theorem State.enterHandler_host_handlerTodo (src : Source) (body : List HostAct) (s : State) :
    (s.enterHandler src body).host.handlerTodo = body := rfl
@[simp] theorem State.enterHandler_host_mainTodo (src : Source) (body : List HostAct) (s : State) :
    (s.enterHandler src body).host.mainTodo = s.host.mainTodo := rfl
@[simp] theorem State.enterHandler_host_handlerByte (src : Source) (body : List HostAct) (s : State) :
    (s.enterHandler src body).host.handlerByte = s.host.handlerByte := rfl
@[simp] theorem State.enterHandler_host_mainByte (src : Source) (body : List HostAct) (s : State) :
    (s.enterHandler src body).host.mainByte = s.host.mainByte := rfl
@[simp] theorem State.enterHandler_host_timerPending (src : Source) (body : List HostAct) (s : State) :
    (s.enterHandler src body).host.timerPending = (if src = .timer then s.host.timerPending - 1 else s.host.timerPending) := rfl
@[simp] theorem State.enterHandler_host_waiting (src : Source) (body : List HostAct) (s : State) :
    (s.enterHandler src body).host.waiting = false := rfl

@[simp] theorem State.leaveHandler_block (s : State) : (s.leaveHandler).block = s.block := rfl
@[simp] theorem State.leaveHandler_refused (s : State) : (s.leaveHandler).refused = s.refused := rfl
@[simp] theorem State.leaveHandler_answers (s : State) : (s.leaveHandler).answers = s.answers := rfl
@[simp] theorem State.leaveHandler_txdLog (s : State) : (s.leaveHandler).txdLog = s.txdLog := rfl
@[simp] theorem State.leaveHandler_draws (s : State) : (s.leaveHandler).draws = s.draws := rfl
@[simp] theorem State.leaveHandler_schedule (s : State) : (s.leaveHandler).schedule = s.schedule := rfl
@[simp] theorem State.leaveHandler_host_txCb (s : State) :
    (s.leaveHandler).host.txCb = s.host.txCb := rfl
@[simp] theorem State.leaveHandler_host_rxCb (s : State) :
    (s.leaveHandler).host.rxCb = s.host.rxCb := rfl
@[simp] theorem State.leaveHandler_host_procs (s : State) :
    (s.leaveHandler).host.procs = s.host.procs := rfl
@[simp] theorem State.leaveHandler_host_vars (s : State) :
    (s.leaveHandler).host.vars = s.host.vars := rfl
@[simp] theorem State.leaveHandler_host_ledRx (s : State) :
    (s.leaveHandler).host.ledRx = s.host.ledRx := rfl
@[simp] theorem State.leaveHandler_host_ledTimer (s : State) :
    (s.leaveHandler).host.ledTimer = s.host.ledTimer := rfl
@[simp] theorem State.leaveHandler_host_inHandler (s : State) :
    (s.leaveHandler).host.inHandler = none := rfl
@[simp] theorem State.leaveHandler_host_handlerTodo (s : State) :
    (s.leaveHandler).host.handlerTodo = [] := rfl
@[simp] theorem State.leaveHandler_host_mainTodo (s : State) :
    (s.leaveHandler).host.mainTodo = s.host.mainTodo := rfl
@[simp] theorem State.leaveHandler_host_handlerByte (s : State) :
    (s.leaveHandler).host.handlerByte = s.host.handlerByte := rfl
@[simp] theorem State.leaveHandler_host_mainByte (s : State) :
    (s.leaveHandler).host.mainByte = s.host.mainByte := rfl
@[simp] theorem State.leaveHandler_host_timerPending (s : State) :
    (s.leaveHandler).host.timerPending = s.host.timerPending := rfl
@[simp] theorem State.leaveHandler_host_waiting (s : State) :
    (s.leaveHandler).host.waiting = s.host.waiting := rfl

@[simp] theorem Block.raise_txbuf (c : FaultCode) (b : Block) : (b.raise c).txbuf = b.txbuf := rfl
@[simp] theorem Block.raise_rxbuf (c : FaultCode) (b : Block) : (b.raise c).rxbuf = b.rxbuf := rfl
@[simp] theorem Block.raise_hold (c : FaultCode) (b : Block) : (b.raise c).hold = b.hold := rfl
@[simp] theorem Block.raise_clksel (c : FaultCode) (b : Block) : (b.raise c).clksel = b.clksel := rfl
@[simp] theorem Block.raise_brlo (c : FaultCode) (b : Block) : (b.raise c).brlo = b.brlo := rfl
@[simp] theorem Block.raise_brhi (c : FaultCode) (b : Block) : (b.raise c).brhi = b.brhi := rfl
@[simp] theorem Block.raise_mod (c : FaultCode) (b : Block) : (b.raise c).mod = b.mod := rfl
@[simp] theorem Block.raise_rxie (c : FaultCode) (b : Block) : (b.raise c).rxie = b.rxie := rfl
@[simp] theorem Block.raise_txie (c : FaultCode) (b : Block) : (b.raise c).txie = b.txie := rfl
@[simp] theorem Block.raise_rxip (c : FaultCode) (b : Block) : (b.raise c).rxip = b.rxip := rfl
@[simp] theorem Block.raise_txip (c : FaultCode) (b : Block) : (b.raise c).txip = b.txip := rfl
@[simp] theorem Block.raise_txPhase (c : FaultCode) (b : Block) : (b.raise c).txPhase = b.txPhase := rfl
@[simp] theorem Block.raise_txBit (c : FaultCode) (b : Block) : (b.raise c).txBit = b.txBit := rfl
@[simp] theorem Block.raise_txCnt (c : FaultCode) (b : Block) : (b.raise c).txCnt = b.txCnt := rfl
@[simp] theorem Block.raise_rxPhase (c : FaultCode) (b : Block) : (b.raise c).rxPhase = b.rxPhase := rfl
@[simp] theorem Block.raise_rxBit (c : FaultCode) (b : Block) : (b.raise c).rxBit = b.rxBit := rfl
@[simp] theorem Block.raise_rxCnt (c : FaultCode) (b : Block) : (b.raise c).rxCnt = b.rxCnt := rfl
@[simp] theorem Block.raise_rxShift (c : FaultCode) (b : Block) : (b.raise c).rxShift = b.rxShift := rfl
@[simp] theorem Block.raise_rxPrev (c : FaultCode) (b : Block) : (b.raise c).rxPrev = b.rxPrev := rfl
@[simp] theorem Block.raise_rxUnread (c : FaultCode) (b : Block) : (b.raise c).rxUnread = b.rxUnread := rfl
@[simp] theorem Block.raise_faults (c : FaultCode) (b : Block) : (b.raise c).faults = b.faults.mark c := rfl

@[simp] theorem Block.clearFlags_txbuf (d : Byte) (b : Block) : (b.clearFlags d).txbuf = b.txbuf := rfl
@[simp] theorem Block.clearFlags_rxbuf (d : Byte) (b : Block) : (b.clearFlags d).rxbuf = b.rxbuf := rfl
@[simp] theorem Block.clearFlags_hold (d : Byte) (b : Block) : (b.clearFlags d).hold = b.hold := rfl
@[simp] theorem Block.clearFlags_clksel (d : Byte) (b : Block) : (b.clearFlags d).clksel = b.clksel := rfl
@[simp] theorem Block.clearFlags_brlo (d : Byte) (b : Block) : (b.clearFlags d).brlo = b.brlo := rfl
@[simp] theorem Block.clearFlags_brhi (d : Byte) (b : Block) : (b.clearFlags d).brhi = b.brhi := rfl
@[simp] theorem Block.clearFlags_mod (d : Byte) (b : Block) : (b.clearFlags d).mod = b.mod := rfl
@[simp] theorem Block.clearFlags_rxie (d : Byte) (b : Block) : (b.clearFlags d).rxie = b.rxie := rfl
@[simp] theorem Block.clearFlags_txie (d : Byte) (b : Block) : (b.clearFlags d).txie = b.txie := rfl
@[simp] theorem Block.clearFlags_rxip (d : Byte) (b : Block) : (b.clearFlags d).rxip = (b.rxip && !d[0]) := rfl
@[simp] theorem Block.clearFlags_txip (d : Byte) (b : Block) : (b.clearFlags d).txip = (b.txip && !d[1]) := rfl
@[simp] theorem Block.clearFlags_txPhase (d : Byte) (b : Block) : (b.clearFlags d).txPhase = b.txPhase := rfl
@[simp] theorem Block.clearFlags_txBit (d : Byte) (b : Block) : (b.clearFlags d).txBit = b.txBit := rfl
@[simp] theorem Block.clearFlags_txCnt (d : Byte) (b : Block) : (b.clearFlags d).txCnt = b.txCnt := rfl
@[simp] theorem Block.clearFlags_rxPhase (d : Byte) (b : Block) : (b.clearFlags d).rxPhase = b.rxPhase := rfl
@[simp] theorem Block.clearFlags_rxBit (d : Byte) (b : Block) : (b.clearFlags d).rxBit = b.rxBit := rfl
@[simp] theorem Block.clearFlags_rxCnt (d : Byte) (b : Block) : (b.clearFlags d).rxCnt = b.rxCnt := rfl
@[simp] theorem Block.clearFlags_rxShift (d : Byte) (b : Block) : (b.clearFlags d).rxShift = b.rxShift := rfl
@[simp] theorem Block.clearFlags_rxPrev (d : Byte) (b : Block) : (b.clearFlags d).rxPrev = b.rxPrev := rfl
@[simp] theorem Block.clearFlags_rxUnread (d : Byte) (b : Block) : (b.clearFlags d).rxUnread = b.rxUnread := rfl
@[simp] theorem Block.clearFlags_faults (d : Byte) (b : Block) : (b.clearFlags d).faults = b.faults := rfl

@[simp] theorem Block.holdEntry_txbuf (b : Block) : (b.holdEntry).txbuf = b.txbuf := rfl
@[simp] theorem Block.holdEntry_rxbuf (b : Block) : (b.holdEntry).rxbuf = b.rxbuf := rfl
@[simp] theorem Block.holdEntry_hold (b : Block) : (b.holdEntry).hold = b.hold := rfl
@[simp] theorem Block.holdEntry_clksel (b : Block) : (b.holdEntry).clksel = b.clksel := rfl
@[simp] theorem Block.holdEntry_brlo (b : Block) : (b.holdEntry).brlo = b.brlo := rfl
@[simp] theorem Block.holdEntry_brhi (b : Block) : (b.holdEntry).brhi = b.brhi := rfl
@[simp] theorem Block.holdEntry_mod (b : Block) : (b.holdEntry).mod = b.mod := rfl
@[simp] theorem Block.holdEntry_rxie (b : Block) : (b.holdEntry).rxie = b.rxie := rfl
@[simp] theorem Block.holdEntry_txie (b : Block) : (b.holdEntry).txie = b.txie := rfl
@[simp] theorem Block.holdEntry_rxip (b : Block) : (b.holdEntry).rxip = false := rfl
@[simp] theorem Block.holdEntry_txip (b : Block) : (b.holdEntry).txip = true := rfl
@[simp] theorem Block.holdEntry_txPhase (b : Block) : (b.holdEntry).txPhase = .idle := rfl
@[simp] theorem Block.holdEntry_txBit (b : Block) : (b.holdEntry).txBit = 0 := rfl
@[simp] theorem Block.holdEntry_txCnt (b : Block) : (b.holdEntry).txCnt = 0 := rfl
@[simp] theorem Block.holdEntry_rxPhase (b : Block) : (b.holdEntry).rxPhase = .idle := rfl
@[simp] theorem Block.holdEntry_rxBit (b : Block) : (b.holdEntry).rxBit = 0 := rfl
@[simp] theorem Block.holdEntry_rxCnt (b : Block) : (b.holdEntry).rxCnt = 0 := rfl
@[simp] theorem Block.holdEntry_rxShift (b : Block) : (b.holdEntry).rxShift = b.rxShift := rfl
@[simp] theorem Block.holdEntry_rxPrev (b : Block) : (b.holdEntry).rxPrev = true := rfl
@[simp] theorem Block.holdEntry_rxUnread (b : Block) : (b.holdEntry).rxUnread = false := rfl
@[simp] theorem Block.holdEntry_faults (b : Block) : (b.holdEntry).faults = b.faults := rfl

@[simp] theorem Block.endOfFrame_txbuf (b : Block) : (b.endOfFrame).txbuf = b.txbuf := rfl
@[simp] theorem Block.endOfFrame_rxbuf (b : Block) : (b.endOfFrame).rxbuf = b.rxbuf := rfl
@[simp] theorem Block.endOfFrame_hold (b : Block) : (b.endOfFrame).hold = b.hold := rfl
@[simp] theorem Block.endOfFrame_clksel (b : Block) : (b.endOfFrame).clksel = b.clksel := rfl
@[simp] theorem Block.endOfFrame_brlo (b : Block) : (b.endOfFrame).brlo = b.brlo := rfl
@[simp] theorem Block.endOfFrame_brhi (b : Block) : (b.endOfFrame).brhi = b.brhi := rfl
@[simp] theorem Block.endOfFrame_mod (b : Block) : (b.endOfFrame).mod = b.mod := rfl
@[simp] theorem Block.endOfFrame_rxie (b : Block) : (b.endOfFrame).rxie = b.rxie := rfl
@[simp] theorem Block.endOfFrame_txie (b : Block) : (b.endOfFrame).txie = b.txie := rfl
@[simp] theorem Block.endOfFrame_rxip (b : Block) : (b.endOfFrame).rxip = b.rxip := rfl
@[simp] theorem Block.endOfFrame_txip (b : Block) : (b.endOfFrame).txip = true := rfl
@[simp] theorem Block.endOfFrame_txPhase (b : Block) : (b.endOfFrame).txPhase = .idle := rfl
@[simp] theorem Block.endOfFrame_txBit (b : Block) : (b.endOfFrame).txBit = b.txBit := rfl
@[simp] theorem Block.endOfFrame_txCnt (b : Block) : (b.endOfFrame).txCnt = b.txCnt := rfl
@[simp] theorem Block.endOfFrame_rxPhase (b : Block) : (b.endOfFrame).rxPhase = b.rxPhase := rfl
@[simp] theorem Block.endOfFrame_rxBit (b : Block) : (b.endOfFrame).rxBit = b.rxBit := rfl
@[simp] theorem Block.endOfFrame_rxCnt (b : Block) : (b.endOfFrame).rxCnt = b.rxCnt := rfl
@[simp] theorem Block.endOfFrame_rxShift (b : Block) : (b.endOfFrame).rxShift = b.rxShift := rfl
@[simp] theorem Block.endOfFrame_rxPrev (b : Block) : (b.endOfFrame).rxPrev = b.rxPrev := rfl
@[simp] theorem Block.endOfFrame_rxUnread (b : Block) : (b.endOfFrame).rxUnread = b.rxUnread := rfl
@[simp] theorem Block.endOfFrame_faults (b : Block) : (b.endOfFrame).faults = b.faults := rfl

end Sys2Proof.Machine
end

