-- ==== Sys2Proof/Laws/Ops.lean ====
section
/-! SUPPORT. One specification lemma per shared operation. -/

namespace Sys2Proof.Machine

/-! ### Outcomes -/

/-- `andThen` answers next exactly when both parts do. -/
theorem andThen_eq_next {o : Host.Outcome State Fault Refusal} {f : State → Host.Outcome State Fault Refusal}
    {t : State} : andThen o f = .next t ↔ ∃ u, o = .next u ∧ f u = .next t := by
  cases o <;> simp [andThen]

@[simp] theorem andThen_next (u : State) (f : State → Host.Outcome State Fault Refusal) :
    andThen (.next u) f = f u := rfl

@[simp] theorem andThen_fault (r : Fault) (f : State → Host.Outcome State Fault Refusal) :
    andThen (.fault r) f = .fault r := rfl

@[simp] theorem andThen_refused (r : Refusal) (f : State → Host.Outcome State Fault Refusal) :
    andThen (.refused r) f = .refused r := rfl

/-! ### Bytes and bit-times -/

/-- The bits of a register with two fields (R50). -/
theorem twoBits_getLsbD (b1 b0 : Bool) (k : Nat) :
    (twoBits b1 b0).getLsbD k = if k = 0 then b0 else if k = 1 then b1 else false := by
  rcases k with _ | _ | k
  · cases b1 <;> cases b0 <;> rfl
  · cases b1 <;> cases b0 <;> rfl
  · simp only [twoBits, BitVec.getLsbD_append]
    rcases k with _ | _ | _ | _ | _ | _ | k <;> simp

/-- `v[k] <- x` writes bit k and no other. -/
theorem setBit_getLsbD (v : Byte) (k j : Nat) (x : Bool) (hj : j < 8) :
    (setBit v k x).getLsbD j = if j = k then x else v.getLsbD j := by
  unfold setBit
  rcases Nat.lt_trichotomy j k with h | h | h
  · cases x <;> simp [hj, h, Nat.ne_of_lt h]
  · subst h; cases x <;> simp [hj]
  · have h1 : j - k ≠ 0 := by omega
    have h2 : j ≠ k := by omega
    cases x <;> simp [hj, h2, Nat.not_lt.mpr (Nat.le_of_lt h), h1]

/-- A bit-time is BR or BR + 1 TICKs (R92). -/
theorem bitTime_bounds (br : Word) (mod : Byte) (i : Nat) :
    br.toNat ≤ bitTime br mod i ∧ bitTime br mod i ≤ br.toNat + 1 := by
  unfold bitTime
  cases mod.getLsbD (i % 8) <;> simp

/-- The sample of a bit-time lies strictly inside it (R101, R107). -/
theorem halfTime_bounds (br : Word) (mod : Byte) (i : Nat) (h : 3 ≤ br.toNat) :
    1 ≤ halfTime br mod i ∧ halfTime br mod i + 1 < bitTime br mod i := by
  have := bitTime_bounds br mod i
  unfold halfTime
  omega

@[simp] theorem startTime_zero (br : Word) (mod : Byte) : startTime br mod 0 = 0 := rfl

@[simp] theorem startTime_succ (br : Word) (mod : Byte) (i : Nat) :
    startTime br mod (i + 1) = startTime br mod i + bitTime br mod i := rfl

@[simp] theorem frameBit_start (v : Byte) : frameBit v 0 = false := rfl

theorem frameBit_data (v : Byte) (i : Nat) (h1 : 1 ≤ i) (h8 : i ≤ 8) : frameBit v i = v.getLsbD (i - 1) := by
  have h0 : i ≠ 0 := by omega
  simp [frameBit, h0, h8]

@[simp] theorem frameBit_stop (v : Byte) : frameBit v 9 = true := rfl

/-! ### Markers -/

/-- Setting a marker sets it and changes no other (R36). -/
theorem Faults.has_mark (f : Faults) (c d : FaultCode) : (f.mark c).has d = (f.has d || decide (c = d)) := by
  cases c <;> cases d <;> simp [Faults.mark, Faults.has]

/-- A set of markers is what its three members say. -/
theorem Faults.ext_has {f g : Faults} (h : ∀ c, f.has c = g.has c) : f = g := by
  have h1 := h .txWriteWhileBusy
  have h2 := h .rxOverrun
  have h3 := h .illegalDivisor
  cases f; cases g
  simp_all [Faults.has]

/-! ### Release and configuration writes -/

/-- All that Release() can do (R145). -/
theorem Block.release_cases (b : Block) :
    b.br.toNat < 3 ∧ b.release = b.raise .illegalDivisor ∨ 3 ≤ b.br.toNat ∧ b.release = b := by
  unfold Block.release Config.minDivisor
  by_cases h : b.br.toNat < 3
  · exact .inl ⟨h, by simp [h]⟩
  · exact .inr ⟨by omega, by simp [h]⟩

/-- A configuration write acts while held and does nothing else (R86). -/
theorem Block.ifHeld_cases (f : Block → Block) (b : Block) :
    b.hold = true ∧ b.ifHeld f = f b ∨ b.hold = false ∧ b.ifHeld f = b := by
  cases h : b.hold <;> simp [Block.ifHeld, h]

/-- All that a write of CTL can do to the block (R73). -/
theorem Block.writeCtl_cases (d : Byte) (b : Block) :
    (b.hold = true ∧ d[0] = true ∧ b.writeCtl d = { b with clksel := d[1] }) ∨
    (b.hold = true ∧ d[0] = false ∧
      b.writeCtl d = Block.release { b with clksel := d[1], hold := false }) ∨
    (b.hold = false ∧ d[0] = true ∧ b.writeCtl d = Block.holdEntry { b with hold := true }) ∨
    (b.hold = false ∧ d[0] = false ∧ b.writeCtl d = b) := by
  cases hh : b.hold <;> cases h0 : d[0] <;> simp [Block.writeCtl, hh, h0]
  all_goals cases b; simp_all

/-- All that a write of DATA can do to the block (R88). -/
theorem Block.writeData_cases (d : Byte) (b : Block) :
    (b.hold = true ∧ b.writeData d = b) ∨
    (b.hold = false ∧ b.txPhase = .idle ∧ b.writeData d = { b with txbuf := d, txPhase := .wait }) ∨
    (b.hold = false ∧ b.txPhase ≠ .idle ∧ b.writeData d = { b.raise .txWriteWhileBusy with txbuf := d }) := by
  by_cases hh : b.hold = true
  · exact .inl ⟨hh, by simp [Block.writeData, hh]⟩
  · by_cases hp : b.txPhase = .idle
    · exact .inr (.inl ⟨by simpa using hh, hp, by simp [Block.writeData, hh, hp]⟩)
    · exact .inr (.inr ⟨by simpa using hh, hp, by simp [Block.writeData, hh, hp]⟩)

end Sys2Proof.Machine
end

