-- ==== Sys2Proof/Laws/Engines.lean ====
section
/-! SUPPORT. What the engines can do in one TICK, said once (R96 to R105). -/

namespace Sys2Proof.Machine

/-- All that TxTick can do (R96, R97, R98). -/
theorem Block.txTick_cases (b : Block) :
    (b.txPhase = .idle ∧ b.txTick = b) ∨
    (b.txPhase = .wait ∧ b.txTick = { b with txPhase := .bit, txBit := 0, txCnt := 0 }) ∨
    (b.txPhase = .bit ∧ b.txCnt.toNat + 1 < b.bitLen b.txBit.toNat ∧
      b.txTick = { b with txCnt := BitVec.ofNat 16 (b.txCnt.toNat + 1) }) ∨
    (b.txPhase = .bit ∧ b.bitLen b.txBit.toNat ≤ b.txCnt.toNat + 1 ∧ b.txBit.toNat < 9 ∧
      b.txTick = { b with txBit := b.txBit + 1#4, txCnt := 0 }) ∨
    (b.txPhase = .bit ∧ b.bitLen b.txBit.toNat ≤ b.txCnt.toNat + 1 ∧ 9 ≤ b.txBit.toNat ∧
      b.txTick = b.endOfFrame) := by
  cases hp : b.txPhase
  · simp [Block.txTick, hp]
  · simp [Block.txTick, hp]
  · simp only [Block.txTick, hp, Block.txAdvance]
    by_cases h1 : b.txCnt.toNat + 1 < b.bitLen b.txBit.toNat
    · simp [h1]
    · by_cases h2 : b.txBit.toNat < 9
      · simp [h1, h2, Nat.not_lt.mp h1]
      · simp [h1, h2, Nat.not_lt.mp h1, Nat.not_lt.mp h2]

/-- All that a sample can do (R102 to R104). -/
theorem Block.sample_cases (k : Nat) (r : Bool) (b : Block) :
    (k = 0 ∧ r = true ∧ b.sample k r = { b with rxPhase := .idle }) ∨
    (k = 0 ∧ r = false ∧ b.sample k r = b) ∨
    (1 ≤ k ∧ k ≤ 8 ∧ b.sample k r = { b with rxShift := setBit b.rxShift (k - 1) r }) ∨
    (k = 9 ∧ b.sample k r = b.deliver) ∨
    (10 ≤ k ∧ b.sample k r = b) := by
  unfold Block.sample
  by_cases h0 : k = 0
  · cases r <;> simp [h0]
  · by_cases h8 : k ≤ 8
    · simp [h0, h8]; omega
    · by_cases h9 : k = 9
      · simp [h9]
      · simp [h0, h8, h9]; omega

/-- All that RxTick can do (R100, R101). -/
theorem Block.rxTick_cases (r : Bool) (b : Block) :
    (b.rxPhase = .idle ∧ (b.rxPrev = false ∨ r = true) ∧ b.rxTick r = b) ∨
    (b.rxPhase = .idle ∧ b.rxPrev = true ∧ r = false ∧
      b.rxTick r = { b with rxPhase := .bit, rxBit := 0, rxCnt := 0 }) ∨
    (b.rxPhase = .bit ∧ b.rxCnt.toNat + 1 = b.bitLen b.rxBit.toNat ∧
      b.rxTick r = { b with rxBit := b.rxBit + 1#4, rxCnt := 0 }) ∨
    (b.rxPhase = .bit ∧ b.rxCnt.toNat + 1 ≠ b.bitLen b.rxBit.toNat ∧
      b.rxCnt.toNat + 1 = b.halfLen b.rxBit.toNat ∧
      b.rxTick r = Block.sample b.rxBit.toNat r { b with rxCnt := BitVec.ofNat 16 (b.rxCnt.toNat + 1) }) ∨
    (b.rxPhase = .bit ∧ b.rxCnt.toNat + 1 ≠ b.bitLen b.rxBit.toNat ∧
      b.rxCnt.toNat + 1 ≠ b.halfLen b.rxBit.toNat ∧
      b.rxTick r = { b with rxCnt := BitVec.ofNat 16 (b.rxCnt.toNat + 1) }) := by
  cases hp : b.rxPhase
  · simp only [Block.rxTick, hp]
    cases b.rxPrev <;> cases r <;> simp
  · simp only [Block.rxTick, hp, Block.rxAdvance]
    by_cases h1 : b.rxCnt.toNat + 1 = b.bitLen b.rxBit.toNat
    · simp [h1]
    · by_cases h2 : b.rxCnt.toNat + 1 = b.halfLen b.rxBit.toNat
      · exact .inr (.inr (.inr (.inl ⟨trivial, h1, h2, by simp only [if_neg h1, if_pos h2]⟩)))
      · exact .inr (.inr (.inr (.inr ⟨trivial, h1, h2, by simp only [if_neg h1, if_neg h2]⟩)))

/-- A delivery, with its overrun check (R104, R105). -/
theorem Block.deliver_eq (b : Block) :
    b.deliver = { b with
      faults := if b.rxUnread then b.faults.mark .rxOverrun else b.faults
      rxbuf := some b.rxShift, rxip := true, rxUnread := true, rxPhase := .idle } := by
  unfold Block.deliver
  cases b.rxUnread <;> rfl

/-- TxTick writes tx_phase, tx_bit, tx_cnt and TXIP and nothing else (R94). -/
theorem Block.txTick_frame (b : Block) :
    b.txTick = { b with txPhase := b.txTick.txPhase, txBit := b.txTick.txBit, txCnt := b.txTick.txCnt,
                        txip := b.txTick.txip } := by
  rcases b.txTick_cases with ⟨_, h⟩ | ⟨_, h⟩ | ⟨_, _, h⟩ | ⟨_, _, _, h⟩ | ⟨_, _, _, h⟩ <;> rw [h] <;> rfl

/-- A sample writes rx_phase, rx_shift, RXBUF, RXIP, rx_unread and the markers and nothing else (R94). -/
theorem Block.sample_frame (k : Nat) (r : Bool) (b : Block) :
    b.sample k r = { b with rxPhase := (b.sample k r).rxPhase, rxShift := (b.sample k r).rxShift,
                            rxbuf := (b.sample k r).rxbuf, rxip := (b.sample k r).rxip,
                            rxUnread := (b.sample k r).rxUnread, faults := (b.sample k r).faults } := by
  rcases b.sample_cases k r with ⟨_, _, h⟩ | ⟨_, _, h⟩ | ⟨_, _, h⟩ | ⟨_, h⟩ | ⟨_, h⟩ <;> rw [h]
  simp [Block.deliver_eq]

/-- RxTick writes rx_phase, rx_bit, rx_cnt, rx_shift, RXBUF, RXIP, rx_unread and the markers and nothing else (R94). -/
theorem Block.rxTick_frame (r : Bool) (b : Block) :
    b.rxTick r = { b with rxPhase := (b.rxTick r).rxPhase, rxBit := (b.rxTick r).rxBit, rxCnt := (b.rxTick r).rxCnt,
                          rxShift := (b.rxTick r).rxShift, rxbuf := (b.rxTick r).rxbuf, rxip := (b.rxTick r).rxip,
                          rxUnread := (b.rxTick r).rxUnread, faults := (b.rxTick r).faults } := by
  rcases b.rxTick_cases r with ⟨_, _, h⟩ | ⟨_, _, _, h⟩ | ⟨_, _, h⟩ | ⟨_, _, _, h⟩ | ⟨_, _, _, h⟩ <;> rw [h]
  rw [Block.sample_frame]

/-- The state the transmitter writes in a TICK, replaced. -/
def Block.withTx (p : TxPhase) (i : BitVec 4) (c : BitVec 16) (f : Bool) (b : Block) : Block :=
  { b with txPhase := p, txBit := i, txCnt := c, txip := f }

/-- A sample neither reads nor writes the transmitter (R94). -/
theorem Block.sample_withTx (k : Nat) (r : Bool) (p : TxPhase) (i : BitVec 4) (c : BitVec 16) (f : Bool) (b : Block) :
    (b.withTx p i c f).sample k r = (b.sample k r).withTx p i c f := by
  unfold Block.sample
  split
  · cases r <;> rfl
  · split
    · rfl
    · split
      · simp only [Block.deliver_eq]; rfl
      · rfl

/-- RxTick neither reads nor writes the transmitter (R94). -/
theorem Block.rxTick_withTx (r : Bool) (p : TxPhase) (i : BitVec 4) (c : BitVec 16) (f : Bool) (b : Block) :
    (b.withTx p i c f).rxTick r = (b.rxTick r).withTx p i c f := by
  have hl : ∀ n, (b.withTx p i c f).bitLen n = b.bitLen n := fun _ => rfl
  have hh : ∀ n, (b.withTx p i c f).halfLen n = b.halfLen n := fun _ => rfl
  have e1 : (b.withTx p i c f).rxPhase = b.rxPhase := rfl
  have e2 : (b.withTx p i c f).rxPrev = b.rxPrev := rfl
  have e3 : (b.withTx p i c f).rxCnt = b.rxCnt := rfl
  have e4 : (b.withTx p i c f).rxBit = b.rxBit := rfl
  unfold Block.rxTick
  rw [e1, e2]
  split
  · split <;> rfl
  · unfold Block.rxAdvance
    rw [e3, e4, hl, hh]
    split
    · rfl
    · split
      · exact Block.sample_withTx _ r p i c f { b with rxCnt := BitVec.ofNat 16 (b.rxCnt.toNat + 1) }
      · rfl

/-- A TICK of running engines is TxTick and RxTick, each of the state before it, and rx_prev (R94). -/
theorem Block.engines_eq (r : Bool) (b : Block) :
    b.engines r = { (b.rxTick r).withTx b.txTick.txPhase b.txTick.txBit b.txTick.txCnt b.txTick.txip with rxPrev := r } := by
  rw [← Block.rxTick_withTx, Block.engines]
  exact congrArg (fun x => { Block.rxTick r x with rxPrev := r }) b.txTick_frame

end Sys2Proof.Machine
end

