-- ==== Sys2Proof/Laws/Dispatch.lean ====
section
/-! SUPPORT. What a label can do to the whole state, said once. -/

namespace Sys2Proof.Machine

/-- All that TICK can do (R94). -/
theorem execTick_cases (r : Bool) (s : State) :
    (s.block.hold = true ∧ exec (.tick r) s = .next s) ∨
    (s.block.Stuck ∧ exec (.tick r) s = .fault .tickStuck) ∨
    (s.block.Running ∧ exec (.tick r) s = .next (s.onBlock (Block.engines r))) := by
  simp only [exec, execTick, Block.Stuck, Block.Running, Config.minDivisor]
  cases hh : s.block.hold
  · by_cases h : s.block.br.toNat < 3
    · simp [h]
    · simp [h, Nat.not_lt.mp h]
  · simp

/-- All that RD_DATA can do (R89). -/
theorem execRdData_cases (s : State) :
    (∃ v, s.block.rxbuf = some v ∧
      exec .rdData s = .next ((s.answer v).onBlock fun b => { b with rxUnread := false })) ∨
    (s.block.rxbuf = none ∧
      exec .rdData s = .next (((s.answer (s.draw 0)).drawn 1).onBlock fun b => { b with rxUnread := false })) := by
  cases h : s.block.rxbuf <;> simp [exec, execRdData, h]

/-- A label that is no TICK answers a next state (R71). -/
theorem exec_next_of_not_tick (i : Instr) (s : State) (h : ∀ r, i ≠ .tick r) : ∃ t, exec i s = .next t := by
  cases i with
  | tick r => exact absurd rfl (h r)
  | rdData => rcases execRdData_cases s with ⟨_, _, h⟩ | ⟨_, h⟩ <;> exact ⟨_, h⟩
  | _ => exact ⟨_, rfl⟩

/-- No label touches the host, the schedule, the refused mark or the txd record. -/
theorem exec_keeps_run {i : Instr} {s t : State} (h : exec i s = .next t) :
    t.host = s.host ∧ t.schedule = s.schedule ∧ t.refused = s.refused ∧ t.txdLog = s.txdLog := by
  cases i with
  | tick r =>
    rcases execTick_cases r s with ⟨_, e⟩ | ⟨_, e⟩ | ⟨_, e⟩ <;> rw [e] at h <;> cases h <;> simp
  | rdData =>
    rcases execRdData_cases s with ⟨_, _, e⟩ | ⟨_, e⟩ <;> rw [e] at h <;> cases h <;> simp
  | _ => cases h; exact ⟨rfl, rfl, rfl, rfl⟩

/-- A label in a run: its effect, then txd is recorded (R157). -/
theorem labelStep_eq_next {i : Instr} {s t : State} :
    labelStep i s = .next t ↔ ∃ u, exec i s = .next u ∧ t = u.logTxd := by
  simp only [labelStep, andThen_eq_next, Host.Outcome.next.injEq]
  constructor <;> rintro ⟨u, h, e⟩ <;> exact ⟨u, h, e.symm⟩

/-- A run of labels is its first label and then the others. -/
theorem runLabels_cons_eq_next {i : Instr} {rest : List Instr} {s t : State} :
    runLabels (i :: rest) s = .next t ↔ ∃ u, exec i s = .next u ∧ runLabels rest u.logTxd = .next t := by
  simp only [runLabels, andThen_eq_next, labelStep_eq_next]
  constructor
  · rintro ⟨u, ⟨v, h, rfl⟩, e⟩; exact ⟨v, h, e⟩
  · rintro ⟨v, h, e⟩; exact ⟨_, ⟨v, h, rfl⟩, e⟩

@[simp] theorem runLabels_nil (s : State) : runLabels [] s = .next s := rfl

/-- A run of labels may be cut anywhere. -/
theorem runLabels_append (is js : List Instr) (s : State) :
    runLabels (is ++ js) s = andThen (runLabels is s) (runLabels js) := by
  induction is generalizing s with
  | nil => rfl
  | cons i rest ih =>
    simp only [List.cons_append, runLabels]
    cases labelStep i s <;> simp [ih]

/-- A host bus access always answers a next state: a register access is never stuck (R71). -/
theorem busStep_next (c : Ctx) (op : BusOp) (s : State) : ∃ t, busStep c op s = .next t := by
  have key : ∀ i, (∀ r, i ≠ Instr.tick r) → ∃ t, labelStep i s = .next t := fun i hi =>
    let ⟨t, h⟩ := exec_next_of_not_tick i s hi
    ⟨t.logTxd, labelStep_eq_next.mpr ⟨t, h, rfl⟩⟩
  cases op with
  | rd reg =>
    obtain ⟨t, h⟩ := key (BusOp.instr (.rd reg)) (by cases reg <;> simp [BusOp.instr, Instr.ofRead])
    exact ⟨_, by simp only [busStep, h, andThen_next]; rfl⟩
  | wr reg v =>
    obtain ⟨t, h⟩ := key (BusOp.instr (.wr reg v)) (by cases reg <;> simp [BusOp.instr, Instr.ofWrite])
    exact ⟨t, h⟩

end Sys2Proof.Machine
end

