-- ==== Sys2Proof/Laws/PerInstr.lean ====
section
/-! SUPPORT. Facts about every label as syntax, one lemma per constructor. -/

namespace Sys2Proof.Laws.InItsRow

/-- A label's word is well formed and is selected by exactly one row of the opcode table, the row of its mnemonic
(R62, R63). -/
def Statement (i : Instr) : Prop :=
  Word.wf (encode i) = true ∧ (opcodeTable.filter (·.selects (encode i))).map (·.mnemonic) = [i.mnemonic]

/-- The row of a WRITE word is decided by its high byte. -/
theorem of_write (i : Instr) (hi data : Byte) (he : encode i = hi ++ data)
    (hk : hi.extractLsb' 6 2 = 0b01#2) (hz : hi.extractLsb' 3 3 = 0#3)
    (hr : (opcodeTable.filter (·.selects (hi ++ data))).map (·.mnemonic) = [i.mnemonic]) : Statement i := by
  unfold Statement
  rw [he]
  exact ⟨wf_write hi data hk hz, hr⟩

theorem rdData : Statement .rdData := by unfold Statement; decide
theorem rdCtl : Statement .rdCtl := by unfold Statement; decide
theorem rdBrlo : Statement .rdBrlo := by unfold Statement; decide
theorem rdBrhi : Statement .rdBrhi := by unfold Statement; decide
theorem rdMod : Statement .rdMod := by unfold Statement; decide
theorem rdIe : Statement .rdIe := by unfold Statement; decide
theorem rdIp : Statement .rdIp := by unfold Statement; decide
theorem rdRsvd : Statement .rdRsvd := by unfold Statement; decide
theorem wrData (data : Byte) : Statement (.wrData data) :=
  of_write _ 0x40#8 data rfl rfl rfl <| by
    simp [opcodeTable, readRows, writeRows, List.filter, selects_append, Instr.mnemonic]
theorem wrCtl (data : Byte) : Statement (.wrCtl data) :=
  of_write _ 0x41#8 data rfl rfl rfl <| by
    simp [opcodeTable, readRows, writeRows, List.filter, selects_append, Instr.mnemonic]
theorem wrBrlo (data : Byte) : Statement (.wrBrlo data) :=
  of_write _ 0x42#8 data rfl rfl rfl <| by
    simp [opcodeTable, readRows, writeRows, List.filter, selects_append, Instr.mnemonic]
theorem wrBrhi (data : Byte) : Statement (.wrBrhi data) :=
  of_write _ 0x43#8 data rfl rfl rfl <| by
    simp [opcodeTable, readRows, writeRows, List.filter, selects_append, Instr.mnemonic]
theorem wrMod (data : Byte) : Statement (.wrMod data) :=
  of_write _ 0x44#8 data rfl rfl rfl <| by
    simp [opcodeTable, readRows, writeRows, List.filter, selects_append, Instr.mnemonic]
theorem wrIe (data : Byte) : Statement (.wrIe data) :=
  of_write _ 0x45#8 data rfl rfl rfl <| by
    simp [opcodeTable, readRows, writeRows, List.filter, selects_append, Instr.mnemonic]
theorem wrIp (data : Byte) : Statement (.wrIp data) :=
  of_write _ 0x46#8 data rfl rfl rfl <| by
    simp [opcodeTable, readRows, writeRows, List.filter, selects_append, Instr.mnemonic]
theorem wrRsvd (data : Byte) : Statement (.wrRsvd data) :=
  of_write _ 0x47#8 data rfl rfl rfl <| by
    simp [opcodeTable, readRows, writeRows, List.filter, selects_append, Instr.mnemonic]
theorem tick (r : Bool) : Statement (.tick r) := by unfold Statement; cases r <;> decide
theorem reset : Statement .reset := by unfold Statement; decide

end Sys2Proof.Laws.InItsRow
end

