-- ==== Sys2Proof/Laws/Program.lean ====
section
/-! SUPPORT. Host programs (log 11): one lemma per field per update, and reading a variable after writing one. -/

namespace Sys2Proof.Machine

@[simp] theorem HostSide.setVar_txCb (k v : Nat) (h : HostSide) : (h.setVar k v).txCb = h.txCb := rfl
@[simp] theorem HostSide.setVar_rxCb (k v : Nat) (h : HostSide) : (h.setVar k v).rxCb = h.rxCb := rfl
@[simp] theorem HostSide.setVar_procs (k v : Nat) (h : HostSide) : (h.setVar k v).procs = h.procs := rfl
@[simp] theorem HostSide.setVar_ledRx (k v : Nat) (h : HostSide) : (h.setVar k v).ledRx = h.ledRx := rfl
@[simp] theorem HostSide.setVar_ledTimer (k v : Nat) (h : HostSide) : (h.setVar k v).ledTimer = h.ledTimer := rfl
@[simp] theorem HostSide.setVar_inHandler (k v : Nat) (h : HostSide) : (h.setVar k v).inHandler = h.inHandler := rfl
@[simp] theorem HostSide.setVar_handlerTodo (k v : Nat) (h : HostSide) : (h.setVar k v).handlerTodo = h.handlerTodo := rfl
@[simp] theorem HostSide.setVar_mainTodo (k v : Nat) (h : HostSide) : (h.setVar k v).mainTodo = h.mainTodo := rfl
@[simp] theorem HostSide.setVar_handlerByte (k v : Nat) (h : HostSide) : (h.setVar k v).handlerByte = h.handlerByte := rfl
@[simp] theorem HostSide.setVar_mainByte (k v : Nat) (h : HostSide) : (h.setVar k v).mainByte = h.mainByte := rfl
@[simp] theorem HostSide.setVar_timerPending (k v : Nat) (h : HostSide) : (h.setVar k v).timerPending = h.timerPending := rfl
@[simp] theorem HostSide.setVar_waiting (k v : Nat) (h : HostSide) : (h.setVar k v).waiting = h.waiting := rfl
@[simp] theorem HostSide.setVar_vars (k v : Nat) (h : HostSide) : (h.setVar k v).vars = writeVar k v h.vars := rfl

@[simp] theorem HostSide.setLocal_txCb (c : Ctx) (v : Byte) (h : HostSide) : (h.setLocal c v).txCb = h.txCb := by
  cases c <;> rfl
@[simp] theorem HostSide.setLocal_rxCb (c : Ctx) (v : Byte) (h : HostSide) : (h.setLocal c v).rxCb = h.rxCb := by
  cases c <;> rfl
@[simp] theorem HostSide.setLocal_procs (c : Ctx) (v : Byte) (h : HostSide) : (h.setLocal c v).procs = h.procs := by
  cases c <;> rfl
@[simp] theorem HostSide.setLocal_vars (c : Ctx) (v : Byte) (h : HostSide) : (h.setLocal c v).vars = h.vars := by
  cases c <;> rfl
@[simp] theorem HostSide.setLocal_ledRx (c : Ctx) (v : Byte) (h : HostSide) : (h.setLocal c v).ledRx = h.ledRx := by
  cases c <;> rfl
@[simp] theorem HostSide.setLocal_ledTimer (c : Ctx) (v : Byte) (h : HostSide) : (h.setLocal c v).ledTimer = h.ledTimer := by
  cases c <;> rfl
@[simp] theorem HostSide.setLocal_inHandler (c : Ctx) (v : Byte) (h : HostSide) : (h.setLocal c v).inHandler = h.inHandler := by
  cases c <;> rfl
@[simp] theorem HostSide.setLocal_handlerTodo (c : Ctx) (v : Byte) (h : HostSide) : (h.setLocal c v).handlerTodo = h.handlerTodo := by
  cases c <;> rfl
@[simp] theorem HostSide.setLocal_mainTodo (c : Ctx) (v : Byte) (h : HostSide) : (h.setLocal c v).mainTodo = h.mainTodo := by
  cases c <;> rfl
@[simp] theorem HostSide.setLocal_timerPending (c : Ctx) (v : Byte) (h : HostSide) : (h.setLocal c v).timerPending = h.timerPending := by
  cases c <;> rfl
@[simp] theorem HostSide.setLocal_waiting (c : Ctx) (v : Byte) (h : HostSide) : (h.setLocal c v).waiting = h.waiting := by
  cases c <;> rfl
@[simp] theorem HostSide.setLocal_localByte (c : Ctx) (v : Byte) (h : HostSide) : (h.setLocal c v).localByte c = v := by
  cases c <;> rfl

/-- Below a canonical list's first index every variable reads as 0. -/
theorem readVar_below {low : Nat} {vs : List (Nat × Nat)} (h : varsFrom low vs = true) {k : Nat} (hk : k < low) :
    readVar k vs = 0 := by
  induction vs generalizing low with
  | nil => rfl
  | cons e rest ih =>
    simp only [varsFrom, Bool.and_eq_true, decide_eq_true_eq] at h
    have hne : e.1 ≠ k := by omega
    simp only [readVar, if_neg hne]
    exact ih h.2 (by omega)

/-- A lower bound may be lowered. -/
theorem varsFrom_mono {low low' : Nat} {vs : List (Nat × Nat)} (h : varsFrom low vs = true) (hl : low' ≤ low) :
    varsFrom low' vs = true := by
  cases vs with
  | nil => rfl
  | cons e rest =>
    simp only [varsFrom, Bool.and_eq_true, decide_eq_true_eq] at h ⊢
    exact ⟨⟨by omega, h.1.2⟩, h.2⟩

/-- Listing an entry before a canonical rest keeps the form. -/
theorem varsFrom_listVar {low k v : Nat} {rest : List (Nat × Nat)} (hk : low ≤ k) (h : varsFrom (k + 1) rest = true) :
    varsFrom low (listVar k v rest) = true := by
  unfold listVar
  by_cases hv : v = 0
  · simpa [hv] using varsFrom_mono h (by omega)
  · simp [hv, varsFrom, hk, h]

/-- Writing a variable keeps the canonical form. -/
theorem varsFrom_writeVar {low k v : Nat} {vs : List (Nat × Nat)} (hk : low ≤ k) (h : varsFrom low vs = true) :
    varsFrom low (writeVar k v vs) = true := by
  induction vs generalizing low with
  | nil => exact varsFrom_listVar hk rfl
  | cons e rest ih =>
    have h' := h
    simp only [varsFrom, Bool.and_eq_true, decide_eq_true_eq] at h'
    unfold writeVar
    split
    next hlt => exact varsFrom_listVar hk (by simp only [varsFrom, Bool.and_eq_true, decide_eq_true_eq]; exact ⟨⟨hlt, h'.1.2⟩, h'.2⟩)
    next hlt =>
      split
      next he => exact varsFrom_listVar hk (he ▸ h'.2)
      next he =>
        simp only [varsFrom, Bool.and_eq_true, decide_eq_true_eq]
        exact ⟨h'.1, ih (by omega) h'.2⟩

/-- Reading through a listed entry. -/
theorem readVar_listVar {k v j : Nat} {rest : List (Nat × Nat)} (h : varsFrom (k + 1) rest = true) :
    readVar j (listVar k v rest) = if j = k then v else readVar j rest := by
  unfold listVar
  by_cases hv : v = 0
  · by_cases hj : j = k
    · simp [hv, hj, readVar_below h (Nat.lt_succ_self k)]
    · simp [hv, hj]
  · by_cases hj : j = k
    · simp [hv, hj, readVar]
    · simp [hv, hj, readVar, Ne.symm hj]

/-- Reading a variable after writing one: the value written at that index, and every other index as before. -/
theorem readVar_writeVar {low k v j : Nat} {vs : List (Nat × Nat)} (h : varsFrom low vs = true) :
    readVar j (writeVar k v vs) = if j = k then v else readVar j vs := by
  induction vs generalizing low with
  | nil => exact readVar_listVar rfl
  | cons e rest ih =>
    have h' := h
    simp only [varsFrom, Bool.and_eq_true, decide_eq_true_eq] at h'
    unfold writeVar
    split
    next hlt =>
      exact readVar_listVar (by simp only [varsFrom, Bool.and_eq_true, decide_eq_true_eq]; exact ⟨⟨hlt, h'.1.2⟩, h'.2⟩)
    next hlt =>
      split
      next he =>
        rw [readVar_listVar (he ▸ h'.2)]
        by_cases hj : j = k
        · simp [hj]
        · have : e.1 ≠ j := by omega
          simp [hj, readVar, this]
      next he =>
        by_cases hj : e.1 = j
        · have : j ≠ k := by omega
          simp [readVar, hj, this]
        · simp only [readVar, if_neg hj]
          exact ih h'.2

/-- Setting a host variable keeps the canonical form. -/
theorem HostSide.setVar_varsOk (k v : Nat) {h : HostSide} (hv : h.varsOk = true) : (h.setVar k v).varsOk = true :=
  varsFrom_writeVar (Nat.zero_le k) hv

theorem reset_varsOk : State.reset.host.varsOk = true := rfl

/-- A value depends on the context's byte and on the variables, and on nothing else of the host. -/
theorem HostSide.eval_congr {c : Ctx} {h h' : HostSide} (hb : h'.localByte c = h.localByte c) (hv : h'.vars = h.vars)
    (e : HostExpr) : h'.eval c e = h.eval c e := by
  induction e with
  | const n => rfl
  | byte => simp only [HostSide.eval, hb]
  | var i ih => simp only [HostSide.eval, ih, hv]
  | app f x y ihx ihy => simp only [HostSide.eval, ihx, ihy]

@[simp] theorem HostSide.eval_handlerTodo (c : Ctx) (h : HostSide) (todo : List HostAct) (e : HostExpr) :
    { h with handlerTodo := todo }.eval c e = h.eval c e :=
  HostSide.eval_congr (c := c) (h := h) (h' := { h with handlerTodo := todo }) (by cases c <;> rfl) rfl e

@[simp] theorem HostSide.eval_mainTodo (c : Ctx) (h : HostSide) (todo : List MainAct) (e : HostExpr) :
    { h with mainTodo := todo }.eval c e = h.eval c e :=
  HostSide.eval_congr (c := c) (h := h) (h' := { h with mainTodo := todo }) (by cases c <;> rfl) rfl e

end Sys2Proof.Machine
end

