-- ==== Sys2Proof/Laws/Step.lean ====
section
/-! SUPPORT. What a step can do, by the turn it takes (R9, R130). -/

namespace Sys2Proof.Machine

/-- With no turn placed there is no step (log 2). -/
theorem step_empty {s : State} (h : s.schedule = []) : step s = .refused .noTurn := by
  simp [step, stepNext, State.nextTurn?, h]

/-- A step takes the next turn. -/
theorem step_cons {s : State} {t : Turn} {ts : List Turn} (h : s.schedule = t :: ts) :
    step s = turnStep t { s with schedule := ts } := by
  simp [step, stepNext, State.nextTurn?, h]

/-- A step that answers a next state took a turn. -/
theorem step_next_turn {s u : State} (h : step s = .next u) :
    ∃ t ts, s.schedule = t :: ts ∧ turnStep t { s with schedule := ts } = .next u := by
  cases hs : s.schedule with
  | nil => rw [step_empty hs] at h; cases h
  | cons t ts => exact ⟨t, ts, rfl, by rw [← step_cons hs]; exact h⟩

/-- All that dispatch can do (R130). -/
theorem dispatchStep_cases (choice : Source) (s : State) :
    (s.host.inHandler = none ∧ s.pending choice = true ∧
      dispatchStep choice s = s.enterHandler choice
        (isrBody Config.echoViaCallback Config.periodicByte choice)) ∨
    ((s.host.inHandler ≠ none ∨ s.pending choice = false) ∧ dispatchStep choice s = s) := by
  by_cases h : s.host.inHandler = none ∧ s.pending choice = true
  · exact .inl ⟨h.1, h.2, by simp only [dispatchStep, if_pos h]⟩
  · refine .inr ⟨?_, by simp only [dispatchStep, if_neg h]⟩
    by_cases hn : s.host.inHandler = none
    · exact .inr (by simpa [hn] using h)
    · exact .inl hn

/-- Placing a label word makes it the very next turn (log 1). -/
theorem step_withFetchWord (s : State) (nbits w : Nat) :
    step (s.withFetchWord nbits w) = wordStep (BitVec.ofNat 16 (tableWord nbits w)) s := by
  rw [step_cons (t := .label (BitVec.ofNat 16 (tableWord nbits w))) (ts := s.schedule) rfl]
  rfl

end Sys2Proof.Machine
end

