-- ==== Sys2Proof/Tests/Slice0.lean ====
section
/-! SUPPORT. The model's own tests: decoding by words written out from R57, well-formedness smoke tests, one or two steps
for each label with results taken from spec/95_test_vectors.md (its vector named), and a witness for the hypotheses of each
statement in Certificates/Slice0/Obligations.lean. -/

namespace Sys2Proof.Tests
open Sys2Proof Sys2Proof.Machine

/-- The state of a next outcome. -/
def nextOf (o : Host.Outcome State Fault Refusal) : Option State :=
  match o with
  | .next s => some s
  | .fault _ => none
  | .refused _ => none

/-- One fact about the next state of a label. -/
def after (i : Instr) (s : State) (p : State → Bool) : Bool := (nextOf (exec i s)).any p

/-- The state with its block changed. -/
def withBlock (f : Block → Block) : State := { State.reset with block := f State.reset.block }

/-- S3 of 95_test_vectors.md: released, BR = 3, MOD = 0, IP = 0x00. -/
def s3 : State := withBlock fun b => { b with hold := false, brlo := 3, txip := false }

/-- S3 with the transmitter in a bit-time of the frame of v. -/
def s3Tx (v : Byte) (bit : BitVec 4) (cnt : BitVec 16) : State :=
  { s3 with block := { s3.block with txbuf := v, txPhase := .bit, txBit := bit, txCnt := cnt } }

/-- S3 with the receiver in a bit-time of a frame. -/
def s3Rx (bit : BitVec 4) (cnt : BitVec 16) (shift : Byte) : State :=
  { s3 with block := { s3.block with rxPhase := .bit, rxBit := bit, rxCnt := cnt, rxShift := shift, rxPrev := false } }

/-- Released with BR = 2: the stuck state. -/
def stuck : State := withBlock fun b => { b with hold := false, brlo := 2 }

/-- A state with a host handler's body to run. -/
def inHandler (src : Source) (body : List HostAct) (rxCb : Option CbRef) (s : State) : State :=
  { s with host := { s.host with inHandler := some src, handlerTodo := body, rxCb := rxCb } }

/-! ### Decoding, each word written out from R57 -/

theorem test_decode_rdData : decode 0b00_000_000_00000000#16 = .ok .rdData := rfl
theorem test_decode_rdCtl : decode 0b00_000_001_00000000#16 = .ok .rdCtl := rfl
theorem test_decode_rdBrlo : decode 0b00_000_010_00000000#16 = .ok .rdBrlo := rfl
theorem test_decode_rdBrhi : decode 0b00_000_011_00000000#16 = .ok .rdBrhi := rfl
theorem test_decode_rdMod : decode 0b00_000_100_00000000#16 = .ok .rdMod := rfl
theorem test_decode_rdIe : decode 0b00_000_101_00000000#16 = .ok .rdIe := rfl
theorem test_decode_rdIp : decode 0b00_000_110_00000000#16 = .ok .rdIp := rfl
theorem test_decode_rdRsvd : decode 0b00_000_111_00000000#16 = .ok .rdRsvd := rfl
theorem test_decode_wrData : decode 0b01_000_000_01000001#16 = .ok (.wrData 0x41#8) := rfl
theorem test_decode_wrCtl : decode 0b01_000_001_00000010#16 = .ok (.wrCtl 0x02#8) := rfl
theorem test_decode_wrBrlo : decode 0b01_000_010_00101001#16 = .ok (.wrBrlo 0x29#8) := rfl
theorem test_decode_wrBrhi : decode 0b01_000_011_10000000#16 = .ok (.wrBrhi 0x80#8) := rfl
theorem test_decode_wrMod : decode 0b01_000_100_01101101#16 = .ok (.wrMod 0x6D#8) := rfl
theorem test_decode_wrIe : decode 0b01_000_101_00000011#16 = .ok (.wrIe 0x03#8) := rfl
theorem test_decode_wrIp : decode 0b01_000_110_00000001#16 = .ok (.wrIp 0x01#8) := rfl
theorem test_decode_wrRsvd : decode 0b01_000_111_10101011#16 = .ok (.wrRsvd 0xAB#8) := rfl
theorem test_decode_tick : decode 0b10_000_000_00000001#16 = .ok (.tick true) := rfl
theorem test_decode_reset : decode 0b11_000_000_00000000#16 = .ok .reset := rfl

/-- The host's entry to the decoder numbers bits as the table does. -/
theorem test_decodeTableWord : decodeTableWord 16 0x40FF = some (.wrData 0xFF#8) ∧ decodeTableWord 16 0x0601 = none := by
  decide

/-! ### Well-formedness: an ill-formed term for each check (vectors of 95_test_vectors.md 2.1) -/

theorem test_wf_refuses_read : Word.wf 0x0001#16 = false ∧ Word.wf 0x0800#16 = false := by decide
theorem test_wf_refuses_write : Word.wf 0x4800#16 = false ∧ Word.wf 0x7F00#16 = false := by decide
theorem test_wf_refuses_tick : Word.wf 0x8002#16 = false ∧ Word.wf 0x8100#16 = false := by decide
theorem test_wf_refuses_reset : Word.wf 0xC001#16 = false ∧ Word.wf 0xFFFF#16 = false := by decide
theorem test_wf_refuses_asm_register : (AsmLine.rd (.num 8) none).wf = false ∧ (AsmLine.wr (.num 8) 0).wf = false := by
  decide
theorem test_wf_refuses_asm_number : (AsmLine.wr (.name .ie) 256).wf = false ∧ (AsmLine.tick 2).wf = false ∧
    (AsmLine.rd (.name .data) (some 256)).wf = false ∧ (AsmLine.ticks 1 2).wf = false ∧
    (AsmLine.frame 256).wf = false := by decide
theorem test_wf_refuses_divisor : (DriverOp.init 2 0 false).wf = false ∧ (DriverOp.init 3 0 false).wf = true := by decide

/-! ### Steps of the labels -/

/-- V1. -/
theorem test_rdCtl : after .rdCtl State.reset (·.answers == [0x01#8]) = true := by decide
/-- V1. -/
theorem test_rdIp : after .rdIp State.reset (·.answers == [0x02#8]) = true := by decide
/-- V9, read back. -/
theorem test_rdIe : after .rdIe (withBlock fun b => { b with rxie := true, txie := true }) (·.answers == [0x03#8]) = true := by
  decide
/-- V4. -/
theorem test_rdBrlo : after .rdBrlo (withBlock fun b => { b with brlo := 0x29, brhi := 0x01 }) (·.answers == [0x29#8]) = true := by
  decide
/-- V4. -/
theorem test_rdBrhi : after .rdBrhi (withBlock fun b => { b with brlo := 0x29, brhi := 0x01 }) (·.answers == [0x01#8]) = true := by
  decide
/-- V17. -/
theorem test_rdMod : after .rdMod (withBlock fun b => { b with mod := 0x4A }) (·.answers == [0x4A#8]) = true := by decide
/-- V11. -/
theorem test_rdRsvd : after .rdRsvd s3 (·.answers == [0x00#8]) = true := by decide
/-- D7: the byte is answered, rx_unread falls, RXIP stays. -/
theorem test_rdData : after .rdData
    (withBlock fun b => { b with rxbuf := some 0x41#8, rxUnread := true, rxip := true })
    (fun t => t.answers == [0x41#8] && !t.block.rxUnread && t.block.rxip) = true := by decide
/-- V3. -/
theorem test_wrCtl_in_hold : after (.wrCtl 0xFF#8) State.reset
    (fun t => t.block.ctlByte == 0x03#8 && t.block.ipByte == 0x02#8) = true := by decide
/-- V14. -/
theorem test_wrCtl_illegal_release : after (.wrCtl 0x00#8) State.reset
    (fun t => t.block.ctlByte == 0x00#8 && t.block.faults == ⟨false, false, true⟩) = true := by decide
/-- V6: ignored while HOLD = 0. -/
theorem test_wrBrlo_running : after (.wrBrlo 0x05#8) s3 (·.block.brlo == 0x03#8) = true := by decide
/-- V5, read as BR. -/
theorem test_wrBrhi_in_hold : after (.wrBrhi 0xFF#8) (withBlock fun b => { b with brlo := 0xFF })
    (·.block.br == 65535#16) = true := by decide
/-- V6. -/
theorem test_wrMod_running : after (.wrMod 0xFF#8) s3 (·.block.mod == 0x00#8) = true := by decide
/-- V9: irq_tx at once, TXIP being 1 after reset. -/
theorem test_wrIe : after (.wrIe 0xFF#8) State.reset
    (fun t => t.block.ieByte == 0x03#8 && t.block.irqTx && !t.block.irqRx) = true := by decide
/-- The example of R83: with IP = 0x03, WR IP 0x01 gives 0x02. -/
theorem test_wrIp : after (.wrIp 0x01#8) (withBlock fun b => { b with rxip := true }) (·.block.ipByte == 0x02#8) = true := by
  decide
/-- V11. -/
theorem test_wrRsvd : after (.wrRsvd 0xFF#8) State.reset (· == State.reset) = true := by decide
/-- D2. -/
theorem test_wrData_idle : after (.wrData 0x41#8) s3
    (fun t => t.block.txbuf == 0x41#8 && t.block.txPhase == .wait && t.block.txd && t.block.ipByte == 0x00#8) = true := by
  decide
/-- D5: busy in bit-time 1, the line shows d0 of 0x42 at once and the marker is set. -/
theorem test_wrData_busy : after (.wrData 0x42#8) (s3Tx 0x41 1 1)
    (fun t => !t.block.txd && t.block.txBit == 1#4 && t.block.faults == ⟨true, false, false⟩) = true := by decide
/-- The example of R94: from Wait the start bit begins. -/
theorem test_tick_starts_frame :
    after (.tick true) { s3 with block := { s3.block with txbuf := 0x41, txPhase := .wait } }
      (fun t => t.block.txPhase == .bit && t.block.txBit == 0#4 && t.block.txCnt == 0#16 && !t.block.txd) = true := by
  decide
/-- T5: the stop sample sees 0 and still delivers. -/
theorem test_tick_delivers : after (.tick false) (s3Rx 9 0 0xA5)
    (fun t => t.block.rxbuf == some 0xA5#8 && t.block.ipByte == 0x01#8 && t.block.faults == Faults.empty) = true := by
  decide
/-- X2 and X3: RESET keeps RXBUF and the markers. -/
theorem test_reset : after .reset
    { s3 with block := { s3.block with rxbuf := some 0x41#8, faults := ⟨true, false, false⟩ } }
    (fun t => t.block.rxbuf == some 0x41#8 && t.block.faults == ⟨true, false, false⟩ && t.block.ctlByte == 0x01#8 &&
      t.block.ipByte == 0x02#8) = true := by decide
/-- R133: after a refused word the mark is set and the block is unchanged. -/
theorem test_ill_formed_word :
    (nextOf (step (s3.withFetchWord 16 0x0601))).any (fun t => t.refused && t.block == s3.block) = true := by decide

/-! ### The assembler and the pseudo-labels (R66, R67) -/

theorem test_asm_write : asmParse "WR IE, 0x03 ; enable".toList = some [.wr (.name .ie) 3] := by decide
theorem test_asm_read : asmParse "RD DATA -> 0x41".toList = some [.rd (.name .data) (some 65)] := by decide
theorem test_asm_ticks : asmParse "TICK*31 1".toList = some [.ticks 31 1] ∧ asmParse "TICK 2".toList = none := by decide
/-- P3: the frame of 0x12 at BR = 3. -/
theorem test_frame_levels : s3.block.frameTicks 0x12#8 =
    List.replicate 6 false ++ List.replicate 3 true ++ List.replicate 6 false ++ List.replicate 3 true ++
      List.replicate 9 false ++ List.replicate 3 true := by decide

/-! ### Witnesses: a concrete state and operands that meet a statement's hypotheses -/

theorem s3_running : s3.block.Running := ⟨rfl, by decide⟩
theorem s3_inv : s3.block.Inv := by constructor <;> decide
theorem stuck_stuck : stuck.block.Stuck := ⟨rfl, by decide⟩
theorem s3Rx_stop_delivers : (s3Rx 9 0 0xA5).block.DeliveryBy (.tick true) :=
  ⟨⟨true, rfl⟩, ⟨rfl, by decide⟩, rfl, rfl, by decide⟩

theorem witness_DecodeOfEncode : (Instr.wrData 0xFF#8).wf = true := rfl
theorem witness_EncodeOfDecode : decode 0x47FF#16 = .ok (.wrRsvd 0xFF#8) := rfl
theorem witness_DecoderAgreesWithOpcodeMap :
    decode 0x8001#16 = .ok (.tick true) ∧ decode 0xFFFF#16 = .error .resetReserved := ⟨rfl, rfl⟩
theorem witness_StepRunsDecodedLabel_next :
    (s3.placeWord 0x4100#16).schedule = [.label 0x4100#16] ∧ decode 0x4100#16 = .ok (.wrCtl 0x00#8) ∧
      ∃ t, exec (.wrCtl 0x00#8) { s3.placeWord 0x4100#16 with schedule := [] } = .next t := ⟨rfl, rfl, _, rfl⟩
theorem witness_StepRunsDecodedLabel_fault :
    (stuck.placeWord 0x8001#16).schedule = [.label 0x8001#16] ∧ decode 0x8001#16 = .ok (.tick true) ∧
      exec (.tick true) { stuck.placeWord 0x8001#16 with schedule := [] } = .fault .tickStuck := ⟨rfl, rfl, rfl⟩
theorem witness_StepMarksIllFormedWord :
    (s3.placeWord 0x0601#16).schedule = [.label 0x0601#16] ∧ decode 0x0601#16 = .error .readReserved := ⟨rfl, rfl⟩
theorem witness_AssemblerWords :
    7 ≤ 7 ∧ 255 ≤ 255 ∧ 1 ≤ 1 ∧ (∀ n, some 255 = some n → n ≤ 255) ∧
      (Reg.rsvd, 7) ∈ [(Reg.data, 0), (.ctl, 1), (.brlo, 2), (.brhi, 3), (.mod, 4), (.ie, 5), (.ip, 6), (.rsvd, 7)] := by
  refine ⟨by decide, by decide, by decide, fun n h => ?_, by decide⟩
  cases h
  decide
theorem witness_WriteCtlCases_from_hold :
    State.reset.block.hold = true ∧ (0x03#8)[0] = true ∧ (0x02#8)[0] = false ∧ State.reset.block.br.toNat < 3 ∧
      (withBlock fun b => { b with brlo := 3 }).block.hold = true ∧
      3 ≤ (withBlock fun b => { b with brlo := 3 }).block.br.toNat := by decide
theorem witness_WriteCtlCases_running : s3.block.hold = false ∧ (0x02#8)[0] = false ∧ (0x01#8)[0] = true := by decide
theorem witness_ReservedBitsReadZeroIgnoreWrites : (0x03#8)[0] = (0xFF#8)[0] ∧ (0x03#8)[1] = (0xFF#8)[1] := by decide
theorem witness_ConfigurationFixedWhileRunning :
    s3.block.hold = false ∧
      (∀ i ∈ [Instr.wrBrlo 0x05#8, .wrCtl 0xFE#8], i ≠ .reset ∧ ∀ d : Byte, i = .wrCtl d → d[0] = false) ∧
      ∃ t, runLabels [.wrBrlo 0x05#8, .wrCtl 0xFE#8] s3 = .next t := by
  refine ⟨rfl, fun i hi => ?_, _, rfl⟩
  rcases List.mem_cons.mp hi with rfl | hi
  · exact ⟨by decide, fun d h => by cases h⟩
  · rw [List.mem_singleton.mp hi]
    exact ⟨by decide, fun d h => by cases h; decide⟩
theorem witness_RegistersWrittenOnlyByTheirLabels :
    (∃ t, exec .rdCtl s3 = .next t) ∧ Instr.rdCtl ≠ .reset ∧ (∀ d, Instr.rdCtl ≠ .wrIe d) ∧
      (∀ d, Instr.rdCtl ≠ .wrData d) ∧ (∀ d, Instr.rdCtl ≠ .wrCtl d) ∧ (∀ d, Instr.rdCtl ≠ .wrBrlo d) ∧
      (∀ d, Instr.rdCtl ≠ .wrBrhi d) ∧ (∀ d, Instr.rdCtl ≠ .wrMod d) ∧ (∀ d, Instr.rdCtl ≠ .wrIp d) ∧
      ¬ s3.block.DeliveryBy .rdCtl ∧ ¬ s3.block.FrameEndBy .rdCtl ∧ ¬ s3.block.HoldEntryBy .rdCtl := by
  refine ⟨⟨_, rfl⟩, by simp, by simp, by simp, by simp, by simp, by simp, by simp, by simp, ?_, ?_, ?_⟩
  · rintro ⟨⟨r, h⟩, _⟩
    cases h
  · rintro ⟨⟨r, h⟩, _⟩
    cases h
  · rintro (h | ⟨d, h, _⟩) <;> cases h
theorem witness_LabelsLeaveTheRestAlone : (∃ t, exec .rdMod s3 = .next t) ∧ Instr.rdMod = Instr.ofRead .mod :=
  ⟨⟨_, rfl⟩, rfl⟩
theorem witness_WriteDataCases :
    State.reset.block.hold = true ∧ s3.block.hold = false ∧ s3.block.txPhase = .idle ∧
      (s3Tx 0x41 1 1).block.hold = false ∧ (s3Tx 0x41 1 1).block.txPhase = .bit ∧
      (s3Tx 0x41 1 1).block.txBit.toNat = 1 ∧ (s3Tx 0x41 8 0).block.txBit.toNat = 8 ∧
      (s3Tx 0x41 9 0).block.txBit.toNat = 9 := by decide
theorem witness_ReadDataAnswersRxbuf :
    (withBlock fun b => { b with rxbuf := some 0x41#8 }).block.rxbuf = some 0x41#8 ∧ State.reset.block.rxbuf = none := by
  decide
theorem witness_SamplingMarginAndWidths : 3 ≤ s3.block.br.toNat := by decide
theorem witness_TickRunsBothEngines :
    State.reset.block.hold = true ∧ stuck.block.Stuck ∧ s3.block.Running := ⟨rfl, stuck_stuck, s3_running⟩
theorem witness_TransmitterTick :
    s3.block.Running ∧ s3.block.txPhase = .idle ∧ (s3Tx 0x41 0 0).block.Running ∧ (s3Tx 0x41 0 0).block.txPhase = .bit ∧
      (s3Tx 0x41 0 1).block.txCnt.toNat + 1 < (s3Tx 0x41 0 1).block.bitLen 0 ∧
      (s3Tx 0x41 8 2).block.bitLen 8 ≤ (s3Tx 0x41 8 2).block.txCnt.toNat + 1 ∧
      (s3Tx 0x41 8 2).block.txBit.toNat < 9 ∧
      (s3Tx 0x41 9 2).block.bitLen 9 ≤ (s3Tx 0x41 9 2).block.txCnt.toNat + 1 ∧
      9 ≤ (s3Tx 0x41 9 2).block.txBit.toNat :=
  ⟨s3_running, rfl, ⟨rfl, by decide⟩, rfl, by decide, by decide, by decide, by decide, by decide⟩
theorem witness_TransmitterTick_wait :
    { s3.block with txPhase := .wait }.Running ∧ { s3.block with txPhase := .wait }.txPhase = .wait :=
  ⟨⟨rfl, by decide⟩, rfl⟩
theorem witness_ReceiverTickCounts_idle :
    s3.block.Running ∧ s3.block.Inv ∧ s3.block.rxPhase = .idle ∧ s3.block.rxPrev = true :=
  ⟨s3_running, s3_inv, rfl, rfl⟩
theorem witness_ReceiverTickCounts_bit :
    (s3Rx 8 2 0x5A).block.Running ∧ (s3Rx 8 2 0x5A).block.Inv ∧ (s3Rx 8 2 0x5A).block.rxPhase = .bit ∧
      (s3Rx 8 2 0x5A).block.rxCnt.toNat + 1 = (s3Rx 8 2 0x5A).block.bitLen 8 ∧
      (s3Rx 8 2 0x5A).block.rxCnt.toNat + 1 ≠ (s3Rx 8 2 0x5A).block.halfLen 8 ∧
      (s3Rx 8 1 0x5A).block.Inv ∧ (s3Rx 8 1 0x5A).block.rxCnt.toNat + 1 ≠ (s3Rx 8 1 0x5A).block.bitLen 8 ∧
      (s3Rx 8 1 0x5A).block.rxCnt.toNat + 1 ≠ (s3Rx 8 1 0x5A).block.halfLen 8 :=
  ⟨⟨rfl, by decide⟩, by constructor <;> decide, rfl, by decide, by decide, by constructor <;> decide, by decide, by decide⟩
theorem witness_ReceiverSamples :
    (s3Rx 0 0 0).block.Running ∧ (s3Rx 0 0 0).block.Inv ∧ (s3Rx 0 0 0).block.rxPhase = .bit ∧
      (s3Rx 0 0 0).block.rxCnt.toNat + 1 = (s3Rx 0 0 0).block.halfLen 0 ∧
      (s3Rx 1 0 0).block.Inv ∧ (s3Rx 1 0 0).block.rxCnt.toNat + 1 = (s3Rx 1 0 0).block.halfLen 1 ∧
      (s3Rx 8 0 0).block.Inv ∧ (s3Rx 8 0 0).block.rxCnt.toNat + 1 = (s3Rx 8 0 0).block.halfLen 8 ∧
      (s3Rx 9 0 0).block.Inv ∧ (s3Rx 9 0 0).block.rxCnt.toNat + 1 = (s3Rx 9 0 0).block.halfLen 9 :=
  ⟨⟨rfl, by decide⟩, by constructor <;> decide, rfl, by decide, by constructor <;> decide, by decide,
    by constructor <;> decide, by decide, by constructor <;> decide, by decide⟩
theorem witness_TickFrame : ∃ t, exec (.tick false) s3 = .next t := ⟨_, rfl⟩
theorem witness_StuckLowLineStartsNothing :
    { s3.block with rxPrev := false }.Running ∧ { s3.block with rxPrev := false }.rxPhase = .idle ∧
      { s3.block with rxPrev := false }.rxPrev = false := ⟨⟨rfl, by decide⟩, rfl, rfl⟩
/-- N_F = 30 at S3: the clauses' edges are at 0, 1, 28, 30 and 31 TICKs. -/
theorem witness_TransmitTiming :
    s3.block.Running ∧ s3.block.txPhase ≠ .bit ∧ ([] : List Bool).length = 0 ∧ 1 + s3.block.startLen 0 = 1 ∧
      1 + s3.block.startLen 9 = 28 ∧ s3.block.startLen 10 = 30 ∧ s3.block.frameLen = 30 :=
  ⟨s3_running, by decide, rfl, by decide, by decide, by decide, by decide⟩
/-- D4: a write in phase Wait. -/
theorem witness_TransmitTiming_wait :
    { s3.block with txPhase := .wait }.Running ∧ { s3.block with txPhase := .wait }.txPhase ≠ .bit :=
  ⟨⟨rfl, by decide⟩, by decide⟩
/-- D5 and D6: a write in bit-time 1 and one in the last TICK of the stop bit, where N_F = 30 is one TICK away. -/
theorem witness_OverwrittenFrameGoesOn :
    (s3Tx 0x41 1 1).block.Running ∧ (s3Tx 0x41 1 1).block.txPhase = .bit ∧ (s3Tx 0x41 1 1).block.txBit.toNat ≤ 9 ∧
      (s3Tx 0x41 1 1).block.txCnt.toNat < (s3Tx 0x41 1 1).block.bitLen 1 ∧
      (s3Tx 0x41 1 1).block.startLen 1 + 1 < (s3Tx 0x41 1 1).block.startLen 2 ∧
      (s3Tx 0x41 9 2).block.txCnt.toNat < (s3Tx 0x41 9 2).block.bitLen 9 ∧
      (s3Tx 0x41 9 2).block.startLen 9 + 2 + 1 = (s3Tx 0x41 9 2).block.frameLen ∧
      (s3Tx 0x41 9 2).block.startLen 9 + 2 + 0 < (s3Tx 0x41 9 2).block.frameLen :=
  ⟨⟨rfl, by decide⟩, rfl, by decide, by decide, by decide, by decide, by decide, by decide⟩
/-- T2: delivery at frame TICK 28. -/
theorem witness_FrameDeliversItsByte :
    s3.block.Running ∧ s3.block.rxPhase = .idle ∧ s3.block.rxPrev = true ∧
      s3.block.startLen 9 + s3.block.halfLen 9 = 28 := ⟨s3_running, rfl, rfl, by decide⟩
/-- E2: delivery at TICK 30 and TXIP at TICK 31. -/
theorem witness_LoopbackRoundTrip :
    s3.block.Running ∧ s3.block.txPhase = .idle ∧ s3.block.rxPhase = .idle ∧ s3.block.rxPrev = true ∧
      2 + s3.block.startLen 9 + s3.block.halfLen 9 = 30 ∧ 1 + s3.block.frameLen = 31 :=
  ⟨s3_running, rfl, rfl, rfl, by decide, by decide⟩
theorem witness_ReceiveDeadline :
    s3.block.Running ∧ s3.block.rxPhase = .idle ∧
      (List.replicate 28 true).length ≤ s3.block.startLen 9 + s3.block.halfLen 9 := ⟨s3_running, rfl, by decide⟩
theorem witness_ReferenceProcedureIsExact : 0 < 9600 ∧ 7 < 8 := by decide
theorem witness_PowerOnIsReset : ∃ t, exec .reset s3 = .next t := ⟨_, rfl⟩
theorem witness_InvariantsKeptByEveryStep :
    (s3.placeWord 0x4041#16).block.Inv ∧ ∃ t, step (s3.placeWord 0x4041#16) = .next t := ⟨s3_inv, _, rfl⟩
theorem witness_StuckOnlyByIllegalRelease_begins :
    ¬ State.reset.block.Stuck ∧ ∃ t, exec (.wrCtl 0x00#8) State.reset = .next t ∧ t.block.Stuck :=
  ⟨fun h => absurd h.1 (by decide), _, rfl, rfl, by decide⟩
theorem witness_StuckOnlyByIllegalRelease_ends :
    stuck.block.Stuck ∧ ∃ t, exec .reset stuck = .next t := ⟨stuck_stuck, _, rfl⟩
theorem witness_MarkersAreSticky :
    (∃ t, step ({ s3 with refused := true, block := { s3.block with faults := ⟨true, true, true⟩ } }.placeWord
      0xC000#16) = .next t) ∧ ∀ c, (⟨true, true, true⟩ : Faults).has c = true :=
  ⟨⟨_, rfl⟩, fun c => by cases c <;> rfl⟩
theorem witness_MarkerCauses_new :
    ∃ t, exec (.wrData 0x42#8) (s3Tx 0x41 1 1) = .next t ∧ t.block.faults.has .txWriteWhileBusy = true ∧
      (s3Tx 0x41 1 1).block.faults.has .txWriteWhileBusy = false := ⟨_, rfl, by decide, by decide⟩
theorem witness_FlagEvents : ∃ t, exec (.tick true) (s3Rx 9 0 0xA5) = .next t := ⟨_, rfl⟩
theorem witness_FlagsLatchAndAreServiceable :
    { s3.block with rxip := true }.hold = false ∧ { s3.block with rxip := true }.rxip = true ∧ (0x01#8)[0] = true ∧
      (∀ i ∈ [Instr.wrIp 0x02#8], i ≠ .reset ∧ (∀ e : Byte, i = .wrCtl e → e[0] = false) ∧
        (∀ e : Byte, i = .wrIp e → e[0] = false)) ∧
      ∃ t, runLabels [.wrIp 0x02#8] { s3 with block := { s3.block with rxip := true } } = .next t := by
  refine ⟨rfl, rfl, by decide, fun i hi => ?_, _, rfl⟩
  rw [List.mem_singleton.mp hi]
  exact ⟨by decide, fun e h => absurd h (by simp), fun e h => by cases h; decide⟩
theorem witness_FlagsLatchAndAreServiceable_tx :
    State.reset.block.txip = true ∧ (0x02#8)[1] = true ∧
      (∀ i ∈ [Instr.wrIp 0x01#8, .reset], ∀ e : Byte, i = .wrIp e → e[1] = false) ∧
      ∃ t, runLabels [.wrIp 0x01#8, .reset] State.reset = .next t := by
  refine ⟨rfl, by decide, fun i hi e h => ?_, _, rfl⟩
  subst h
  simp only [List.mem_cons, Instr.wrIp.injEq, List.not_mem_nil, or_false, reduceCtorEq] at hi
  subst hi
  decide
theorem witness_DisabledInterruptsStayLow :
    (∀ i ∈ [Instr.rdIp], ∀ d, i ≠ .wrIe d) ∧
      ∃ t, runLabels (DriverOp.labels .disableInterrupts ++ [.rdIp]) s3 = .next t := by
  refine ⟨fun i hi d => ?_, _, rfl⟩
  rw [List.mem_singleton.mp hi]
  simp
theorem witness_ReceiveClearWindows :
    (s3Rx 9 0 0xA5).block.DeliveryBy (.tick true) ∧
      ({ (s3Rx 9 0 0xA5).block with rxUnread := true }.DeliveryBy (.tick true) ∧
        { (s3Rx 9 0 0xA5).block with rxUnread := true }.rxUnread = true) :=
  ⟨s3Rx_stop_delivers, ⟨⟨true, rfl⟩, ⟨rfl, by decide⟩, rfl, rfl, by decide⟩, rfl⟩
theorem witness_MarkersChangeNoOutput :
    (∃ t, step (s3.placeWord 0x0000#16) = .next t) ∧ step (stuck.placeWord 0x8001#16) = .fault .tickStuck ∧
      step State.reset = .refused .noTurn := ⟨⟨_, rfl⟩, rfl, rfl⟩
theorem witness_IdleTxbufIsUnseen :
    s3.block.txPhase = .idle ∧ ∃ t, exec (.wrData 0x41#8) s3 = .next t ∧ t.block.txPhase ≠ .idle :=
  ⟨rfl, _, rfl, by decide⟩
/-- In bit-time 2 after its sample, bits 0 and 1 are sampled and bit 2 is not. -/
theorem witness_UnsampledShiftBitsAreUnseen :
    (s3Rx 2 1 0x03).block.Inv ∧ (s3Rx 2 1 0x03).block.Sampled 1 ∧ ¬ (s3Rx 2 1 0x03).block.Sampled 2 ∧
      (∀ k, k < 8 → (s3Rx 2 1 0x03).block.Sampled k → (0xFF#8).getLsbD k = (s3Rx 2 1 0x03).block.rxShift.getLsbD k) ∧
      ∃ t, exec (.tick true) (s3Rx 2 1 0x03) = .next t := by
  refine ⟨by constructor <;> decide, ⟨rfl, .inr ⟨rfl, by decide⟩⟩, fun h => ?_, fun k _ h => ?_, _, rfl⟩
  · rcases h.2 with h | h
    · exact absurd h (by decide)
    · exact absurd h.1 (by decide)
  · have hk : k + 1 ≤ 2 := by
      rcases h.2 with h | h
      · exact Nat.le_of_lt h
      · exact Nat.le_of_eq h.1
    rcases k with _ | _ | k
    · rfl
    · rfl
    · omega
theorem witness_InitConfiguresTheBlock : State.reset.block.hold = true ∧ s3.block.hold = false := by decide
/-- A state with a timer expiry pending and the host's dispatch step next. -/
def timerDispatch : State := { s3 with schedule := [.dispatch .timer], host := { s3.host with timerPending := 1 } }
theorem witness_DispatchWithoutNesting_enters :
    timerDispatch.schedule = [.dispatch .timer] ∧ timerDispatch.host.inHandler = none ∧
      timerDispatch.pending .timer = true := by decide
theorem witness_DispatchWithoutNesting_both_pending :
    { s3 with block := { s3.block with rxie := true, txie := true, rxip := true, txip := true } }.pending .rx = true ∧
      { s3 with block := { s3.block with rxie := true, txie := true, rxip := true, txip := true } }.pending .tx = true := by
  decide
theorem witness_DispatchWithoutNesting_busy :
    { inHandler .rx [] none s3 with schedule := [.dispatch .tx] }.host.inHandler ≠ none ∧
      { inHandler .rx [] none s3 with schedule := [.dispatch .tx] }.schedule = [.dispatch .tx] ∧
      { inHandler .rx [] none s3 with schedule := [.main] }.host.inHandler ≠ none ∧
      { inHandler .rx [] none s3 with schedule := [.main] }.schedule = [.main] := by decide
/-- A state in the rx handler with a byte received. -/
def inRxIsr (viaCallback : Bool) : State :=
  inHandler .rx (rxIsr viaCallback) (if viaCallback then some .echoRx else none)
    (withBlock fun b => { b with rxbuf := some 0x41#8 })
theorem witness_RxIsrEchoesOnce (viaCallback : Bool) :
    (inRxIsr viaCallback).host.inHandler = some .rx ∧ (inRxIsr viaCallback).host.handlerTodo = rxIsr viaCallback ∧
      (inRxIsr viaCallback).block.rxbuf = some 0x41#8 ∧
      (inRxIsr viaCallback).host.rxCb = (if viaCallback then some .echoRx else none) := ⟨rfl, rfl, rfl, rfl⟩
theorem witness_MissingCallbacksAreNoOps :
    (inHandler .tx txIsr none s3).host.inHandler = some .tx ∧
      (inHandler .tx txIsr none s3).host.handlerTodo = txIsr ∧ (inHandler .tx txIsr none s3).host.txCb = none ∧
      (inHandler .rx (rxIsr true) none s3).host.inHandler = some .rx ∧
      (inHandler .rx (rxIsr true) none s3).host.handlerTodo = rxIsr true ∧
      (inHandler .rx (rxIsr true) none s3).host.rxCb = none := by decide
theorem witness_TimerHandlerWritesOnce :
    (inHandler .timer (timerIsr 0x58#8) none s3).host.inHandler = some .timer ∧
      (inHandler .timer (timerIsr 0x58#8) none s3).host.handlerTodo = timerIsr 0x58#8 := by decide
theorem witness_EchoStartupOrder :
    State.reset.host.inHandler = none ∧ State.reset.host.waiting = false ∧
      { State.reset.host with mainTodo := echoMain true .baud9600 }.mainTodo = echoMain true .baud9600 := ⟨rfl, rfl, rfl⟩
theorem witness_HostTurnsNeverStop :
    { s3 with schedule := [.handler] }.schedule = [.handler] ∧ ∀ w, Turn.handler ≠ .label w := ⟨rfl, fun _ => by simp⟩

/-- S3 in the tx handler with one act, then the clear, to run, and one variable set. -/
def inProc (a : HostAct) : State :=
  let s := inHandler .tx [a, .bus (.wr .ip 0x02#8)] none s3
  { s with host := { s.host with vars := [(2, 7)], handlerByte := 0x41#8 } }
theorem witness_HostProceduresComputeOnTheByteRead (a : HostAct) :
    (inProc a).host.inHandler = some .tx ∧ [HostAct.bus (.wr .ip 0x02#8)] ≠ [] ∧
      (inProc a).host.handlerTodo = a :: [.bus (.wr .ip 0x02#8)] ∧ (inProc a).host.varsOk = true :=
  ⟨rfl, by simp, rfl, rfl⟩
theorem witness_HostProceduresComputeOnTheByteRead_call :
    { (inProc .callTx).host with txCb := some (.user 0) }.handlerTodo = txIsr ∧
      { (inProc .callRx).host with handlerTodo := rxIsr true, rxCb := some (.user 0) }.handlerTodo = rxIsr true :=
  ⟨rfl, rfl⟩
/-- A branch on the byte read, 0x41, enters the first of its procedures only where the byte is 0x41. -/
theorem test_host_branch :
    (nextOf (handlerStep { inProc (.branch (.app .eq .byte (.const 0x41)) 0 1) with
      host := { (inProc (.branch (.app .eq .byte (.const 0x41)) 0 1)).host with procs := [[.toggleRx], [.toggleTimer]] }
      })).any (fun t => t.host.handlerTodo == [.toggleRx, .bus (.wr .ip 0x02#8)]) = true := by decide
/-- TXBUF takes the low byte of a computed value. -/
theorem test_host_write :
    (nextOf (handlerStep (inProc (.write .data (.app .add .byte (.const 0x1FF)))))).any
      (fun t => t.block.txbuf == 0x40#8) = true := by decide
theorem test_host_assign :
    (nextOf (handlerStep (inProc (.assign (.const 1) (.app .sub (.var (.const 2)) (.const 3)))))).any
      (fun t => t.host.vars == [(1, 4), (2, 7)]) = true := by decide

end Sys2Proof.Tests
end

