-- ==== Sys2Proof/Proofs/Memory.lean ====
section
/-! PROOFS. The registers on the bus: their reserved bits, and that every access is answered (20_memory.md). -/

namespace Sys2Proof.Machine

/-! ### The labels of CTL, IE and IP -/

@[simp] theorem exec_rdCtl (s : State) : exec .rdCtl s = .next (s.answer s.block.ctlByte) := rfl
@[simp] theorem exec_rdIe (s : State) : exec .rdIe s = .next (s.answer s.block.ieByte) := rfl
@[simp] theorem exec_rdIp (s : State) : exec .rdIp s = .next (s.answer s.block.ipByte) := rfl

@[simp] theorem exec_wrCtl (d : Byte) (s : State) :
    exec (.wrCtl d) s = .next (s.onBlock (Block.writeCtl d)) := rfl
@[simp] theorem exec_wrIe (d : Byte) (s : State) :
    exec (.wrIe d) s = .next (s.onBlock fun b => { b with rxie := d[0], txie := d[1] }) := rfl
@[simp] theorem exec_wrIp (d : Byte) (s : State) :
    exec (.wrIp d) s = .next (s.onBlock (Block.clearFlags d)) := rfl

/-! ### Reserved bits ignore writes -/

theorem Block.writeCtl_eq_of_low_bits {d e : Byte} (h0 : d[0] = e[0]) (h1 : d[1] = e[1]) :
    Block.writeCtl d = Block.writeCtl e := by
  funext b
  simp only [Block.writeCtl, h0, h1]

theorem Block.clearFlags_eq_of_low_bits {d e : Byte} (h0 : d[0] = e[0]) (h1 : d[1] = e[1]) :
    Block.clearFlags d = Block.clearFlags e := by
  funext b
  simp only [Block.clearFlags, h0, h1]

/-! ### Reserved bits read as zero -/

/-- The six reserved bits of a register with two fields. -/
theorem twoBits_getLsbD_reserved (b1 b0 : Bool) {k : Nat} (hk : 2 ≤ k) :
    (twoBits b1 b0).getLsbD k = false := by
  have h0 : k ≠ 0 := by omega
  have h1 : k ≠ 1 := by omega
  rw [twoBits_getLsbD, if_neg h0, if_neg h1]

/-- CTL, IE and IP each answer a read with their two fields. -/
theorem exec_ofRead_twoBits (reg : Reg) (s : State) (h : reg = .ctl ∨ reg = .ie ∨ reg = .ip) :
    ∃ b1 b0, exec (Instr.ofRead reg) s = .next (s.answer (twoBits b1 b0)) := by
  rcases h with rfl | rfl | rfl
  · exact ⟨s.block.clksel, s.block.hold, exec_rdCtl s⟩
  · exact ⟨s.block.txie, s.block.rxie, exec_rdIe s⟩
  · exact ⟨s.block.txip, s.block.rxip, exec_rdIp s⟩

/-! ### Every byte may be written to every register -/

theorem ofWrite_ne_tick (reg : Reg) (d : Byte) (r : Bool) : Instr.ofWrite reg d ≠ .tick r := by
  cases reg <;> simp [Instr.ofWrite]

/-- Settles O15: a write of CTL, IE or IP looks at bits 0 and 1 alone, a read answers two fields under six zeros, and no
WRITE label is a TICK, the only label that can stop. -/
theorem reservedBitsReadZeroIgnoreWrites : Obligations.ReservedBitsReadZeroIgnoreWrites := by
  refine ⟨fun d e s h0 h1 => ⟨?ctl, ?ie, ?ip⟩, fun reg s hreg => ?read, fun reg d s => ?write⟩
  case ctl => rw [exec_wrCtl, exec_wrCtl, Block.writeCtl_eq_of_low_bits h0 h1]
  case ie => rw [exec_wrIe, exec_wrIe, h0, h1]
  case ip => rw [exec_wrIp, exec_wrIp, Block.clearFlags_eq_of_low_bits h0 h1]
  case read =>
    obtain ⟨b1, b0, h⟩ := exec_ofRead_twoBits reg s hreg
    exact ⟨_, _, h, State.answer_answers _ s, fun _ hk => twoBits_getLsbD_reserved b1 b0 hk⟩
  case write => exact exec_next_of_not_tick _ s (ofWrite_ne_tick reg d)

end Sys2Proof.Machine
end

