-- ==== Sys2Proof/Proofs/Encoding.lean ====
section
/-! PROOFS. The words: what the decoder reads is laid out by the encoder, and the opcode map selects exactly what the
decoder accepts (30_encoding.md). -/

namespace Sys2Proof

/-! ### A word is the layout of its fields -/

@[simp] theorem Reg.addr_ofAddr (a : BitVec 3) : (Reg.ofAddr a).addr = a := by
  revert a
  decide

@[simp] theorem encode_ofRead (reg : Reg) : encode (Instr.ofRead reg) = readWord reg := by cases reg <;> rfl

@[simp] theorem encode_ofWrite (reg : Reg) (data : Byte) : encode (Instr.ofWrite reg data) = writeWord reg data := by
  cases reg <;> rfl

theorem labelWord_fields {w : Word} (hz : w.extractLsb' 11 3 = 0#3) :
    labelWord (w.extractLsb' 14 2) (w.extractLsb' 8 3) (w.extractLsb' 0 8) = w := by
  rw [labelWord, ← hz, BitVec.extractLsb'_append_extractLsb'_eq_extractLsb' (show 14 = 11 + 3 from rfl),
    BitVec.extractLsb'_append_extractLsb'_eq_extractLsb' (show 11 = 8 + 3 from rfl),
    BitVec.extractLsb'_append_extractLsb'_eq_extractLsb' (show 8 = 0 + 8 from rfl)]
  exact BitVec.extractLsb'_eq_self

theorem readWord_fields {w : Word} (hk : w.extractLsb' 14 2 = 0b00#2) (hz : Word.readZeros w = true) :
    readWord (Reg.ofAddr (w.extractLsb' 8 3)) = w := by
  obtain ⟨hmid, hlow⟩ : w.extractLsb' 11 3 = 0#3 ∧ w.extractLsb' 0 8 = 0#8 := by simpa [Word.readZeros] using hz
  rw [readWord, Reg.addr_ofAddr, ← hk, ← hlow, labelWord_fields hmid]

theorem writeWord_fields {w : Word} (hk : w.extractLsb' 14 2 = 0b01#2) (hz : Word.writeZeros w = true) :
    writeWord (Reg.ofAddr (w.extractLsb' 8 3)) (w.extractLsb' 0 8) = w := by
  rw [writeWord, Reg.addr_ofAddr, ← hk, labelWord_fields (by simpa [Word.writeZeros] using hz)]

theorem tickWord_fields {w : Word} (hk : w.extractLsb' 14 2 = 0b10#2) (hz : Word.tickZeros w = true) :
    tickWord w[0] = w := by
  have hr : BitVec.ofBool w[0] = w.extractLsb' 0 1 := by
    ext i hi
    obtain rfl : i = 0 := by omega
    simp
  have hmid : w.extractLsb' 1 13 = 0#13 := by simpa [Word.tickZeros] using hz
  calc tickWord w[0] = 0b10#2 ++ 0#13 ++ BitVec.ofBool w[0] := by cases w[0] <;> rfl
    _ = w.extractLsb' 14 2 ++ w.extractLsb' 1 13 ++ w.extractLsb' 0 1 := by rw [hk, hmid, hr]
    _ = w := by
      rw [BitVec.extractLsb'_append_extractLsb'_eq_extractLsb' (show 14 = 1 + 13 from rfl),
        BitVec.extractLsb'_append_extractLsb'_eq_extractLsb' (show 1 = 0 + 1 from rfl)]
      exact BitVec.extractLsb'_eq_self

theorem resetWord_fields {w : Word} (hk : w.extractLsb' 14 2 = 0b11#2) (hz : Word.resetZeros w = true) :
    resetWord = w := by
  have hlow : w.extractLsb' 0 14 = 0#14 := by simpa [Word.resetZeros] using hz
  calc resetWord = 0b11#2 ++ 0#14 := rfl
    _ = w.extractLsb' 14 2 ++ w.extractLsb' 0 14 := by rw [hk, hlow]
    _ = w := by
      rw [BitVec.extractLsb'_append_extractLsb'_eq_extractLsb' (show 14 = 0 + 14 from rfl)]
      exact BitVec.extractLsb'_eq_self

/-! ### The decoder against the encoder and the must-be-zero checks -/

/-- A kind that is not READ, WRITE or TICK is RESET (R57). -/
theorem kind_eq_reset {k : BitVec 2} : k ≠ 0b00#2 → k ≠ 0b01#2 → k ≠ 0b10#2 → k = 0b11#2 := by
  revert k
  decide

theorem encode_eq_of_decode {w : Word} {i : Instr} (h : decode w = .ok i) : encode i = w := by
  unfold decode at h
  split at h
  next hread =>
    split at h <;> cases h
    next hz => rw [encode_ofRead, readWord_fields hread hz]
  next hread =>
  split at h
  next hwrite =>
    split at h <;> cases h
    next hz => rw [encode_ofWrite, writeWord_fields hwrite hz]
  next hwrite =>
  split at h
  next htick =>
    split at h <;> cases h
    next hz => exact tickWord_fields htick hz
  next htick =>
    split at h <;> cases h
    next hz => exact resetWord_fields (kind_eq_reset hread hwrite htick) hz

/-- The decoder accepts exactly the well-formed words (R62). -/
theorem decode_isOk (w : Word) : (decode w).isOk = Word.wf w := by
  unfold decode Word.wf
  simp only [beq_iff_eq]
  split
  · cases Word.readZeros w <;> rfl
  split
  · cases Word.writeZeros w <;> rfl
  split
  · cases Word.tickZeros w <;> rfl
  · cases Word.resetZeros w <;> rfl

/-! ### The opcode map -/

/-- Every label is alone in its row of the opcode map. -/
theorem Instr.inItsRow : ∀ i : Instr, Laws.InItsRow.Statement i
  | .rdData => Laws.InItsRow.rdData
  | .rdCtl => Laws.InItsRow.rdCtl
  | .rdBrlo => Laws.InItsRow.rdBrlo
  | .rdBrhi => Laws.InItsRow.rdBrhi
  | .rdMod => Laws.InItsRow.rdMod
  | .rdIe => Laws.InItsRow.rdIe
  | .rdIp => Laws.InItsRow.rdIp
  | .rdRsvd => Laws.InItsRow.rdRsvd
  | .wrData data => Laws.InItsRow.wrData data
  | .wrCtl data => Laws.InItsRow.wrCtl data
  | .wrBrlo data => Laws.InItsRow.wrBrlo data
  | .wrBrhi data => Laws.InItsRow.wrBrhi data
  | .wrMod data => Laws.InItsRow.wrMod data
  | .wrIe data => Laws.InItsRow.wrIe data
  | .wrIp data => Laws.InItsRow.wrIp data
  | .wrRsvd data => Laws.InItsRow.wrRsvd data
  | .tick r => Laws.InItsRow.tick r
  | .reset => Laws.InItsRow.reset

/-- A field under the row's mask is the pattern's in every word that the row selects. -/
theorem OpcodeRow.field_of_selects {row : OpcodeRow} {w : Word} (h : row.selects w = true) {k n : Nat}
    (hm : row.mask.extractLsb' k n = BitVec.allOnes n) : w.extractLsb' k n = row.pattern.extractLsb' k n := by
  have hp : w &&& row.mask = row.pattern := by simpa [OpcodeRow.selects] using h
  rw [← hp, BitVec.extractLsb'_and, hm, BitVec.and_allOnes]

/-- Every row of the opcode map has a well-formed pattern, and its mask covers the kind and the must-be-zero bits of
that kind. -/
theorem opcodeTable_masks : ∀ row ∈ opcodeTable, Word.wf row.pattern = true ∧
    row.mask.extractLsb' 14 2 = BitVec.allOnes 2 ∧
    (row.pattern.extractLsb' 14 2 = 0b00#2 →
      row.mask.extractLsb' 11 3 = BitVec.allOnes 3 ∧ row.mask.extractLsb' 0 8 = BitVec.allOnes 8) ∧
    (row.pattern.extractLsb' 14 2 = 0b01#2 → row.mask.extractLsb' 11 3 = BitVec.allOnes 3) ∧
    (row.pattern.extractLsb' 14 2 = 0b10#2 → row.mask.extractLsb' 1 13 = BitVec.allOnes 13) ∧
    (row.pattern.extractLsb' 14 2 = 0b11#2 → row.mask.extractLsb' 0 14 = BitVec.allOnes 14) := by decide

/-- A word that a row of the opcode map selects is well formed, as the row's pattern is: the two agree on the kind and
on its must-be-zero bits. -/
theorem wf_of_selects {row : OpcodeRow} {w : Word} (hrow : row ∈ opcodeTable) (h : row.selects w = true) :
    Word.wf w = true := by
  obtain ⟨hwf, hkind, hread, hwrite, htick, hreset⟩ := opcodeTable_masks row hrow
  rw [← hwf, Word.wf, Word.wf, OpcodeRow.field_of_selects h hkind]
  by_cases h0 : row.pattern.extractLsb' 14 2 = 0b00#2
  · obtain ⟨hmid, hlow⟩ := hread h0
    simp [h0, Word.readZeros, OpcodeRow.field_of_selects h hmid, OpcodeRow.field_of_selects h hlow]
  by_cases h1 : row.pattern.extractLsb' 14 2 = 0b01#2
  · simp [h1, Word.writeZeros, OpcodeRow.field_of_selects h (hwrite h1)]
  by_cases h2 : row.pattern.extractLsb' 14 2 = 0b10#2
  · simp [h2, Word.tickZeros, OpcodeRow.field_of_selects h (htick h2)]
  · simp [h0, h1, h2, Word.resetZeros, OpcodeRow.field_of_selects h (hreset (kind_eq_reset h0 h1 h2))]

/-- Settles O4: a word that decodes is its label's word, which is alone in its row; a refused word is not well formed,
and every word that a row selects is. -/
theorem decoderAgreesWithOpcodeMap : Obligations.DecoderAgreesWithOpcodeMap := by
  refine ⟨fun w i h => ?_, fun w e h => ?_⟩
  · obtain ⟨-, hrow⟩ := i.inItsRow
    rwa [encode_eq_of_decode h] at hrow
  · have hwf : Word.wf w = false := by rw [← decode_isOk, h]; rfl
    refine List.filter_eq_nil_iff.mpr fun row hrow hsel => ?_
    rw [wf_of_selects hrow hsel] at hwf
    cases hwf

end Sys2Proof
end

