-- ==== Sys2Proof/Proofs/RegisterAccess.lean ====
section
/-! PROOFS. The register access labels: what each read answers and what each write changes, in every state
(40_register_access.md). -/

namespace Sys2Proof.Machine

/-! ### The labels of BR, MOD and the reserved address -/

@[simp] theorem exec_rdBrlo (s : State) : exec .rdBrlo s = .next (s.answer s.block.brlo) := rfl
@[simp] theorem exec_rdBrhi (s : State) : exec .rdBrhi s = .next (s.answer s.block.brhi) := rfl
@[simp] theorem exec_rdMod (s : State) : exec .rdMod s = .next (s.answer s.block.mod) := rfl
@[simp] theorem exec_rdRsvd (s : State) : exec .rdRsvd s = .next (s.answer 0x00#8) := rfl

@[simp] theorem exec_wrBrlo (d : Byte) (s : State) :
    exec (.wrBrlo d) s = .next (s.onBlock (Block.ifHeld fun b => { b with brlo := d })) := rfl
@[simp] theorem exec_wrBrhi (d : Byte) (s : State) :
    exec (.wrBrhi d) s = .next (s.onBlock (Block.ifHeld fun b => { b with brhi := d })) := rfl
@[simp] theorem exec_wrMod (d : Byte) (s : State) :
    exec (.wrMod d) s = .next (s.onBlock (Block.ifHeld fun b => { b with mod := d })) := rfl
@[simp] theorem exec_wrRsvd (d : Byte) (s : State) : exec (.wrRsvd d) s = .next s := rfl

/-! ### Reads of the registers with two fields -/

/-- A byte of two fields holds one in bit 0, the other in bit 1 and zeros above them (R50). -/
theorem twoBits_fields (b1 b0 : Bool) :
    (twoBits b1 b0)[0] = b0 ∧ (twoBits b1 b0)[1] = b1 ∧ ∀ k, 2 ≤ k → (twoBits b1 b0).getLsbD k = false :=
  ⟨twoBits_getLsbD b1 b0 0, twoBits_getLsbD b1 b0 1, fun _ hk => twoBits_getLsbD_reserved b1 b0 hk⟩

/-- Settles O8: CTL, IE and IP each answer their two fields laid out in one byte. -/
theorem readsOfFieldRegisters : Obligations.ReadsOfFieldRegisters :=
  ⟨rfl, rfl, rfl, fun s => ⟨⟨_, exec_rdCtl s, twoBits_fields s.block.clksel s.block.hold⟩,
    ⟨_, exec_rdIe s, twoBits_fields s.block.txie s.block.rxie⟩,
    ⟨_, exec_rdIp s, twoBits_fields s.block.txip s.block.rxip⟩⟩⟩

/-! ### Reads of the registers of one byte -/

theorem Block.br_low (b : Block) : b.br.extractLsb' 0 8 = b.brlo := extract_low b.brhi b.brlo

theorem Block.br_high (b : Block) : b.br.extractLsb' 8 8 = b.brhi :=
  (extract_high b.brhi b.brlo 0 8).trans BitVec.extractLsb'_eq_self

/-- Settles O9: BRLO and BRHI are the two bytes of BR. -/
theorem readsOfByteRegisters : Obligations.ReadsOfByteRegisters := by
  refine ⟨rfl, rfl, rfl, rfl, fun s => ⟨?_, ?_, exec_rdMod s, exec_rdRsvd s⟩⟩
  · rw [Block.br_low]
    exact exec_rdBrlo s
  · rw [Block.br_high]
    exact exec_rdBrhi s

/-! ### Configuration writes -/

/-- An operation on the block leaves a state that differs in the block alone. -/
theorem State.onBlock_of_eq {f : Block → Block} {s : State} {b : Block} (h : f s.block = b) :
    s.onBlock f = { s with block := b } := by
  rw [State.onBlock, h]

/-- A configuration write is the whole state's write while held, and no change otherwise (R86). -/
theorem State.onBlock_ifHeld (f : Block → Block) (s : State) :
    s.onBlock (Block.ifHeld f) = if s.block.hold then { s with block := f s.block } else s := by
  rcases Block.ifHeld_cases f s.block with ⟨hold, h⟩ | ⟨hold, h⟩
  · rw [hold, if_pos rfl, State.onBlock_of_eq h]
  · rw [hold, if_neg Bool.false_ne_true, State.onBlock_of_eq h]

/-- Settles O10: BRLO, BRHI and MOD are each written through the same check of HOLD. -/
theorem configWritesOnlyInHold : Obligations.ConfigWritesOnlyInHold := by
  refine fun d s => ⟨rfl, rfl, rfl, ?_, ?_, ?_⟩
  · rw [exec_wrBrlo, State.onBlock_ifHeld]
  · rw [exec_wrBrhi, State.onBlock_ifHeld]
  · rw [exec_wrMod, State.onBlock_ifHeld]

/-! ### Writes of CTL -/

/-- A write of CTL answers the state with the block that the write leaves. -/
theorem exec_wrCtl_of_eq {d : Byte} {s : State} {b : Block} (h : s.block.writeCtl d = b) :
    exec (.wrCtl d) s = .next { s with block := b } := by
  rw [exec_wrCtl, State.onBlock_of_eq h]

theorem Block.release_of_legal {b : Block} (h : 3 ≤ b.br.toNat) : b.release = b := by
  rcases b.release_cases with ⟨hlt, -⟩ | ⟨-, e⟩
  · omega
  · exact e

theorem Block.release_of_illegal {b : Block} (h : b.br.toNat < 3) : b.release = b.raise .illegalDivisor := by
  rcases b.release_cases with ⟨-, e⟩ | ⟨hge, -⟩
  · exact e
  · omega

/-- HOLD = 1 is written again: only CLKSEL is taken. -/
theorem Block.writeCtl_held {d : Byte} {b : Block} (hold : b.hold = true) (h0 : d[0] = true) :
    b.writeCtl d = { b with clksel := d[1] } := by
  simpa [hold, h0] using b.writeCtl_cases d

/-- HOLD goes from 1 to 0: CLKSEL is taken and the block is released. -/
theorem Block.writeCtl_release {d : Byte} {b : Block} (hold : b.hold = true) (h0 : d[0] = false) :
    b.writeCtl d = Block.release { b with clksel := d[1], hold := false } := by
  simpa [hold, h0] using b.writeCtl_cases d

/-- HOLD = 0 is written again: no effect. -/
theorem Block.writeCtl_running {d : Byte} {b : Block} (hold : b.hold = false) (h0 : d[0] = false) :
    b.writeCtl d = b := by
  simpa [hold, h0] using b.writeCtl_cases d

/-- HOLD goes from 0 to 1: hold entry, with CLKSEL kept. -/
theorem Block.writeCtl_enters {d : Byte} {b : Block} (hold : b.hold = false) (h0 : d[0] = true) :
    b.writeCtl d = Block.holdEntry { b with hold := true } := by
  simpa [hold, h0] using b.writeCtl_cases d

/-- Settles O11: the four changes of HOLD, and for the release its two cases of the divisor, which the write of CTL does
not change. -/
theorem writeCtlCases : Obligations.WriteCtlCases := by
  refine fun d s => ⟨rfl, fun hold h0 => ?held, fun hold h0 hbr => ?legal, fun hold h0 hbr => ?illegal,
    fun hold h0 => ?running, fun hold h0 => ?enters⟩
  case held => exact exec_wrCtl_of_eq (Block.writeCtl_held hold h0)
  case legal => exact exec_wrCtl_of_eq ((Block.writeCtl_release hold h0).trans (Block.release_of_legal hbr))
  case illegal => exact exec_wrCtl_of_eq ((Block.writeCtl_release hold h0).trans (Block.release_of_illegal hbr))
  case running => exact exec_wrCtl_of_eq (Block.writeCtl_running hold h0)
  case enters => exact exec_wrCtl_of_eq (Block.writeCtl_enters hold h0)

/-! ### Writes of IE, IP and the reserved address -/

/-- Settles O12: the enables are the two written bits, and each line is its enable with its flag, so that it follows. -/
theorem writeIeSetsEnables : Obligations.WriteIeSetsEnables :=
  fun d s => ⟨rfl, _, exec_wrIe d s, rfl, rfl, rfl⟩

/-- A flag is cleared where its bit is written 1 and kept where it is written 0 (R83). -/
theorem Block.clearFlags_eq_ite (d : Byte) (b : Block) :
    b.clearFlags d =
      { b with rxip := if d[0] then false else b.rxip, txip := if d[1] then false else b.txip } := by
  have clears (flag bit : Bool) : (flag && !bit) = if bit then false else flag := by
    cases bit <;> simp
  rw [Block.clearFlags, clears, clears]

/-- Settles O13: the flags are cleared by their bits and no other field is written. -/
theorem writeIpClearsFlags : Obligations.WriteIpClearsFlags := by
  refine fun d s => ⟨rfl, ?_⟩
  rw [exec_wrIp, State.onBlock_of_eq (Block.clearFlags_eq_ite d s.block)]

/-- Settles O14: the label's effect is the state itself. -/
theorem writeRsvdDoesNothing : Obligations.WriteRsvdDoesNothing := fun d s => ⟨rfl, exec_wrRsvd d s⟩

end Sys2Proof.Machine
end

