-- ==== Sys2Proof/Proofs/DataPath.lean ====
section
/-! PROOFS. The data path labels: the three cases of a write of DATA, and what a read of DATA answers
(41_data_path.md). -/

namespace Sys2Proof.Machine

/-! ### Writes of DATA -/

@[simp] theorem exec_wrData (d : Byte) (s : State) :
    exec (.wrData d) s = .next (s.onBlock (Block.writeData d)) := rfl

/-- A write of DATA answers the state with the block that the write leaves. -/
theorem exec_wrData_of_eq {d : Byte} {s : State} {b : Block} (h : s.block.writeData d = b) :
    exec (.wrData d) s = .next { s with block := b } := by
  rw [exec_wrData, State.onBlock_of_eq h]

/-- HOLD = 1: the write is ignored. -/
theorem Block.writeData_held {d : Byte} {b : Block} (hold : b.hold = true) : b.writeData d = b := by
  simpa [hold] using b.writeData_cases d

/-- The transmitter is Idle: the byte is accepted and waits for a TICK. -/
theorem Block.writeData_idle {d : Byte} {b : Block} (hold : b.hold = false) (idle : b.txPhase = .idle) :
    b.writeData d = { b with txbuf := d, txPhase := .wait } := by
  simpa [hold, idle] using b.writeData_cases d

/-- The transmitter is busy: the slot is overwritten under the marker. -/
theorem Block.writeData_busy {d : Byte} {b : Block} (hold : b.hold = false) (busy : b.txPhase ≠ .idle) :
    b.writeData d = { b with txbuf := d, faults := { b.faults with txWriteWhileBusy := true } } := by
  simpa [hold, busy, Block.raise, Faults.mark] using b.writeData_cases d

/-- While a frame is sent, txd shows the bit of the current bit-time (R95). -/
theorem Block.txd_of_bit {b : Block} (h : b.txPhase = .bit) : b.txd = frameBit b.txbuf b.txBit.toNat := by
  rw [Block.txd, h]

/-- In bit-times 1 to 8 txd shows TXBUF, least significant bit first (R93). -/
theorem Block.txd_of_dataBit {b : Block} {k : Nat} (h : b.txPhase = .bit) (h1 : 1 ≤ k) (h8 : k ≤ 8)
    (hk : b.txBit.toNat = k) : b.txd = b.txbuf.getLsbD (k - 1) := by
  rw [Block.txd_of_bit h, hk, frameBit_data b.txbuf k h1 h8]

/-- In bit-time 9 txd shows the stop bit, whatever TXBUF holds (R93). -/
theorem Block.txd_of_stopBit {b : Block} (h : b.txPhase = .bit) (h9 : b.txBit.toNat = 9) : b.txd = true := by
  rw [Block.txd_of_bit h, h9, frameBit_stop]

/-- Settles O19: the three cases of the write; a busy write keeps the bit-time, so that a data bit shown is one of the
new byte, and the stop bit is the same for every byte. -/
theorem writeDataCases : Obligations.WriteDataCases := by
  refine fun d s => ⟨rfl, fun hold => ?held, fun hold idle => ?idle, fun hold busy =>
    ⟨_, exec_wrData_of_eq (Block.writeData_busy hold busy), rfl,
      fun hbit k h1 h8 hk => ?data, fun hbit h9 => ?stop⟩⟩
  case held => exact exec_wrData_of_eq (Block.writeData_held hold)
  case idle => exact exec_wrData_of_eq (Block.writeData_idle hold idle)
  case data => exact Block.txd_of_dataBit hbit h1 h8 hk
  case stop =>
    rw [Block.txd_of_stopBit (b := s.block) hbit h9]
    exact Block.txd_of_stopBit hbit h9

/-! ### Reads of DATA -/

/-- After a delivery RD_DATA answers the byte delivered. -/
theorem exec_rdData_some {s : State} {v : Byte} (h : s.block.rxbuf = some v) :
    exec .rdData s = .next ((s.answer v).onBlock fun b => { b with rxUnread := false }) := by
  simpa [h] using execRdData_cases s

/-- Before any delivery RD_DATA answers the next free value and counts it as drawn. -/
theorem exec_rdData_none {s : State} (h : s.block.rxbuf = none) :
    exec .rdData s = .next (((s.answer (s.draw 0)).drawn 1).onBlock fun b => { b with rxUnread := false }) := by
  simpa [h] using execRdData_cases s

/-- Settles O20: the two cases of RXBUF, the byte before any delivery being the next free value. -/
theorem readDataAnswersRxbuf : Obligations.ReadDataAnswersRxbuf :=
  ⟨rfl, fun s => ⟨fun _ h => exec_rdData_some h, fun h => ⟨s.draw 0, s.draws + 1, exec_rdData_none h⟩⟩⟩

end Sys2Proof.Machine
end

