-- ==== Sys2Proof/Proofs/Tick.lean ====
section
/-! PROOFS. The TICK label: when it steps, what each engine does in one TICK, and that the two engines do not see one
another (42_baud_and_engines.md). -/

namespace Sys2Proof.Machine

/-! ### When TICK steps -/

/-- HOLD = 1: the engines do not step. -/
theorem exec_tick_held {s : State} (r : Bool) (hold : s.block.hold = true) : exec (.tick r) s = .next s := by
  simpa [Block.Stuck, Block.Running, hold] using execTick_cases r s

/-- HOLD = 0 with an illegal divisor: no step. -/
theorem exec_tick_stuck {s : State} (r : Bool) (stuck : s.block.Stuck) : exec (.tick r) s = .fault .tickStuck := by
  obtain ⟨hold, hbr⟩ := stuck
  simpa [Block.Stuck, Block.Running, hold, hbr, Nat.not_le.mpr hbr] using execTick_cases r s

/-- HOLD = 0 with a legal divisor: both engines step. -/
theorem exec_tick_running {s : State} (r : Bool) (running : s.block.Running) :
    exec (.tick r) s = .next (s.onBlock (Block.engines r)) := by
  obtain ⟨hold, hbr⟩ := running
  simpa [Block.Stuck, Block.Running, hold, hbr, Nat.not_lt.mpr hbr] using execTick_cases r s

/-! ### The transmitter, phase by phase -/

theorem Block.txTick_idle {b : Block} (idle : b.txPhase = .idle) : b.txTick = b := by
  simpa [idle] using b.txTick_cases

theorem Block.txTick_wait {b : Block} (wait : b.txPhase = .wait) :
    b.txTick = { b with txPhase := .bit, txBit := 0, txCnt := 0 } := by
  simpa [wait] using b.txTick_cases

/-- Before the last TICK of a bit-time the transmitter counts. -/
theorem Block.txTick_counts {b : Block} (bit : b.txPhase = .bit) (hlt : b.txCnt.toNat + 1 < b.bitLen b.txBit.toNat) :
    b.txTick = { b with txCnt := BitVec.ofNat 16 (b.txCnt.toNat + 1) } := by
  simpa [bit, hlt, Nat.not_le.mpr hlt] using b.txTick_cases

/-- The last TICK of a bit-time that another one follows. -/
theorem Block.txTick_nextBit {b : Block} (bit : b.txPhase = .bit)
    (hle : b.bitLen b.txBit.toNat ≤ b.txCnt.toNat + 1) (h9 : b.txBit.toNat < 9) :
    b.txTick = { b with txBit := b.txBit + 1#4, txCnt := 0 } := by
  simpa [bit, hle, h9, Nat.not_lt.mpr hle, Nat.not_le.mpr h9] using b.txTick_cases

/-- The last TICK of the stop bit. -/
theorem Block.txTick_endOfFrame {b : Block} (bit : b.txPhase = .bit)
    (hle : b.bitLen b.txBit.toNat ≤ b.txCnt.toNat + 1) (h9 : 9 ≤ b.txBit.toNat) : b.txTick = b.endOfFrame := by
  simpa [bit, hle, h9, Nat.not_lt.mpr hle, Nat.not_lt.mpr h9] using b.txTick_cases

/-! ### The two engines side by side -/

/-- The state the receiver writes in a TICK, taken from another block. -/
def Block.withRx (b c : Block) : Block :=
  { b with
    rxPhase := c.rxPhase, rxBit := c.rxBit, rxCnt := c.rxCnt, rxShift := c.rxShift
    rxbuf := c.rxbuf, rxip := c.rxip, rxUnread := c.rxUnread, faults := c.faults }

theorem Block.rxTick_eq_withRx (r : Bool) (b : Block) : b.rxTick r = b.withRx (b.rxTick r) := b.rxTick_frame r

theorem Block.txTick_eq_withTx (b : Block) :
    b.txTick = b.withTx b.txTick.txPhase b.txTick.txBit b.txTick.txCnt b.txTick.txip := b.txTick_frame

/-- TxTick neither reads nor writes the receiver (R94). -/
theorem Block.txTick_withRx (b c : Block) : (b.withRx c).txTick = b.txTick.withRx c := by
  rcases b.txTick_cases with ⟨idle, h⟩ | ⟨wait, h⟩ | ⟨bit, hlt, h⟩ | ⟨bit, hle, h9, h⟩ | ⟨bit, hle, h9, h⟩ <;> rw [h]
  · exact Block.txTick_idle idle
  · exact Block.txTick_wait wait
  · exact Block.txTick_counts bit hlt
  · exact Block.txTick_nextBit bit hle h9
  · exact Block.txTick_endOfFrame bit hle h9

/-- TxTick and RxTick may run in either order (R94). -/
theorem Block.txTick_rxTick (r : Bool) (b : Block) : (b.rxTick r).txTick = b.txTick.rxTick r :=
  calc (b.rxTick r).txTick
    _ = (b.withRx (b.rxTick r)).txTick := congrArg _ (b.rxTick_eq_withRx r)
    _ = b.txTick.withRx (b.rxTick r) := b.txTick_withRx _
    _ = (b.withTx b.txTick.txPhase b.txTick.txBit b.txTick.txCnt b.txTick.txip).withRx (b.rxTick r) :=
      congrArg (Block.withRx · _) b.txTick_eq_withTx
    _ = (b.withRx (b.rxTick r)).withTx b.txTick.txPhase b.txTick.txBit b.txTick.txCnt b.txTick.txip := rfl
    _ = (b.rxTick r).withTx b.txTick.txPhase b.txTick.txBit b.txTick.txCnt b.txTick.txip :=
      congrArg _ (b.rxTick_eq_withRx r).symm
    _ = (b.withTx b.txTick.txPhase b.txTick.txBit b.txTick.txCnt b.txTick.txip).rxTick r :=
      (b.rxTick_withTx r _ _ _ _).symm
    _ = b.txTick.rxTick r := congrArg _ b.txTick_eq_withTx.symm

@[simp] theorem Block.engines_txPhase (r : Bool) (b : Block) : (b.engines r).txPhase = b.txTick.txPhase := by
  rw [Block.engines_eq]; rfl
@[simp] theorem Block.engines_txBit (r : Bool) (b : Block) : (b.engines r).txBit = b.txTick.txBit := by
  rw [Block.engines_eq]; rfl
@[simp] theorem Block.engines_txCnt (r : Bool) (b : Block) : (b.engines r).txCnt = b.txTick.txCnt := by
  rw [Block.engines_eq]; rfl
@[simp] theorem Block.engines_txip (r : Bool) (b : Block) : (b.engines r).txip = b.txTick.txip := by
  rw [Block.engines_eq]; rfl
@[simp] theorem Block.engines_rxPhase (r : Bool) (b : Block) : (b.engines r).rxPhase = (b.rxTick r).rxPhase := by
  rw [Block.engines_eq]; rfl
@[simp] theorem Block.engines_rxBit (r : Bool) (b : Block) : (b.engines r).rxBit = (b.rxTick r).rxBit := by
  rw [Block.engines_eq]; rfl
@[simp] theorem Block.engines_rxCnt (r : Bool) (b : Block) : (b.engines r).rxCnt = (b.rxTick r).rxCnt := by
  rw [Block.engines_eq]; rfl
@[simp] theorem Block.engines_rxShift (r : Bool) (b : Block) : (b.engines r).rxShift = (b.rxTick r).rxShift := by
  rw [Block.engines_eq]; rfl
@[simp] theorem Block.engines_rxbuf (r : Bool) (b : Block) : (b.engines r).rxbuf = (b.rxTick r).rxbuf := by
  rw [Block.engines_eq]; rfl
@[simp] theorem Block.engines_rxip (r : Bool) (b : Block) : (b.engines r).rxip = (b.rxTick r).rxip := by
  rw [Block.engines_eq]; rfl
@[simp] theorem Block.engines_rxUnread (r : Bool) (b : Block) : (b.engines r).rxUnread = (b.rxTick r).rxUnread := by
  rw [Block.engines_eq]; rfl
@[simp] theorem Block.engines_faults (r : Bool) (b : Block) : (b.engines r).faults = (b.rxTick r).faults := by
  rw [Block.engines_eq]; rfl

/-- Settles O23: the three cases of TICK; the engines commute, and each reads the state before the TICK. -/
theorem tickRunsBothEngines : Obligations.TickRunsBothEngines := by
  refine fun r s => ⟨?word, fun hold => ?held, fun stuck t => ?stuck, fun running =>
    ⟨s.onBlock (Block.engines r), exec_tick_running r running, rfl, ?swapped, ?simultaneous⟩⟩
  case word => cases r <;> rfl
  case held => exact exec_tick_held r hold
  case stuck => simp [exec_tick_stuck r stuck]
  case swapped => rw [Block.txTick_rxTick]; rfl
  case simultaneous => exact Block.engines_eq r s.block

/-! ### The transmitter -/

/-- A count below the length of a bit-time fits tx_cnt and rx_cnt (R111). -/
theorem Block.toNat_ofNat_of_lt_bitLen {b : Block} {n i : Nat} (h : n < b.bitLen i) :
    (BitVec.ofNat 16 n).toNat = n := by
  have hlen : b.bitLen i ≤ b.br.toNat + 1 := (bitTime_bounds b.br b.mod i).2
  have hbr : b.br.toNat < 65536 := b.br.isLt
  rw [BitVec.toNat_ofNat]
  omega

/-- Settles O24: the five cases of TxTick, whose count and bit-time do not wrap. -/
theorem transmitterTick : Obligations.TransmitterTick := by
  refine fun r s running => ⟨_, exec_tick_running r running, fun idle => ?idle, fun wait => ?wait,
    fun bit hlt => ?counts, fun bit hle h9 => ?nextBit, fun bit hle h9 => ?endOfFrame⟩
  case idle => simp [Block.txTick_idle idle, idle]
  case wait => simp [Block.txTick_wait wait]
  case counts => simp [Block.txTick_counts bit hlt, bit, Block.toNat_ofNat_of_lt_bitLen hlt]
  case nextBit =>
    have hbit : (s.block.txBit + 1#4).toNat = s.block.txBit.toNat + 1 := by bv_omega
    simp [Block.txTick_nextBit bit hle h9, bit, hbit]
  case endOfFrame => simp [Block.txTick_endOfFrame bit hle h9]

/-! ### The receiver outside a sample -/

theorem Block.rxTick_starts {b : Block} (idle : b.rxPhase = .idle) (prev : b.rxPrev = true) :
    b.rxTick false = { b with rxPhase := .bit, rxBit := 0, rxCnt := 0 } := by
  simpa [idle, prev] using b.rxTick_cases false

/-- Without a falling edge the receiver stays Idle. -/
theorem Block.rxTick_idle {r : Bool} {b : Block} (idle : b.rxPhase = .idle) (quiet : b.rxPrev = false ∨ r = true) :
    b.rxTick r = b := by
  rcases quiet with h | h <;> simpa [idle, h] using b.rxTick_cases r

/-- The last TICK of a bit-time. -/
theorem Block.rxTick_nextBit {b : Block} (r : Bool) (bit : b.rxPhase = .bit)
    (hlast : b.rxCnt.toNat + 1 = b.bitLen b.rxBit.toNat) : b.rxTick r = { b with rxBit := b.rxBit + 1#4, rxCnt := 0 } := by
  simpa [bit, hlast] using b.rxTick_cases r

/-- Apart from the sample and the last TICK of a bit-time the receiver counts. -/
theorem Block.rxTick_counts {b : Block} (r : Bool) (bit : b.rxPhase = .bit)
    (hlast : b.rxCnt.toNat + 1 ≠ b.bitLen b.rxBit.toNat) (hhalf : b.rxCnt.toNat + 1 ≠ b.halfLen b.rxBit.toNat) :
    b.rxTick r = { b with rxCnt := BitVec.ofNat 16 (b.rxCnt.toNat + 1) } := by
  simpa [bit, hlast, hhalf] using b.rxTick_cases r

/-- Only a sample delivers a byte, writes rx_shift or raises a marker. -/
theorem Block.rxTick_keeps_of_no_sample {b : Block} (r : Bool)
    (h : ¬ (b.rxPhase = .bit ∧ b.rxCnt.toNat + 1 = b.halfLen b.rxBit.toNat)) :
    (b.rxTick r).rxbuf = b.rxbuf ∧ (b.rxTick r).rxip = b.rxip ∧ (b.rxTick r).rxUnread = b.rxUnread ∧
      (b.rxTick r).rxShift = b.rxShift ∧ (b.rxTick r).faults = b.faults := by
  rcases b.rxTick_cases r with ⟨-, -, e⟩ | ⟨-, -, -, e⟩ | ⟨-, -, e⟩ | ⟨bit, -, hhalf, -⟩ | ⟨-, -, -, e⟩
  case inr.inr.inr.inl => exact absurd ⟨bit, hhalf⟩ h
  all_goals simp [e]

/-- Settles O25: without a sample nothing is delivered; the four other cases of RxTick move the phase, the bit-time and
the count, which do not wrap because they are in range. -/
theorem receiverTickCounts : Obligations.ReceiverTickCounts := by
  intro r s running inv noSample
  obtain ⟨hbuf, hip, hunread, hshift, hfaults⟩ := Block.rxTick_keeps_of_no_sample r noSample
  refine ⟨_, exec_tick_running r running, by simpa using hbuf, by simpa using hip, by simpa using hunread,
    by simpa using hshift, by simpa using hfaults, fun idle prev hr => ?starts, fun idle quiet => ?idle,
    fun bit hlast => ?nextBit, fun bit hlast => ?counts⟩
  case starts =>
    subst hr
    simp [Block.rxTick_starts idle prev]
  case idle => simp [Block.rxTick_idle idle quiet, idle]
  case nextBit =>
    obtain ⟨hrange, -⟩ := (inv bit).rxRange bit
    have hbit : (s.block.rxBit + 1#4).toNat = s.block.rxBit.toNat + 1 := by bv_omega
    simp [Block.rxTick_nextBit r bit hlast, bit, hbit]
  case counts =>
    obtain ⟨-, hrange⟩ := (inv bit).rxRange bit
    have hcnt : s.block.rxCnt.toNat + 1 < s.block.bitLen s.block.rxBit.toNat := by omega
    simp [Block.rxTick_counts r bit hlast fun hhalf => noSample ⟨bit, hhalf⟩, bit,
      Block.toNat_ofNat_of_lt_bitLen hcnt]

/-! ### The receiver's samples -/

/-- The sample lies before the last TICK of its bit-time (R107). -/
theorem Block.halfLen_lt_bitLen {b : Block} (running : b.Running) (i : Nat) : b.halfLen i < b.bitLen i := by
  have : b.halfLen i + 1 < b.bitLen i := (halfTime_bounds b.br b.mod i running.2).2
  omega

/-- At TICK H(rx_bit) the receiver counts and samples. -/
theorem Block.rxTick_samples {b : Block} (r : Bool) (running : b.Running) (bit : b.rxPhase = .bit)
    (hhalf : b.rxCnt.toNat + 1 = b.halfLen b.rxBit.toNat) :
    b.rxTick r = Block.sample b.rxBit.toNat r { b with rxCnt := BitVec.ofNat 16 (b.rxCnt.toNat + 1) } := by
  have hlast : b.halfLen b.rxBit.toNat ≠ b.bitLen b.rxBit.toNat :=
    Nat.ne_of_lt (b.halfLen_lt_bitLen running _)
  simpa [bit, hhalf, hlast] using b.rxTick_cases r

@[simp] theorem Block.sample_rxBit (k : Nat) (r : Bool) (b : Block) : (b.sample k r).rxBit = b.rxBit := by
  rw [Block.sample_frame]

@[simp] theorem Block.sample_rxCnt (k : Nat) (r : Bool) (b : Block) : (b.sample k r).rxCnt = b.rxCnt := by
  rw [Block.sample_frame]

/-- The start bit: a 1 is a false start. -/
theorem Block.sample_start (r : Bool) (b : Block) :
    b.sample 0 r = { b with rxPhase := if r then .idle else b.rxPhase } := by
  cases r <;> rfl

theorem Block.sample_data {k : Nat} (r : Bool) (b : Block) (h1 : 1 ≤ k) (h8 : k ≤ 8) :
    b.sample k r = { b with rxShift := setBit b.rxShift (k - 1) r } := by
  have h0 : k ≠ 0 := by omega
  simp [Block.sample, h0, h8]

@[simp] theorem Block.sample_stop (r : Bool) (b : Block) : b.sample 9 r = b.deliver := rfl

/-- The overrun check sets its marker exactly when the byte before is unread (R105). -/
theorem Faults.mark_rxOverrun_if (unread : Bool) (f : Faults) :
    (if unread then f.mark .rxOverrun else f) = { f with rxOverrun := f.rxOverrun || unread } := by
  cases unread <;> simp [Faults.mark]

/-- Settles O26: the TICK is the count and the sample, and the sample is one of the three kinds of bit-time. -/
theorem receiverSamples : Obligations.ReceiverSamples := by
  intro r s running bit hhalf
  have htick := Block.rxTick_samples r running bit hhalf
  have hcnt : s.block.rxCnt.toNat + 1 < s.block.bitLen s.block.rxBit.toNat :=
    hhalf ▸ Block.halfLen_lt_bitLen running _
  refine ⟨_, exec_tick_running r running, ?rxBit, ?rxCnt, fun h0 => ?start, fun k h1 h8 hk => ?data, fun h9 => ?stop⟩
  case rxBit => simp [htick]
  case rxCnt => simp [htick, Block.toNat_ofNat_of_lt_bitLen hcnt]
  case start => simp [htick, h0, Block.sample_start, bit]
  case data =>
    have hlt : k - 1 < 8 := by omega
    have hother : ∀ j, j < 8 → j ≠ k - 1 →
        (setBit s.block.rxShift (k - 1) r).getLsbD j = s.block.rxShift.getLsbD j :=
      fun j hj hne => by rw [setBit_getLsbD _ _ _ _ hj, if_neg hne]
    simpa [htick, hk, Block.sample_data r _ h1 h8, bit, setBit_getLsbD _ _ _ _ hlt] using hother
  case stop => simp [htick, h9, Block.deliver_eq, Faults.mark_rxOverrun_if]

end Sys2Proof.Machine
end

