-- ==== Sys2Proof/Proofs/FlagEvents.lean ====
section
/-! PROOFS. The interrupt-pending flags: the labels that set and clear RXIP and TXIP, and the lines
(60_exceptions.md, R127 and R128). -/

namespace Sys2Proof.Machine

/-! ### The lines -/

theorem Block.irqRx_iff (b : Block) : b.irqRx = true ↔ b.rxie = true ∧ b.rxip = true := Bool.and_eq_true_iff

theorem Block.irqTx_iff (b : Block) : b.irqTx = true ↔ b.txie = true ∧ b.txip = true := Bool.and_eq_true_iff

/-! ### The labels that are events of the flags -/

theorem Block.not_deliveryBy_of_not_tick {b : Block} {i : Instr} (h : ∀ r, i ≠ .tick r) : ¬ b.DeliveryBy i :=
  fun ⟨⟨r, e⟩, _⟩ => h r e

theorem Block.not_frameEndBy_of_not_tick {b : Block} {i : Instr} (h : ∀ r, i ≠ .tick r) : ¬ b.FrameEndBy i :=
  fun ⟨⟨r, e⟩, _⟩ => h r e

theorem Block.HoldEntryBy.not_tick {b : Block} {i : Instr} (h : b.HoldEntryBy i) (r : Bool) : i ≠ .tick r := by
  rcases h with rfl | ⟨d, rfl, -⟩ <;> simp

theorem Block.HoldEntryBy.not_wrIp {b : Block} {i : Instr} (h : b.HoldEntryBy i) (d : Byte) : i ≠ .wrIp d := by
  rcases h with rfl | ⟨e, rfl, -⟩ <;> simp

/-- A label that is no event of the flags: it delivers nothing, ends no frame, enters no hold and does not write IP. -/
structure Block.FlagsQuietBy (b : Block) (i : Instr) : Prop where
  noDelivery : ¬ b.DeliveryBy i
  noFrameEnd : ¬ b.FrameEndBy i
  noHoldEntry : ¬ b.HoldEntryBy i
  noClear : ∀ d, i ≠ .wrIp d

/-- A label that is no TICK, no write of CTL or IP and no RESET is no event of the flags. -/
theorem Block.flagsQuietBy_of_ne {b : Block} {i : Instr} (tick : ∀ r, i ≠ .tick r) (wrCtl : ∀ d, i ≠ .wrCtl d)
    (wrIp : ∀ d, i ≠ .wrIp d) (reset : i ≠ .reset) : b.FlagsQuietBy i where
  noDelivery := Block.not_deliveryBy_of_not_tick tick
  noFrameEnd := Block.not_frameEndBy_of_not_tick tick
  noHoldEntry := by
    rintro (e | ⟨d, e, -⟩)
    · exact reset e
    · exact wrCtl d e
  noClear := wrIp

/-- A TICK while held is no event of the flags. -/
theorem Block.flagsQuietBy_tick_held {b : Block} (r : Bool) (hold : b.hold = true) : b.FlagsQuietBy (.tick r) where
  noDelivery := fun ⟨_, ⟨runs, _⟩, _⟩ => by simp [runs] at hold
  noFrameEnd := fun ⟨_, ⟨runs, _⟩, _⟩ => by simp [runs] at hold
  noHoldEntry h := h.not_tick r rfl
  noClear := by simp

/-- A write of CTL that does not take HOLD from 0 to 1 is no event of the flags. -/
theorem Block.flagsQuietBy_wrCtl {b : Block} {d : Byte} (h : b.hold = true ∨ d[0] = false) :
    b.FlagsQuietBy (.wrCtl d) where
  noDelivery := Block.not_deliveryBy_of_not_tick (by simp)
  noFrameEnd := Block.not_frameEndBy_of_not_tick (by simp)
  noHoldEntry := by
    rintro (e | ⟨e, he, hold, h0⟩)
    · cases e
    · cases he
      simp [hold, h0] at h
  noClear := by simp

/-! ### The flags after the operations on the block -/

@[simp] theorem Block.release_rxip (b : Block) : b.release.rxip = b.rxip := by
  rcases b.release_cases with ⟨-, e⟩ | ⟨-, e⟩ <;> simp [e]

@[simp] theorem Block.release_txip (b : Block) : b.release.txip = b.txip := by
  rcases b.release_cases with ⟨-, e⟩ | ⟨-, e⟩ <;> simp [e]

@[simp] theorem Block.writeData_rxip (d : Byte) (b : Block) : (b.writeData d).rxip = b.rxip := by
  rcases b.writeData_cases d with ⟨-, e⟩ | ⟨-, -, e⟩ | ⟨-, -, e⟩ <;> simp [e]

@[simp] theorem Block.writeData_txip (d : Byte) (b : Block) : (b.writeData d).txip = b.txip := by
  rcases b.writeData_cases d with ⟨-, e⟩ | ⟨-, -, e⟩ | ⟨-, -, e⟩ <;> simp [e]

/-- A configuration write keeps what its effect keeps. -/
theorem Block.ifHeld_keeps {α : Type} (field : Block → α) {f : Block → Block} (keeps : ∀ b, field (f b) = field b)
    (b : Block) : field (b.ifHeld f) = field b := by
  rcases Block.ifHeld_cases f b with ⟨-, e⟩ | ⟨-, e⟩
  · rw [e, keeps]
  · rw [e]

/-- Only the sample of the stop bit sets RXIP (R104). -/
theorem Block.sample_rxip (k : Nat) (r : Bool) (b : Block) : (b.sample k r).rxip = (decide (k = 9) || b.rxip) := by
  rcases b.sample_cases k r with ⟨hk, -, e⟩ | ⟨hk, -, e⟩ | ⟨-, hk, e⟩ | ⟨hk, -⟩ | ⟨hk, e⟩
  case inr.inr.inr.inl => simp [hk, Block.deliver_eq]
  all_goals
    have h9 : k ≠ 9 := by omega
    simp [e, h9]

/-- RxTick sets RXIP exactly where it delivers, and never clears it. -/
theorem Block.rxTick_rxip_iff {b : Block} (r : Bool) (running : b.Running) :
    (b.rxTick r).rxip = true ↔ b.DeliveryBy (.tick r) ∨ b.rxip = true := by
  by_cases sample : b.rxPhase = .bit ∧ b.rxCnt.toNat + 1 = b.halfLen b.rxBit.toNat
  · obtain ⟨bit, hhalf⟩ := sample
    have delivers : b.DeliveryBy (.tick r) ↔ b.rxBit.toNat = 9 :=
      ⟨fun ⟨_, _, _, h9, _⟩ => h9, fun h9 => ⟨⟨r, rfl⟩, running, bit, h9, h9 ▸ hhalf⟩⟩
    simp [Block.rxTick_samples r running bit hhalf, Block.sample_rxip, delivers]
  · have noDelivery : ¬ b.DeliveryBy (.tick r) :=
      fun ⟨_, _, bit, h9, hhalf⟩ => sample ⟨bit, h9.symm ▸ hhalf⟩
    obtain ⟨-, hip, -⟩ := Block.rxTick_keeps_of_no_sample r sample
    simp [hip, noDelivery]

/-- TxTick sets TXIP exactly where it ends a frame, and never clears it. -/
theorem Block.txTick_txip_iff {b : Block} (r : Bool) (running : b.Running) :
    b.txTick.txip = true ↔ b.FrameEndBy (.tick r) ∨ b.txip = true := by
  by_cases frameEnd : b.FrameEndBy (.tick r)
  · have ⟨_, _, bit, h9, hle⟩ := frameEnd
    simp [Block.txTick_endOfFrame bit hle h9, frameEnd]
  · rcases b.txTick_cases with ⟨-, e⟩ | ⟨-, e⟩ | ⟨-, -, e⟩ | ⟨-, -, -, e⟩ | ⟨bit, hle, h9, -⟩
    case inr.inr.inr.inr => exact absurd ⟨⟨r, rfl⟩, running, bit, h9, hle⟩ frameEnd
    all_goals simp [e, frameEnd]

/-- A label that is no TICK, no write of CTL or IP and no RESET keeps both flags. -/
theorem exec_keeps_flags {i : Instr} {s t : State} (h : exec i s = .next t) (tick : ∀ r, i ≠ .tick r)
    (wrCtl : ∀ d, i ≠ .wrCtl d) (wrIp : ∀ d, i ≠ .wrIp d) (reset : i ≠ .reset) :
    t.block.rxip = s.block.rxip ∧ t.block.txip = s.block.txip := by
  cases i with
  | tick r => exact absurd rfl (tick r)
  | wrCtl d => exact absurd rfl (wrCtl d)
  | wrIp d => exact absurd rfl (wrIp d)
  | reset => exact absurd rfl reset
  | rdData => rcases execRdData_cases s with ⟨_, -, e⟩ | ⟨-, e⟩ <;> rw [e] at h <;> cases h <;> simp
  | wrData d =>
    cases h
    exact ⟨Block.writeData_rxip d _, Block.writeData_txip d _⟩
  | wrBrlo d | wrBrhi d | wrMod d =>
    cases h
    exact ⟨Block.ifHeld_keeps Block.rxip (by simp) _, Block.ifHeld_keeps Block.txip (by simp) _⟩
  | _ =>
    cases h
    exact ⟨rfl, rfl⟩

/-! ### What a label can do to the flags -/

/-- All that a label can do to the two flags: the block before, the label, the block after (R128). -/
inductive Block.FlagsEffect (b : Block) : Instr → Block → Prop where
  | engines (r : Bool) (running : b.Running) : FlagsEffect b (.tick r) (b.engines r)
  | holdEntry {i : Instr} {c : Block} (entry : b.HoldEntryBy i) (rxip : c.rxip = false) (txip : c.txip = true) :
    FlagsEffect b i c
  | clear (d : Byte) : FlagsEffect b (.wrIp d) (b.clearFlags d)
  | quiet {i : Instr} {c : Block} (quiet : b.FlagsQuietBy i) (rxip : c.rxip = b.rxip) (txip : c.txip = b.txip) :
    FlagsEffect b i c

/-- A write of CTL enters hold or is no event of the flags (R73). -/
theorem Block.writeCtl_flagsEffect (d : Byte) (b : Block) : b.FlagsEffect (.wrCtl d) (b.writeCtl d) := by
  rcases b.writeCtl_cases d with ⟨hold, -, e⟩ | ⟨hold, -, e⟩ | ⟨hold, h0, e⟩ | ⟨-, h0, e⟩ <;> rw [e]
  · exact .quiet (Block.flagsQuietBy_wrCtl (.inl hold)) rfl rfl
  · exact .quiet (Block.flagsQuietBy_wrCtl (.inl hold)) (Block.release_rxip _) (Block.release_txip _)
  · exact .holdEntry (.inr ⟨d, rfl, hold, h0⟩) rfl rfl
  · exact .quiet (Block.flagsQuietBy_wrCtl (.inr h0)) rfl rfl

/-- Every label that answers a next state has one of the four effects on the flags. -/
theorem exec_flagsEffect {i : Instr} {s t : State} (h : exec i s = .next t) : s.block.FlagsEffect i t.block := by
  cases i with
  | tick r =>
    rcases execTick_cases r s with ⟨hold, e⟩ | ⟨-, e⟩ | ⟨running, e⟩ <;> rw [e] at h <;> cases h
    · exact .quiet (Block.flagsQuietBy_tick_held r hold) rfl rfl
    · exact .engines r running
  | wrCtl d =>
    cases h
    exact Block.writeCtl_flagsEffect d _
  | wrIp d =>
    cases h
    exact .clear d
  | reset =>
    cases h
    exact .holdEntry (.inl rfl) rfl rfl
  | _ =>
    obtain ⟨hrx, htx⟩ := exec_keeps_flags h (by simp) (by simp) (by simp) (by simp)
    exact .quiet (Block.flagsQuietBy_of_ne (by simp) (by simp) (by simp) (by simp)) hrx htx

/-- Where RXIP is 1 after a label (R128). -/
theorem Block.FlagsEffect.rxip_iff {i : Instr} {b c : Block} (h : b.FlagsEffect i c) :
    c.rxip = true ↔ b.DeliveryBy i ∨ b.rxip = true ∧ ¬ b.HoldEntryBy i ∧
      ¬ ∃ d : Byte, i = .wrIp d ∧ d[0] = true := by
  cases h with
  | engines r running =>
    have noEntry : ¬ b.HoldEntryBy (.tick r) := fun h => h.not_tick r rfl
    simp [Block.rxTick_rxip_iff r running, noEntry]
  | holdEntry entry rxip _ => simp [rxip, entry, Block.not_deliveryBy_of_not_tick entry.not_tick]
  | clear d =>
    have noEntry : ¬ b.HoldEntryBy (.wrIp d) := fun h => h.not_wrIp d rfl
    have noDelivery : ¬ b.DeliveryBy (.wrIp d) := Block.not_deliveryBy_of_not_tick (by simp)
    simp [noEntry, noDelivery]
  | quiet quiet rxip _ => simp [rxip, quiet.noDelivery, quiet.noHoldEntry, quiet.noClear]

/-- Where TXIP is 1 after a label (R128). -/
theorem Block.FlagsEffect.txip_iff {i : Instr} {b c : Block} (h : b.FlagsEffect i c) :
    c.txip = true ↔ b.FrameEndBy i ∨ b.HoldEntryBy i ∨ b.txip = true ∧
      ¬ ∃ d : Byte, i = .wrIp d ∧ d[1] = true := by
  cases h with
  | engines r running =>
    have noEntry : ¬ b.HoldEntryBy (.tick r) := fun h => h.not_tick r rfl
    simp [Block.txTick_txip_iff r running, noEntry]
  | holdEntry entry _ txip => simp [txip, entry]
  | clear d =>
    have noEntry : ¬ b.HoldEntryBy (.wrIp d) := fun h => h.not_wrIp d rfl
    have noFrameEnd : ¬ b.FrameEndBy (.wrIp d) := Block.not_frameEndBy_of_not_tick (by simp)
    simp [noEntry, noFrameEnd]
  | quiet quiet _ txip => simp [txip, quiet.noFrameEnd, quiet.noHoldEntry, quiet.noClear]

/-- Settles O44: each flag is followed through the four effects a label can have on it, and each line is its enable with
its flag. -/
theorem flagEvents : Obligations.FlagEvents := fun _ _ t h =>
  ⟨(exec_flagsEffect h).rxip_iff, (exec_flagsEffect h).txip_iff, t.block.irqRx_iff, t.block.irqTx_iff,
    fun _ _ => ⟨rfl, rfl⟩⟩

end Sys2Proof.Machine
end

