-- ==== Sys2Proof/Proofs/PowerOn.lean ====
section
/-! PROOFS. Power-on against RESET: what RESET leaves of a block, and the values the two share
(70_reset_and_hazards.md, R143 and R146). -/

namespace Sys2Proof.Machine

/-! ### RESET -/

@[simp] theorem exec_reset (s : State) :
    exec .reset s = .next ((s.onBlock (Block.hardReset (s.draw 0) (s.draw 1))).drawn 2) := rfl

/-- A block that RESET has left differs from power-on only in what RESET keeps (RXBUF and the markers) and in the two
bytes it leaves unspecified, whatever the block was and whatever bytes were drawn. -/
theorem Block.powerOn_eq_hardReset (freeTx freeShift : Byte) (b : Block) :
    Block.powerOn = { b.hardReset freeTx freeShift with
      rxbuf := none, faults := Faults.empty, txbuf := Block.powerOn.txbuf, rxShift := Block.powerOn.rxShift } := rfl

/-! ### The lines of a disabled or idle block -/

/-- With both enables 0, IE reads 0x00 and both lines are low, whatever the flags are: at power-on TXIP is 1. -/
theorem Block.lines_low_of_disabled {b : Block} (hrx : b.rxie = false) (htx : b.txie = false) :
    b.ieByte = 0x00#8 ∧ b.irqRx = false ∧ b.irqTx = false := by
  simp [Block.ieByte, Block.irqRx, Block.irqTx, twoBits, hrx, htx]

/-- The transmit line rests at 1. -/
theorem Block.txd_of_idle {b : Block} (h : b.txPhase = .idle) : b.txd = true := by rw [Block.txd, h]

/-- Settles O37: power-on is any block after RESET with the four fields set that the two need not share; its enables are 0
and its transmitter is Idle. -/
theorem powerOnIsReset : Obligations.PowerOnIsReset := by
  obtain ⟨hie, hrx, htx⟩ := Block.lines_low_of_disabled (b := State.reset.block) rfl rfl
  refine ⟨fun s t h => ?afterReset, rfl, rfl, rfl, hie, hrx, htx, Block.txd_of_idle rfl⟩
  case afterReset =>
    rw [exec_reset] at h
    cases h
    exact Block.powerOn_eq_hardReset (s.draw 0) (s.draw 1) s.block

end Sys2Proof.Machine
end

