-- ==== Sys2Proof/Proofs/Codec.lean ====
section
/-! PROOFS. Every label survives encoding and decoding, and the words that the assembler's lines and the driver's
operations stand for (30_encoding.md). -/

namespace Sys2Proof

/-! ### Decoding the word of a label -/

@[simp] theorem Reg.ofAddr_addr (reg : Reg) : Reg.ofAddr reg.addr = reg := by cases reg <;> rfl

@[simp] theorem decode_readWord (reg : Reg) : decode (readWord reg) = .ok (Instr.ofRead reg) := by cases reg <;> rfl

/-- A WRITE word under its high byte: the decoder reads kind, zeros and address from it, and the byte from below. -/
@[simp] theorem decode_writeWord (reg : Reg) (data : Byte) :
    decode (writeWord reg data) = .ok (Instr.ofWrite reg data) := by
  have hword : writeWord reg data = (0b01#2 ++ 0#3 ++ reg.addr : Byte) ++ data := rfl
  have hkind : (writeWord reg data).extractLsb' 14 2 = 0b01#2 := by
    rw [hword, extract_high _ data 6 2]
    cases reg <;> rfl
  have hzero : (writeWord reg data).extractLsb' 11 3 = 0#3 := by
    rw [hword, extract_high _ data 3 3]
    cases reg <;> rfl
  have haddr : (writeWord reg data).extractLsb' 8 3 = reg.addr := by
    rw [hword, extract_high _ data 0 3]
    cases reg <;> rfl
  have hlow : (writeWord reg data).extractLsb' 0 8 = data := by rw [hword, extract_low]
  simp [decode, Word.writeZeros, hkind, hzero, haddr, hlow]

@[simp] theorem decode_tickWord (r : Bool) : decode (tickWord r) = .ok (.tick r) := by cases r <;> rfl

@[simp] theorem decode_resetWord : decode resetWord = .ok .reset := rfl

/-- The four kinds of label (R57). -/
theorem Instr.kind_cases (i : Instr) : (∃ reg, i = .ofRead reg) ∨ (∃ reg data, i = .ofWrite reg data) ∨
    (∃ r, i = .tick r) ∨ i = .reset := by
  cases i with
  | rdData => exact .inl ⟨.data, rfl⟩
  | rdCtl => exact .inl ⟨.ctl, rfl⟩
  | rdBrlo => exact .inl ⟨.brlo, rfl⟩
  | rdBrhi => exact .inl ⟨.brhi, rfl⟩
  | rdMod => exact .inl ⟨.mod, rfl⟩
  | rdIe => exact .inl ⟨.ie, rfl⟩
  | rdIp => exact .inl ⟨.ip, rfl⟩
  | rdRsvd => exact .inl ⟨.rsvd, rfl⟩
  | wrData d => exact .inr (.inl ⟨.data, d, rfl⟩)
  | wrCtl d => exact .inr (.inl ⟨.ctl, d, rfl⟩)
  | wrBrlo d => exact .inr (.inl ⟨.brlo, d, rfl⟩)
  | wrBrhi d => exact .inr (.inl ⟨.brhi, d, rfl⟩)
  | wrMod d => exact .inr (.inl ⟨.mod, d, rfl⟩)
  | wrIe d => exact .inr (.inl ⟨.ie, d, rfl⟩)
  | wrIp d => exact .inr (.inl ⟨.ip, d, rfl⟩)
  | wrRsvd d => exact .inr (.inl ⟨.rsvd, d, rfl⟩)
  | tick r => exact .inr (.inr (.inl ⟨r, rfl⟩))
  | reset => exact .inr (.inr (.inr rfl))

theorem decode_encode (i : Instr) : decode (encode i) = .ok i := by
  obtain ⟨reg, rfl⟩ | ⟨reg, data, rfl⟩ | ⟨r, rfl⟩ | rfl := i.kind_cases
  · rw [encode_ofRead, decode_readWord]
  · rw [encode_ofWrite, decode_writeWord]
  · exact decode_tickWord r
  · exact decode_resetWord

/-- Settles O2: a label is of one of four kinds, and the decoder reads back each field that its word is laid out from. -/
theorem decodeOfEncode : Obligations.DecodeOfEncode := fun i _ => decode_encode i

/-! ### The words that decode -/

theorem wf_iff_decodes (w : Word) : Word.wf w = true ↔ ∃ i, decode w = .ok i := by
  rw [← decode_isOk]
  cases decode w <;> simp [Except.isOk, Except.toBool]

/-- Settles O3: a decoded word is the layout of the fields read from it, and the decoder accepts exactly where the check
of the must-be-zero bits does. -/
theorem encodeOfDecode : Obligations.EncodeOfDecode := ⟨fun _ _ => encode_eq_of_decode, wf_iff_decodes⟩

/-- Settles O1: each accepted word is its label's word, and each refused one has a must-be-zero bit set. -/
theorem decodesWorkedWords : Obligations.DecodesWorkedWords :=
  ⟨decode_encode .rdData, decode_encode .rdIp, decode_encode (.wrData 0xFF#8), decode_encode (.wrIp 0x03#8),
    decode_encode (.wrRsvd 0xAB#8), decode_encode (.tick false), decode_encode (.tick true), decode_encode .reset,
    rfl, rfl, rfl, rfl⟩

/-- Settles O52: each operation is one bus access, whose word is its label's. -/
theorem driverWords : Obligations.DriverWords := ⟨rfl, rfl, rfl, rfl, rfl, fun _ => rfl, fun _ _ => rfl⟩

/-! ### The words as numbers -/

theorem labelWord_toNat (kind : BitVec 2) (addr : BitVec 3) (low : Byte) :
    (labelWord kind addr low).toNat = kind.toNat * 0x4000 + addr.toNat * 256 + low.toNat := by
  have hhigh : (kind ++ 0#3 ++ addr : Byte).toNat = kind.toNat * 64 + addr.toNat := by
    revert kind addr
    decide
  have hword : labelWord kind addr low = (kind ++ 0#3 ++ addr : Byte) ++ low := rfl
  rw [hword, append_toNat, hhigh]
  omega

theorem Reg.addr_ofAddr_toNat {a : Nat} (ha : a ≤ 7) : (Reg.ofAddr (BitVec.ofNat 3 a)).addr.toNat = a := by
  rw [Reg.addr_ofAddr, BitVec.toNat_ofNat]
  omega

theorem readWord_eq_ofNat {a : Nat} (ha : a ≤ 7) :
    readWord (Reg.ofAddr (BitVec.ofNat 3 a)) = BitVec.ofNat 16 (a * 256) := by
  apply BitVec.eq_of_toNat_eq
  rw [readWord, labelWord_toNat, Reg.addr_ofAddr_toNat ha, BitVec.toNat_ofNat]
  simp only [BitVec.toNat_ofNat]
  omega

theorem writeWord_eq_ofNat {a v : Nat} (ha : a ≤ 7) (hv : v ≤ 255) :
    writeWord (Reg.ofAddr (BitVec.ofNat 3 a)) (BitVec.ofNat 8 v) = BitVec.ofNat 16 (0x4000 + a * 256 + v) := by
  apply BitVec.eq_of_toNat_eq
  rw [writeWord, labelWord_toNat, Reg.addr_ofAddr_toNat ha]
  simp only [BitVec.toNat_ofNat]
  omega

theorem encode_tick_eq_ofNat (r : Bool) : encode (.tick r) = BitVec.ofNat 16 (0x8000 + r.toNat) := by cases r <;> rfl

/-- TICK's operand is written as a number 0 or 1 (R66). -/
theorem encode_tick_number {r : Nat} (hr : r ≤ 1) : encode (.tick (r == 1)) = BitVec.ofNat 16 (0x8000 + r) := by
  obtain rfl | rfl := Nat.le_one_iff_eq_zero_or_eq_one.mp hr <;> rfl

end Sys2Proof

namespace Sys2Proof.Machine

/-! ### The assembler -/

/-- A frame is its ten bit-times one after the other (R67). -/
theorem frameLevels_eq_flatMap (br : Word) (mod : Byte) (v : Byte) (n : Nat) :
    frameLevels br mod v n = (List.range n).flatMap fun i => List.replicate (bitTime br mod i) (frameBit v i) := by
  induction n with
  | zero => rfl
  | succ n ih => rw [frameLevels, ih, List.range_succ, List.flatMap_append, List.flatMap_singleton]

/-- A line whose numbers are in range stands for its labels, and its words are theirs. -/
theorem asmLabels_words {br : Word} {mod : Byte} {line : AsmLine} {is : List Instr} {ws : List Word}
    (h : asmLabels br mod line = some is) (hw : is.map encode = ws) :
    (asmLabels br mod line).map (·.map encode) = some ws := by rw [h, Option.map_some, hw]

/-- A register name and its number name the same register (R66). -/
theorem asmReg_name_eq_num : ∀ p ∈ [(Reg.data, 0), (.ctl, 1), (.brlo, 2), (.brhi, 3), (.mod, 4), (.ie, 5), (.ip, 6),
    (.rsvd, 7)], asmReg (.name p.1) = asmReg (.num p.2) ∧ (AsmReg.num p.2).wf = true := by decide

/-- Settles O7: each form's labels are of one kind, whose word is a sum of its fields; a name and its number are one
register; a pseudo-label's words are those of its TICKs. -/
theorem assemblerWords : Obligations.AssemblerWords := by
  refine fun br mod => ⟨fun a v r expect ha hv hr he => ⟨?read, ?write, ?tick, rfl⟩, fun p hp v expect => ?name,
    fun n r hr => ?ticks, fun n => ?idle, fun b hb => ?frame⟩
  case read =>
    have hwf : (AsmLine.rd (.num a) expect).wf = true := by
      cases expect <;> simp_all [AsmLine.wf, AsmReg.wf]
    exact asmLabels_words (if_pos hwf) (by simp [asmReg, readWord_eq_ofNat ha])
  case write =>
    have hwf : (AsmLine.wr (.num a) v).wf = true := by simp [AsmLine.wf, AsmReg.wf, ha, hv]
    exact asmLabels_words (if_pos hwf) (by simp [asmReg, writeWord_eq_ofNat ha hv])
  case tick =>
    have hwf : (AsmLine.tick r).wf = true := by simp [AsmLine.wf, hr]
    exact asmLabels_words (if_pos hwf) (by simp [encode_tick_number hr])
  case name =>
    obtain ⟨hreg, hwf⟩ := asmReg_name_eq_num p hp
    have hname : (AsmReg.name p.1).wf = true := rfl
    simp only [asmLabels, AsmLine.wf, hreg, hwf, hname, and_self]
  case ticks =>
    have hwf : (AsmLine.ticks n r).wf = true := by simp [AsmLine.wf, hr]
    exact asmLabels_words (if_pos hwf) (by simp [ticksOf, encode_tick_number hr])
  case idle =>
    exact asmLabels_words (if_pos rfl) (by simp [idleTicks, ticksOf, encode_tick_eq_ofNat])
  case frame =>
    have hwf : (AsmLine.frame b).wf = true := by simp [AsmLine.wf, hb]
    exact asmLabels_words (if_pos hwf) (by
      simp [frameLevels_eq_flatMap, List.map_flatMap, encode_tick_eq_ofNat, bitTime, Config.frameBits])

end Sys2Proof.Machine
end

