-- ==== Sys2Proof/Proofs/BitTimes.lean ====
section
/-! PROOFS. Bit-times and frames in TICKs, and the reference procedure for the divisor and the modulation
(42_baud_and_engines.md sections 1 and 5). -/

namespace Sys2Proof.Machine

/-! ### Lengths -/

@[simp] theorem Block.startLen_zero (b : Block) : b.startLen 0 = 0 := rfl

theorem Block.startLen_succ (b : Block) (i : Nat) : b.startLen (i + 1) = b.startLen i + b.bitLen i := rfl

theorem Block.frameLen_eq (b : Block) : b.frameLen = b.startLen 9 + b.bitLen 9 := rfl

/-- Settles O21: all but the last clause unfold the definitions; the last adds up ten bit-times, of which the ninth and
the tenth take MOD[0] and MOD[1] again. -/
theorem bitTimeLengths : Obligations.BitTimeLengths := by
  refine fun b => ⟨fun _ => rfl, fun _ => rfl, rfl, fun _ => rfl, rfl, ?_⟩
  simp [Block.frameLen, frameTime, Config.frameBits, startTime, bitTime, List.range_succ]
  omega

theorem Block.bitLen_bounds (b : Block) (i : Nat) : b.br.toNat ≤ b.bitLen i ∧ b.bitLen i ≤ b.br.toNat + 1 :=
  bitTime_bounds b.br b.mod i

/-- A bit-time has at most 65536 TICKs (R111). -/
theorem Block.bitLen_le (b : Block) (i : Nat) : b.bitLen i ≤ 65536 := by
  have := (b.bitLen_bounds i).2
  have := b.br.isLt
  omega

theorem Block.startLen_le (b : Block) (i : Nat) : b.startLen i ≤ i * 65536 := by
  induction i with
  | zero => simp
  | succ i ih =>
    have := b.bitLen_le i
    rw [Block.startLen_succ]
    omega

/-- Settles O22: the sample's bounds are those of H(i), and a frame is ten bit-times. -/
theorem samplingMarginAndWidths : Obligations.SamplingMarginAndWidths := by
  refine fun b i => ⟨fun hbr => ?_, b.bitLen_le i, b.startLen_le 10⟩
  obtain ⟨hpos, hlt⟩ : 1 ≤ b.halfLen i ∧ b.halfLen i + 1 < b.bitLen i := halfTime_bounds b.br b.mod i hbr
  exact ⟨hpos, Nat.lt_of_succ_lt hlt, hlt⟩

/-! ### Where a TICK falls -/

theorem startTime_mono (br : Word) (mod : Byte) {i j : Nat} (h : i ≤ j) : startTime br mod i ≤ startTime br mod j := by
  induction h with
  | refl => exact Nat.le_refl _
  | step _ ih => exact Nat.le_trans ih (Nat.le_add_right _ _)

theorem Block.startLen_mono (b : Block) {i j : Nat} (h : i ≤ j) : b.startLen i ≤ b.startLen j :=
  startTime_mono b.br b.mod h

/-- A TICK falls into one bit-time only. -/
theorem Block.bitTime_unique {b : Block} {i j p : Nat} (hi : b.startLen i ≤ p) (hi' : p < b.startLen (i + 1))
    (hj : b.startLen j ≤ p) (hj' : p < b.startLen (j + 1)) : i = j := by
  rcases Nat.lt_trichotomy i j with h | h | h
  · have := b.startLen_mono (show i + 1 ≤ j from h)
    omega
  · exact h
  · have := b.startLen_mono (show j + 1 ≤ i from h)
    omega

/-! ### The reference procedure -/

/-- Below which whole numbers the floor of a quotient of whole numbers lies. -/
theorem floor_div_lt_iff (n : Nat) {d : Nat} (h : 0 < d) (m : Nat) :
    ((n : Rat) / (d : Rat)).floor < (m : Int) ↔ n < m * d := by
  rw [Rat.floor_lt_iff, Rat.intCast_natCast, Rat.div_lt_iff (Rat.natCast_pos.mpr h), ← Rat.natCast_mul,
    Rat.natCast_lt_natCast]

/-- The floor of a quotient of whole numbers is the whole-number quotient. -/
theorem floor_div (n : Nat) {d : Nat} (h : 0 < d) : ((n : Rat) / (d : Rat)).floor = ((n / d : Nat) : Int) := by
  have hlow := mt (floor_div_lt_iff n h (n / d)).mp (Nat.not_lt.mpr (Nat.div_mul_le_self n d))
  have hhigh := (floor_div_lt_iff n h (n / d + 1)).mpr (Nat.mul_comm d _ ▸ Nat.lt_mul_div_succ n h)
  omega

/-- `F / B - BR` is the remainder over the target (R110). -/
theorem exactFraction_eq (f : Nat) {target : Nat} (h : 0 < target) :
    exactFraction f target = ((f % target : Nat) : Rat) / target := by
  have hne : (target : Rat) ≠ 0 := mt Rat.natCast_eq_zero_iff.mp (Nat.ne_of_gt h)
  have hquot : (f : Rat) / target = ((f % target : Nat) : Rat) / target + (f / target : Nat) := by
    calc (f : Rat) / target
        = ((f % target + f / target * target : Nat) : Rat) / target := by rw [Nat.mul_comm, Nat.mod_add_div]
      _ = ((f % target : Nat) : Rat) / target + (f / target : Nat) := by
        rw [Rat.natCast_add, Rat.natCast_mul, Rat.div_def, Rat.add_mul, ← Rat.div_def, ← Rat.div_def,
          Rat.mul_div_cancel hne]
  rw [exactFraction, floor_div f h, Rat.intCast_natCast, hquot, Rat.add_sub_cancel]

theorem refEdge_eq_exactEdge (f : Nat) {target : Nat} (h : 0 < target) (k : Nat) :
    (refEdge f target k : Int) = exactEdge f target k := by
  have hne : (target : Rat) ≠ 0 := mt Rat.natCast_eq_zero_iff.mp (Nat.ne_of_gt h)
  have hquot : (k : Rat) * exactFraction f target + 1 / 2 =
      ((2 * k * (f % target) + target : Nat) : Rat) / (2 * target : Nat) := by
    rw [exactFraction_eq f h]
    simp only [Rat.natCast_add, Rat.natCast_mul, Rat.natCast_ofNat]
    grind
  rw [exactEdge, hquot, floor_div _ (by omega), refEdge]

/-- From one edge to the next the whole-number form moves by 0 or 1. -/
theorem refEdge_succ (f : Nat) {target : Nat} (h : 0 < target) (k : Nat) :
    refEdge f target (k + 1) = refEdge f target k ∨ refEdge f target (k + 1) = refEdge f target k + 1 := by
  have hmod : f % target < target := Nat.mod_lt f h
  have hnum : 2 * (k + 1) * (f % target) + target = 2 * k * (f % target) + target + 2 * (f % target) := by
    rw [Nat.mul_add, Nat.add_mul]
    omega
  have hlow : refEdge f target k ≤ refEdge f target (k + 1) :=
    Nat.div_le_div_right (by rw [hnum]; exact Nat.le_add_right _ _)
  have hhigh : refEdge f target (k + 1) ≤ refEdge f target k + 1 := by
    rw [refEdge, refEdge, ← Nat.add_div_right _ (by omega : 0 < 2 * target)]
    exact Nat.div_le_div_right (by omega)
  omega

/-- A byte whose first bits are set one after the other has those bits. -/
theorem foldl_setBit_getLsbD (g : Nat → Bool) (n : Nat) {j : Nat} (hj : j < 8) :
    ((List.range n).foldl (fun v j => setBit v j (g j)) 0).getLsbD j = (decide (j < n) && g j) := by
  induction n with
  | zero => simp
  | succ n ih =>
    rw [List.range_succ, List.foldl_append, List.foldl_cons, List.foldl_nil, setBit_getLsbD _ _ _ _ hj, ih]
    rcases Nat.lt_trichotomy j n with h | h | h
    · simp [h, Nat.ne_of_lt h, Nat.lt_succ_of_lt h]
    · simp [h]
    · simp [Nat.ne_of_gt h, Nat.not_lt_of_gt h, Nat.not_lt.mpr (Nat.succ_le_of_lt h)]

theorem refMod_getLsbD (f target : Nat) {j : Nat} (hj : j < 8) :
    (refMod f target).getLsbD j = (refEdge f target (j + 1) - refEdge f target j == 1) := by
  rw [refMod, foldl_setBit_getLsbD _ 8 hj]
  simp [hj]

/-- Settles O34: both edges are the floor of one quotient over 2 B, and MOD's bits are the steps of 0 or 1 between
them. -/
theorem referenceProcedureIsExact : Obligations.ReferenceProcedureIsExact := by
  refine fun f target h => ⟨(floor_div f h).symm, refEdge_eq_exactEdge f h, fun j hj => ?_⟩
  rw [refMod_getLsbD f target hj, ← refEdge_eq_exactEdge f h, ← refEdge_eq_exactEdge f h]
  rcases refEdge_succ f h j with e | e
  · simp [e]
  · have hdiff : ((refEdge f target j + 1 : Nat) : Int) - refEdge f target j = 1 := by omega
    rw [e, Nat.add_sub_cancel_left, hdiff]
    rfl

/-! ### The two selections -/

theorem frameTime_115200 : frameTime 41#16 0x6D#8 = 416 := by decide

theorem frameTime_9600 : frameTime 3#16 0x4A#8 = 34 := by decide

/-- Settles O35: the procedure's values are computed, and each error is a fraction with the frame's TICKs below it. -/
theorem baudSelections : Obligations.BaudSelections := by
  refine ⟨by decide, by decide, by decide, by decide, by decide, by decide, ?_, ?_⟩
  · rw [withinTolerance, baudError, frameTime_115200]
    grind
  · rw [withinTolerance, baudError, frameTime_9600]
    grind

end Sys2Proof.Machine
end

