-- ==== Sys2Proof/Proofs/TickRuns.lean ====
section
/-! PROOFS. What a TICK keeps, when it delivers, and any number of TICKs in a row as steps of the block alone
(42_baud_and_engines.md sections 2 and 4). -/

namespace Sys2Proof.Machine

/-! ### The frame of a TICK -/

@[simp] theorem Block.engines_hold (r : Bool) (b : Block) : (b.engines r).hold = b.hold := by
  rw [Block.engines_eq, Block.rxTick_frame]; rfl
@[simp] theorem Block.engines_clksel (r : Bool) (b : Block) : (b.engines r).clksel = b.clksel := by
  rw [Block.engines_eq, Block.rxTick_frame]; rfl
@[simp] theorem Block.engines_brlo (r : Bool) (b : Block) : (b.engines r).brlo = b.brlo := by
  rw [Block.engines_eq, Block.rxTick_frame]; rfl
@[simp] theorem Block.engines_brhi (r : Bool) (b : Block) : (b.engines r).brhi = b.brhi := by
  rw [Block.engines_eq, Block.rxTick_frame]; rfl
@[simp] theorem Block.engines_mod (r : Bool) (b : Block) : (b.engines r).mod = b.mod := by
  rw [Block.engines_eq, Block.rxTick_frame]; rfl
@[simp] theorem Block.engines_rxie (r : Bool) (b : Block) : (b.engines r).rxie = b.rxie := by
  rw [Block.engines_eq, Block.rxTick_frame]; rfl
@[simp] theorem Block.engines_txie (r : Bool) (b : Block) : (b.engines r).txie = b.txie := by
  rw [Block.engines_eq, Block.rxTick_frame]; rfl
@[simp] theorem Block.engines_txbuf (r : Bool) (b : Block) : (b.engines r).txbuf = b.txbuf := by
  rw [Block.engines_eq, Block.rxTick_frame]; rfl
@[simp] theorem Block.engines_rxPrev (r : Bool) (b : Block) : (b.engines r).rxPrev = r := rfl

@[simp] theorem Block.engines_br (r : Bool) (b : Block) : (b.engines r).br = b.br := by simp [Block.br]
@[simp] theorem Block.engines_bitLen (r : Bool) (b : Block) (i : Nat) : (b.engines r).bitLen i = b.bitLen i := by
  simp [Block.bitLen]
@[simp] theorem Block.engines_halfLen (r : Bool) (b : Block) (i : Nat) : (b.engines r).halfLen i = b.halfLen i := by
  simp [Block.halfLen]
@[simp] theorem Block.engines_startLen (r : Bool) (b : Block) (i : Nat) : (b.engines r).startLen i = b.startLen i := by
  simp [Block.startLen]
@[simp] theorem Block.engines_frameLen (r : Bool) (b : Block) : (b.engines r).frameLen = b.frameLen := by
  simp [Block.frameLen]

theorem Block.Running.engines {b : Block} (running : b.Running) (r : Bool) : (b.engines r).Running := by
  simpa [Block.Running] using running

/-! ### Delivery -/

/-- A TICK of a running block delivers, or it changes nothing of what a delivery writes (R104). -/
theorem Block.rxTick_delivers_or_keeps {b : Block} (r : Bool) (running : b.Running) :
    (b.DeliveryBy (.tick r) ∧
      b.rxTick r = Block.deliver { b with rxCnt := BitVec.ofNat 16 (b.rxCnt.toNat + 1) }) ∨
    (¬ b.DeliveryBy (.tick r) ∧ (b.rxTick r).rxbuf = b.rxbuf ∧ (b.rxTick r).rxip = b.rxip ∧
      (b.rxTick r).rxUnread = b.rxUnread ∧ (b.rxTick r).faults = b.faults) := by
  by_cases sample : b.rxPhase = .bit ∧ b.rxCnt.toNat + 1 = b.halfLen b.rxBit.toNat
  · obtain ⟨bit, hhalf⟩ := sample
    have htick := Block.rxTick_samples r running bit hhalf
    by_cases h9 : b.rxBit.toNat = 9
    · exact .inl ⟨⟨⟨r, rfl⟩, running, bit, h9, h9 ▸ hhalf⟩, by rw [htick, h9, Block.sample_stop]⟩
    · refine .inr ⟨fun ⟨_, _, _, h, _⟩ => h9 h, ?_⟩
      rw [htick]
      rcases Block.sample_cases b.rxBit.toNat r { b with rxCnt := BitVec.ofNat 16 (b.rxCnt.toNat + 1) } with
        ⟨-, -, e⟩ | ⟨-, -, e⟩ | ⟨-, -, e⟩ | ⟨h, -⟩ | ⟨-, e⟩
      case inr.inr.inr.inl => exact absurd h h9
      all_goals simp [e]
  · obtain ⟨hbuf, hip, hunread, -, hfaults⟩ := Block.rxTick_keeps_of_no_sample r sample
    exact .inr ⟨fun ⟨_, _, bit, h9, hhalf⟩ => sample ⟨bit, h9.symm ▸ hhalf⟩, hbuf, hip, hunread, hfaults⟩

/-- A TICK raises RxOverrun where it delivers over an unread byte, and no other marker (R105). -/
theorem Block.rxTick_faults {b : Block} (r : Bool) (running : b.Running) :
    (b.DeliveryBy (.tick r) ∧ (b.rxTick r).faults = { b.faults with rxOverrun := b.faults.rxOverrun || b.rxUnread }) ∨
    (¬ b.DeliveryBy (.tick r) ∧ (b.rxTick r).faults = b.faults) := by
  rcases Block.rxTick_delivers_or_keeps r running with ⟨delivery, e⟩ | ⟨none, -, -, -, e⟩
  · exact .inl ⟨delivery, by simp [e, Block.deliver_eq, Faults.mark_rxOverrun_if]⟩
  · exact .inr ⟨none, e⟩

/-- Settles O27: a TICK that steps runs both engines, which write none of these, and the only marker of the engines is
RxOverrun. -/
theorem tickFrame : Obligations.TickFrame := by
  intro r s t h
  rcases execTick_cases r s with ⟨-, e⟩ | ⟨-, e⟩ | ⟨running, e⟩ <;> rw [e] at h <;> cases h
  · simp
  · rcases Block.rxTick_faults r running with ⟨-, e⟩ | ⟨-, e⟩ <;> simp [e]

/-! ### TICKs in a row -/

/-- The block after n TICKs, TICK p seeing `line p` on the receive line. -/
def Block.after (line : Nat → Bool) (b : Block) : Nat → Block
  | 0 => b
  | n + 1 => (b.after line n).engines (line n)

@[simp] theorem Block.after_zero (line : Nat → Bool) (b : Block) : b.after line 0 = b := rfl

theorem Block.after_succ (line : Nat → Bool) (b : Block) (n : Nat) :
    b.after line (n + 1) = (b.after line n).engines (line n) := rfl

/-- The first TICK taken apart from the others. -/
theorem Block.after_succ' (line : Nat → Bool) (b : Block) (n : Nat) :
    b.after line (n + 1) = (b.engines (line 0)).after (fun p => line (p + 1)) n := by
  induction n with
  | zero => rfl
  | succ n ih => rw [Block.after_succ, ih, Block.after_succ]

/-- Only the line's first n levels matter to n TICKs. -/
theorem Block.after_congr {line line' : Nat → Bool} {n : Nat} (b : Block) (h : ∀ p, p < n → line p = line' p) :
    b.after line n = b.after line' n := by
  induction n with
  | zero => rfl
  | succ n ih =>
    rw [Block.after_succ, Block.after_succ, ih fun p hp => h p (Nat.lt_succ_of_lt hp), h n (Nat.lt_succ_self n)]

@[simp] theorem Block.after_br (line : Nat → Bool) (b : Block) (n : Nat) : (b.after line n).br = b.br := by
  induction n with
  | zero => rfl
  | succ n ih => rw [Block.after_succ, Block.engines_br, ih]

@[simp] theorem Block.after_mod (line : Nat → Bool) (b : Block) (n : Nat) : (b.after line n).mod = b.mod := by
  induction n with
  | zero => rfl
  | succ n ih => rw [Block.after_succ, Block.engines_mod, ih]

@[simp] theorem Block.after_txbuf (line : Nat → Bool) (b : Block) (n : Nat) : (b.after line n).txbuf = b.txbuf := by
  induction n with
  | zero => rfl
  | succ n ih => rw [Block.after_succ, Block.engines_txbuf, ih]

@[simp] theorem Block.after_bitLen (line : Nat → Bool) (b : Block) (n i : Nat) :
    (b.after line n).bitLen i = b.bitLen i := by simp [Block.bitLen]
@[simp] theorem Block.after_halfLen (line : Nat → Bool) (b : Block) (n i : Nat) :
    (b.after line n).halfLen i = b.halfLen i := by simp [Block.halfLen]
@[simp] theorem Block.after_startLen (line : Nat → Bool) (b : Block) (n i : Nat) :
    (b.after line n).startLen i = b.startLen i := by simp [Block.startLen]
@[simp] theorem Block.after_frameLen (line : Nat → Bool) (b : Block) (n : Nat) :
    (b.after line n).frameLen = b.frameLen := by simp [Block.frameLen]

theorem Block.Running.after {b : Block} (running : b.Running) (line : Nat → Bool) (n : Nat) :
    (b.after line n).Running := by
  induction n with
  | zero => exact running
  | succ n ih => exact ih.engines (line n)

/-- A TICK label of a running block in a run. -/
theorem labelStep_tick {s : State} (r : Bool) (running : s.block.Running) :
    labelStep (.tick r) s = .next (s.onBlock (Block.engines r)).logTxd :=
  labelStep_eq_next.mpr ⟨_, exec_tick_running r running, rfl⟩

/-- TICKs of a running block run, and the block is what the engines make of it. -/
theorem runTicks_running {s : State} (rs : List Bool) (running : s.block.Running) :
    ∃ t, runTicks rs s = .next t ∧ t.block = s.block.after (fun p => rs.getD p true) rs.length := by
  induction rs generalizing s with
  | nil => exact ⟨s, rfl, rfl⟩
  | cons r rs ih =>
    obtain ⟨t, hrun, hblock⟩ := ih (s := (s.onBlock (Block.engines r)).logTxd) (running.engines r)
    refine ⟨t, ?_, ?_⟩
    · simp only [runTicks, List.map_cons, runLabels, labelStep_tick r running, andThen_next]
      exact hrun
    · rw [hblock, List.length_cons, Block.after_succ']
      rfl

/-- With rxd tied to txd the line shows txd of the block before the TICK (R108). -/
def Block.loopback (b : Block) : Nat → Block
  | 0 => b
  | n + 1 => (b.loopback n).engines (b.loopback n).txd

theorem Block.loopback_eq_after (b : Block) (n : Nat) : b.loopback n = b.after (fun p => (b.loopback p).txd) n := by
  induction n with
  | zero => rfl
  | succ n ih => rw [Block.loopback, Block.after_succ, ← ih]

theorem Block.loopback_succ' (b : Block) (n : Nat) : b.loopback (n + 1) = (b.engines b.txd).loopback n := by
  induction n with
  | zero => rfl
  | succ n ih => rw [Block.loopback, ih, Block.loopback]

theorem runLoopback_running {s : State} (n : Nat) (running : s.block.Running) :
    ∃ t, runLoopback n s = .next t ∧ t.block = s.block.loopback n := by
  induction n generalizing s with
  | zero => exact ⟨s, rfl, rfl⟩
  | succ n ih =>
    obtain ⟨t, hrun, hblock⟩ :=
      ih (s := (s.onBlock (Block.engines s.block.txd)).logTxd) (running.engines s.block.txd)
    refine ⟨t, ?_, ?_⟩
    · simp only [runLoopback, labelStep_tick _ running, andThen_next]
      exact hrun
    · rw [hblock, Block.loopback_succ']
      rfl

end Sys2Proof.Machine
end

