-- ==== Sys2Proof/Proofs/Transmit.lean ====
section
/-! PROOFS. The transmitter over a whole frame: where it stands after any number of TICKs, and what it shows there
(42_baud_and_engines.md section 3). -/

namespace Sys2Proof.Machine

/-- The transmitter has spent p TICKs of its frame: the bit-times before this one, and the count (R30). -/
structure Block.Sending (b : Block) (p : Nat) : Prop where
  bit : b.txPhase = .bit
  bitRange : b.txBit.toNat ≤ 9
  cntRange : b.txCnt.toNat < b.bitLen b.txBit.toNat
  position : b.startLen b.txBit.toNat + b.txCnt.toNat = p

/-! ### One TICK -/

/-- With a legal divisor every bit-time has a TICK. -/
theorem Block.Running.bitLen_pos {b : Block} (running : b.Running) (i : Nat) : 0 < b.bitLen i := by
  obtain ⟨-, hbr⟩ := running
  have := (b.bitLen_bounds i).1
  omega

/-- A byte that waits begins its frame. -/
theorem Block.sending_of_wait {b : Block} (r : Bool) (running : b.Running) (wait : b.txPhase = .wait) :
    (b.engines r).Sending 0 ∧ (b.engines r).txip = b.txip := by
  have htick := Block.txTick_wait wait
  exact ⟨⟨by simp [htick], by simp [htick], by simp [htick, running.bitLen_pos], by simp [htick]⟩, by simp [htick]⟩

/-- Before its last TICK a frame goes on, one TICK further. -/
theorem Block.Sending.engines {b : Block} {p : Nat} (h : b.Sending p) (r : Bool) (running : b.Running)
    (hp : p + 1 < b.frameLen) : (b.engines r).Sending (p + 1) ∧ (b.engines r).txip = b.txip := by
  obtain ⟨bit, h9, hcnt, hpos⟩ := h
  by_cases hlast : b.txCnt.toNat + 1 < b.bitLen b.txBit.toNat
  · have htick := Block.txTick_counts bit hlast
    have hcnt' := Block.toNat_ofNat_of_lt_bitLen hlast
    exact ⟨⟨by simp [htick, bit], by simp [htick, h9], by simpa [htick, hcnt'] using hlast,
      by simp [htick, hcnt', ← hpos, Nat.add_assoc]⟩, by simp [htick]⟩
  · have hstop : b.txBit.toNat < 9 := by
      rw [Block.frameLen_eq] at hp
      refine Nat.lt_of_le_of_ne h9 fun h9' => ?_
      rw [h9'] at hpos hlast
      omega
    have htick := Block.txTick_nextBit bit (Nat.not_lt.mp hlast) hstop
    have hbit : (b.txBit + 1#4).toNat = b.txBit.toNat + 1 := by bv_omega
    have hstart : b.startLen (b.txBit.toNat + 1) = p + 1 := by
      rw [Block.startLen_succ]
      omega
    have hbit' : (b.engines r).txBit.toNat = b.txBit.toNat + 1 := by simp [htick, hbit]
    exact ⟨⟨by simp [htick, bit], hbit' ▸ hstop, by simp [htick, running.bitLen_pos],
      by simpa [htick, hbit] using hstart⟩, by simp [htick]⟩

/-- A frame's position lies in its bit-time. -/
theorem Block.Sending.lt_startLen {b : Block} {p : Nat} (h : b.Sending p) : p < b.startLen (b.txBit.toNat + 1) := by
  obtain ⟨-, -, hcnt, hpos⟩ := h
  rw [Block.startLen_succ]
  omega

theorem Block.Sending.lt_frameLen {b : Block} {p : Nat} (h : b.Sending p) : p < b.frameLen :=
  Nat.lt_of_lt_of_le h.lt_startLen (b.startLen_mono (show b.txBit.toNat + 1 ≤ 10 from Nat.succ_le_succ h.bitRange))

/-- The last TICK of a frame ends it (R98). -/
theorem Block.Sending.ends {b : Block} {p : Nat} (h : b.Sending p) (r : Bool) (running : b.Running)
    (hp : b.frameLen = p + 1) : (b.engines r).txPhase = .idle ∧ (b.engines r).txip = true := by
  have hpos := h.position
  rw [Block.frameLen_eq] at hp
  have hstop : b.txBit.toNat = 9 := by
    refine Decidable.byContradiction fun hne => ?_
    have hle := b.startLen_mono (show b.txBit.toNat + 1 ≤ 9 from Nat.lt_of_le_of_ne h.bitRange hne)
    have hlt := h.lt_startLen
    have hlong := running.bitLen_pos 9
    omega
  have hlast : b.bitLen b.txBit.toNat ≤ b.txCnt.toNat + 1 := by
    rw [hstop] at hpos ⊢
    omega
  simp [Block.txTick_endOfFrame h.bit hlast (Nat.le_of_eq hstop.symm)]

/-- An idle transmitter stays idle. -/
theorem Block.engines_of_txIdle {b : Block} (r : Bool) (idle : b.txPhase = .idle) :
    (b.engines r).txPhase = .idle ∧ (b.engines r).txip = b.txip := by
  simp [Block.txTick_idle idle, idle]

/-! ### Any number of TICKs -/

/-- A frame under way after n more TICKs, whatever the receive line does: it goes on until its N_F TICKs are over, and
then the transmitter is idle with TXIP set. -/
theorem Block.Sending.after {b : Block} {p : Nat} (h : b.Sending p) (line : Nat → Bool) (running : b.Running) (n : Nat) :
    (p + n < b.frameLen ∧ (b.after line n).Sending (p + n) ∧ (b.after line n).txip = b.txip) ∨
    (b.frameLen ≤ p + n ∧ (b.after line n).txPhase = .idle ∧ (b.after line n).txip = true) := by
  induction n with
  | zero => exact .inl ⟨h.lt_frameLen, h, rfl⟩
  | succ n ih =>
    rw [Block.after_succ]
    rcases ih with ⟨hlt, sending, hip⟩ | ⟨hle, idle, hip⟩
    · by_cases hlast : p + n + 1 < b.frameLen
      · obtain ⟨hnext, hkeep⟩ := sending.engines (line n) (running.after line n) (by simpa using hlast)
        exact .inl ⟨hlast, hnext, hkeep.trans hip⟩
      · exact .inr ⟨Nat.not_lt.mp hlast, sending.ends (line n) (running.after line n) (by simp; omega)⟩
    · obtain ⟨hidle, hkeep⟩ := Block.engines_of_txIdle (line n) idle
      exact .inr ⟨Nat.le_succ_of_le hle, hidle, hkeep.trans hip⟩

/-- While a frame is sent, txd shows the bit of the bit-time that the position falls into (R93, R95). -/
theorem Block.Sending.txd {b : Block} {p i : Nat} (h : b.Sending p) (hi : b.startLen i ≤ p)
    (hi' : p < b.startLen (i + 1)) : b.txd = frameBit b.txbuf i := by
  have hpos := h.position
  have hbit : b.txBit.toNat = i := Block.bitTime_unique (by omega) h.lt_startLen hi hi'
  rw [Block.txd_of_bit h.bit, hbit]

/-! ### A write and the TICKs after it -/

/-- A write of DATA keeps the lengths of bit-times and of the frame. -/
@[simp] theorem Block.writeData_startLen (v : Byte) (b : Block) (i : Nat) :
    (b.writeData v).startLen i = b.startLen i := by
  rcases b.writeData_cases v with ⟨-, e⟩ | ⟨-, -, e⟩ | ⟨-, -, e⟩ <;> rw [e] <;> rfl

@[simp] theorem Block.writeData_halfLen (v : Byte) (b : Block) (i : Nat) : (b.writeData v).halfLen i = b.halfLen i := by
  rcases b.writeData_cases v with ⟨-, e⟩ | ⟨-, -, e⟩ | ⟨-, -, e⟩ <;> rw [e] <;> rfl

@[simp] theorem Block.writeData_frameLen (v : Byte) (b : Block) : (b.writeData v).frameLen = b.frameLen :=
  Block.writeData_startLen v b 10

theorem Block.Running.writeData {b : Block} (running : b.Running) (v : Byte) : (b.writeData v).Running := by
  rcases b.writeData_cases v with ⟨-, e⟩ | ⟨-, -, e⟩ | ⟨-, -, e⟩ <;> simpa [e, Block.Running, Block.br] using running

/-- A write of DATA in a running block, and then TICKs. -/
theorem runLabels_wrData_ticks {s : State} (v : Byte) (rs : List Bool) (running : s.block.Running) :
    ∃ t, runLabels (.wrData v :: rs.map Instr.tick) s = .next t ∧
      t.block = (s.block.writeData v).after (fun p => rs.getD p true) rs.length := by
  obtain ⟨t, hrun, hblock⟩ := runTicks_running (s := (s.onBlock (Block.writeData v)).logTxd) rs (running.writeData v)
  exact ⟨t, runLabels_cons_eq_next.mpr ⟨_, exec_wrData v s, hrun⟩, hblock⟩

/-- Outside a frame a write of DATA leaves its byte waiting. -/
theorem Block.writeData_waits {b : Block} (v : Byte) (hold : b.hold = false) (hbit : b.txPhase ≠ .bit) :
    (b.writeData v).txPhase = .wait ∧ (b.writeData v).txbuf = v := by
  cases hp : b.txPhase with
  | idle => simp [Block.writeData_idle hold hp]
  | wait => simp [Block.writeData_busy hold (by simp [hp] : b.txPhase ≠ .idle), hp]
  | bit => exact absurd hp hbit

theorem Block.txd_of_wait {b : Block} (h : b.txPhase = .wait) : b.txd = true := by rw [Block.txd, h]

/-- A byte that waits, after n + 1 TICKs: the first begins its frame, and n of the frame are spent. -/
theorem Block.after_of_wait {b : Block} (line : Nat → Bool) (running : b.Running) (wait : b.txPhase = .wait) (n : Nat) :
    (n < b.frameLen ∧ (b.after line (n + 1)).Sending n ∧ (b.after line (n + 1)).txip = b.txip) ∨
    (b.frameLen ≤ n ∧ (b.after line (n + 1)).txPhase = .idle ∧ (b.after line (n + 1)).txip = true) := by
  obtain ⟨sending, hip⟩ := Block.sending_of_wait (line 0) running wait
  have hafter := sending.after (fun p => line (p + 1)) (running.engines (line 0)) n
  rw [hip, Block.engines_frameLen, Nat.zero_add] at hafter
  rwa [Block.after_succ']

/-- Settles O29: the byte waits, the first TICK begins its frame, and after t TICKs the frame has spent t - 1. -/
theorem transmitTiming : Obligations.TransmitTiming := by
  intro v rs s running hbit
  obtain ⟨t, hrun, hblock⟩ := runLabels_wrData_ticks v rs running
  obtain ⟨wait, hbuf⟩ := Block.writeData_waits v running.1 hbit
  refine ⟨t, hrun, ?_⟩
  cases hn : rs.length with
  | zero =>
    rw [hn, Block.after_zero] at hblock
    have hlen := s.block.frameLen_eq
    have hlong := running.bitLen_pos 9
    refine ⟨fun _ => ?_, fun i _ hi => ?_, fun _ => ?_, fun h => ?_⟩
    · exact ⟨hblock ▸ wait, hblock ▸ Block.txd_of_wait wait⟩
    · omega
    · simp [hblock]
    · omega
  | succ n =>
    rw [hn] at hblock
    have hbyte : t.block.txbuf = v := by rw [hblock, Block.after_txbuf, hbuf]
    have hstart : ∀ i, t.block.startLen i = s.block.startLen i := by simp [hblock]
    have hafter := Block.after_of_wait (fun p => rs.getD p true) (running.writeData v) wait n
    rw [← hblock, Block.writeData_frameLen, Block.writeData_txip] at hafter
    refine ⟨fun h => absurd h (Nat.succ_ne_zero n), ?_⟩
    rcases hafter with ⟨hlt, sending, hip⟩ | ⟨hle, idle, hip⟩
    · refine ⟨fun i _ hi hi' => ?_, fun _ => hip, fun h => absurd h (by omega)⟩
      rw [sending.txd (i := i) (by rw [hstart]; omega) (by rw [hstart]; omega), hbyte]
    · refine ⟨fun i h9 _ hi' => absurd hi' ?_, fun h => absurd h (by omega), fun _ => ⟨hip, idle, Block.txd_of_idle idle⟩⟩
      have := s.block.startLen_mono (show i + 1 ≤ 10 by omega)
      have : s.block.frameLen = s.block.startLen 10 := rfl
      omega

/-- A busy write keeps the transmitter's place in its frame. -/
theorem Block.Sending.writeData {b : Block} {p : Nat} (h : b.Sending p) (v : Byte) (hold : b.hold = false) :
    (b.writeData v).Sending p := by
  obtain ⟨bit, h9, hcnt, hpos⟩ := h
  rw [Block.writeData_busy hold (by simp [bit] : b.txPhase ≠ .idle)]
  exact ⟨bit, h9, hcnt, hpos⟩

/-- TICKs clear no marker. -/
theorem Block.after_keeps_txWriteWhileBusy {b : Block} (line : Nat → Bool) (running : b.Running) (n : Nat) :
    (b.after line n).faults.txWriteWhileBusy = b.faults.txWriteWhileBusy := by
  induction n with
  | zero => rfl
  | succ n ih =>
    rw [Block.after_succ, Block.engines_faults]
    rcases Block.rxTick_faults (line n) (running.after line n) with ⟨-, e⟩ | ⟨-, e⟩ <;> rw [e] <;> exact ih

/-- Settles O30: the write keeps the frame's position, so that the frame ends after the same TICKs, and only TXBUF, from
which txd is read, has changed. -/
theorem overwrittenFrameGoesOn : Obligations.OverwrittenFrameGoesOn := by
  intro v rs s running bit h9 hcnt
  obtain ⟨t, hrun, hblock⟩ := runLabels_wrData_ticks v rs running
  have busy : s.block.txPhase ≠ .idle := by simp [bit]
  have hwrite := Block.writeData_busy (d := v) running.1 busy
  have sending : (s.block.writeData v).Sending _ := Block.Sending.writeData ⟨bit, h9, hcnt, rfl⟩ v running.1
  have hbyte : t.block.txbuf = v := by rw [hblock, Block.after_txbuf, hwrite]
  have hstart : ∀ i, t.block.startLen i = s.block.startLen i := by simp [hblock]
  have hafter := sending.after (fun p => rs.getD p true) (running.writeData v) rs.length
  rw [← hblock, Block.writeData_frameLen, Block.writeData_txip] at hafter
  refine ⟨t, hrun, ?_, ?_⟩
  · rw [hblock, Block.after_keeps_txWriteWhileBusy _ (running.writeData v), hwrite]
  rcases hafter with ⟨hlt, sending, hip⟩ | ⟨hle, idle, hip⟩
  · refine ⟨fun i _ hi hi' => ?_, fun _ => ⟨hip, sending.bit⟩, fun h => absurd h (Nat.not_le.mpr hlt)⟩
    rw [sending.txd (hstart i ▸ hi) (hstart (i + 1) ▸ hi'), hbyte]
  · refine ⟨fun i h9 _ hi' => absurd (Nat.lt_of_lt_of_le hi' ?_) (Nat.not_lt.mpr hle),
      fun h => absurd hle (Nat.not_le.mpr h), fun _ => ⟨hip, idle, Block.txd_of_idle idle⟩⟩
    exact s.block.startLen_mono (show i + 1 ≤ 10 from Nat.succ_le_succ h9)

end Sys2Proof.Machine
end

