-- ==== Sys2Proof/Proofs/Receive.lean ====
section
/-! PROOFS. The receiver over a whole frame: where it stands after any number of TICKs, what it has sampled, and when it
delivers (42_baud_and_engines.md sections 4 and 5). -/

namespace Sys2Proof.Machine

/-! ### Where the receiver stands -/

/-- The receiver has counted p TICKs of its frame since the one that began it: the bit-times before this one, and the
count; it leaves the stop bit at its sample (R32, R101). -/
structure Block.Receiving (b : Block) (p : Nat) : Prop where
  bit : b.rxPhase = .bit
  bitRange : b.rxBit.toNat ≤ 9
  cntRange : b.rxCnt.toNat < b.bitLen b.rxBit.toNat
  stopLeft : b.rxBit.toNat = 9 → b.rxCnt.toNat < b.halfLen 9
  position : b.startLen b.rxBit.toNat + b.rxCnt.toNat = p

/-- What a delivery writes, unchanged from one block to another (R104). -/
structure Block.SameDelivery (b c : Block) : Prop where
  rxbuf : c.rxbuf = b.rxbuf
  rxip : c.rxip = b.rxip
  rxUnread : c.rxUnread = b.rxUnread
  faults : c.faults = b.faults

theorem Block.SameDelivery.refl (b : Block) : b.SameDelivery b := ⟨rfl, rfl, rfl, rfl⟩

theorem Block.SameDelivery.trans {b c d : Block} (h : b.SameDelivery c) (h' : c.SameDelivery d) : b.SameDelivery d :=
  ⟨h'.rxbuf.trans h.rxbuf, h'.rxip.trans h.rxip, h'.rxUnread.trans h.rxUnread, h'.faults.trans h.faults⟩

/-- A TICK that does not deliver. -/
theorem Block.sameDelivery_engines {b : Block} {r : Bool} (running : b.Running) (h : ¬ b.DeliveryBy (.tick r)) :
    b.SameDelivery (b.engines r) := by
  rcases Block.rxTick_delivers_or_keeps r running with ⟨delivery, -⟩ | ⟨-, hbuf, hip, hunread, hfaults⟩
  · exact absurd delivery h
  · exact ⟨by simpa using hbuf, by simpa using hip, by simpa using hunread, by simpa using hfaults⟩

theorem Block.halfLen_pos {b : Block} (running : b.Running) (i : Nat) : 0 < b.halfLen i :=
  (halfTime_bounds b.br b.mod i running.2).1

/-- A TICK is the sample of a bit-time only within that bit-time, at its half. -/
theorem Block.sampleTime_iff {b : Block} (running : b.Running) {i c k : Nat} (hc : c < b.bitLen i) :
    b.startLen i + c = b.startLen k + b.halfLen k ↔ k = i ∧ c = b.halfLen k := by
  constructor
  · intro h
    have hk := b.halfLen_lt_bitLen running k
    have hki : k = i := Block.bitTime_unique (b := b) (p := b.startLen i + c) (by omega)
      (by rw [Block.startLen_succ]; omega) (by omega) (by rw [Block.startLen_succ]; omega)
    subst hki
    exact ⟨rfl, by omega⟩
  · rintro ⟨rfl, rfl⟩
    rfl

/-- Every frame position lies in its bit-time. -/
theorem Block.Receiving.lt_startLen {b : Block} {p : Nat} (h : b.Receiving p) :
    p < b.startLen (b.rxBit.toNat + 1) := by
  have hcnt := h.cntRange
  have hpos := h.position
  rw [Block.startLen_succ]
  omega

/-- The TICK that delivers is the one at the half of the stop bit (R104). -/
theorem Block.Receiving.delivery_iff {b : Block} {p : Nat} (h : b.Receiving p) (r : Bool) (running : b.Running) :
    b.DeliveryBy (.tick r) ↔ p + 1 = b.startLen 9 + b.halfLen 9 := by
  have hpos := h.position
  constructor
  · rintro ⟨-, -, -, h9, hhalf⟩
    rw [h9] at hpos
    omega
  · intro hp
    have hhalf := b.halfLen_pos running 9
    have h9 : b.rxBit.toNat = 9 := by
      refine Decidable.byContradiction fun hne => ?_
      have := b.startLen_mono (show b.rxBit.toNat + 1 ≤ 9 from Nat.lt_of_le_of_ne h.bitRange hne)
      have := h.lt_startLen
      omega
    rw [h9] at hpos
    exact ⟨⟨r, rfl⟩, running, h.bit, h9, by omega⟩

/-! ### One TICK of a frame -/

/-- A falling edge begins a frame (R100). -/
theorem Block.receiving_of_edge {b : Block} (running : b.Running) (idle : b.rxPhase = .idle) (prev : b.rxPrev = true) :
    (b.engines false).Receiving 0 := by
  have htick := Block.rxTick_starts idle prev
  exact ⟨by simp [htick], by simp [htick], by simp [htick, running.bitLen_pos], by simp [htick], by simp [htick]⟩

/-- The count goes one TICK further within its bit-time. -/
theorem Block.Receiving.counts {b : Block} {p : Nat} {r : Bool} (h : b.Receiving p)
    (hlast : b.rxCnt.toNat + 1 < b.bitLen b.rxBit.toNat) (hp : p + 1 ≠ b.startLen 9 + b.halfLen 9)
    (bit : (b.engines r).rxPhase = .bit) (hbit : (b.engines r).rxBit = b.rxBit)
    (hcnt : (b.engines r).rxCnt = BitVec.ofNat 16 (b.rxCnt.toNat + 1)) : (b.engines r).Receiving (p + 1) := by
  have hpos := h.position
  have hcnt' : (b.engines r).rxCnt.toNat = b.rxCnt.toNat + 1 := by rw [hcnt, Block.toNat_ofNat_of_lt_bitLen hlast]
  refine ⟨bit, hbit ▸ h.bitRange, by rwa [hbit, hcnt', Block.engines_bitLen], fun h9 => ?_, ?_⟩
  · rw [hbit] at h9
    have hstop := h.stopLeft h9
    rw [h9] at hpos
    rw [hcnt', Block.engines_halfLen]
    omega
  · rw [hbit, hcnt', Block.engines_startLen]
    omega

/-- The last TICK of a bit-time leads into the next one, and is no sample. -/
theorem Block.Receiving.nextBit {b : Block} {p : Nat} (h : b.Receiving p) (r : Bool) (running : b.Running)
    (hlast : b.rxCnt.toNat + 1 = b.bitLen b.rxBit.toNat) :
    (b.engines r).Receiving (p + 1) ∧ (b.engines r).rxShift = b.rxShift ∧
      ∀ k, p + 1 ≠ b.startLen k + b.halfLen k := by
  have htick := Block.rxTick_nextBit r h.bit hlast
  have hpos := h.position
  have hstop : b.rxBit.toNat < 9 := by
    refine Nat.lt_of_le_of_ne h.bitRange fun h9 => ?_
    have := b.halfLen_lt_bitLen running 9
    have := h.stopLeft h9
    rw [h9] at hlast
    omega
  have hbit : (b.rxBit + 1#4).toNat = b.rxBit.toNat + 1 := by bv_omega
  have hnext : b.startLen (b.rxBit.toNat + 1) = p + 1 := by
    rw [Block.startLen_succ]
    omega
  have hbit' : (b.engines r).rxBit.toNat = b.rxBit.toNat + 1 := by simp [htick, hbit]
  refine ⟨⟨by simp [htick, h.bit], hbit' ▸ hstop, by simp [htick, running.bitLen_pos],
    fun _ => by simpa [htick] using b.halfLen_pos running 9, by simpa [htick, hbit] using hnext⟩, by simp [htick],
    fun k hk => ?_⟩
  have hpos' := b.halfLen_pos running k
  rw [← hnext, ← Nat.add_zero (b.startLen (b.rxBit.toNat + 1)),
    Block.sampleTime_iff running (running.bitLen_pos _)] at hk
  omega

/-- The sample of a start or a data bit: a 1 in the start bit ends the frame, and a data bit goes to rx_shift (R102,
R103). -/
theorem Block.Receiving.sample {b : Block} {p : Nat} (h : b.Receiving p) (r : Bool) (running : b.Running)
    (hp : p + 1 ≠ b.startLen 9 + b.halfLen 9) (hhalf : b.rxCnt.toNat + 1 = b.halfLen b.rxBit.toNat) :
    (b.rxBit.toNat = 0 ∧ r = true ∧ (b.engines r).rxPhase = .idle) ∨
    ((b.engines r).Receiving (p + 1) ∧ (b.rxBit.toNat = 0 → r = false ∧ (b.engines r).rxShift = b.rxShift) ∧
      (1 ≤ b.rxBit.toNat → (b.engines r).rxShift = setBit b.rxShift (b.rxBit.toNat - 1) r)) := by
  have htick := Block.rxTick_samples r running h.bit hhalf
  have hpos := h.position
  have hlast : b.rxCnt.toNat + 1 < b.bitLen b.rxBit.toNat := hhalf ▸ Block.halfLen_lt_bitLen running _
  by_cases h0 : b.rxBit.toNat = 0
  · rw [h0, Block.sample_start] at htick
    cases r with
    | true => exact .inl ⟨h0, rfl, by simp [htick]⟩
    | false =>
      refine .inr ⟨h.counts hlast hp ?_ ?_ ?_, fun _ => ⟨rfl, ?_⟩, fun h1 => absurd h1 (by omega)⟩ <;>
        simp [htick, h.bit]
  · have h8 : b.rxBit.toNat ≤ 8 := by
      refine Nat.le_of_lt_succ (Nat.lt_of_le_of_ne h.bitRange fun (h9 : b.rxBit.toNat = 9) => ?_)
      rw [h9] at hhalf hpos
      omega
    rw [Block.sample_data r _ (Nat.one_le_iff_ne_zero.mpr h0) h8] at htick
    refine .inr ⟨h.counts hlast hp ?_ ?_ ?_, fun h => absurd h h0, fun _ => ?_⟩ <;> simp [htick, h.bit]

/-- Before its delivery a frame goes on, one TICK further, unless the start bit's sample is 1; the sample of data bit k
writes that bit of rx_shift, and no other TICK writes it (R101 to R103). -/
theorem Block.Receiving.engines {b : Block} {p : Nat} (h : b.Receiving p) (r : Bool) (running : b.Running)
    (hp : p + 1 ≠ b.startLen 9 + b.halfLen 9) :
    (p + 1 = b.halfLen 0 ∧ r = true ∧ (b.engines r).rxPhase = .idle) ∨
    ((b.engines r).Receiving (p + 1) ∧ ∀ k, k < 8 → (b.engines r).rxShift.getLsbD k =
      if p + 1 = b.startLen (k + 1) + b.halfLen (k + 1) then r else b.rxShift.getLsbD k) := by
  have hpos := h.position
  have hcnt := h.cntRange
  by_cases hlast : b.rxCnt.toNat + 1 = b.bitLen b.rxBit.toNat
  · obtain ⟨hnext, hshift, hno⟩ := h.nextBit r running hlast
    exact .inr ⟨hnext, fun k _ => by rw [hshift, if_neg (hno (k + 1))]⟩
  have htime : ∀ k, p + 1 = b.startLen k + b.halfLen k ↔ k = b.rxBit.toNat ∧ b.rxCnt.toNat + 1 = b.halfLen k := by
    intro k
    rw [← hpos, Nat.add_assoc]
    exact Block.sampleTime_iff running (by omega)
  by_cases hhalf : b.rxCnt.toNat + 1 = b.halfLen b.rxBit.toNat
  · rcases h.sample r running hp hhalf with ⟨h0, hr, idle⟩ | ⟨hnext, hstart, hdata⟩
    · rw [h0, Block.startLen_zero] at hpos
      rw [h0] at hhalf
      exact .inl ⟨by omega, hr, idle⟩
    · refine .inr ⟨hnext, fun k hk => ?_⟩
      by_cases h0 : b.rxBit.toNat = 0
      · have hno : ¬ p + 1 = b.startLen (k + 1) + b.halfLen (k + 1) := fun e => by
          have := ((htime (k + 1)).mp e).1
          omega
        rw [(hstart h0).2, if_neg hno]
      · rw [hdata (Nat.one_le_iff_ne_zero.mpr h0), setBit_getLsbD _ _ _ _ hk]
        by_cases hkb : k + 1 = b.rxBit.toNat
        · rw [if_pos (by omega), if_pos ((htime (k + 1)).mpr ⟨hkb, hkb ▸ hhalf⟩)]
        · rw [if_neg (by omega), if_neg fun e => hkb ((htime (k + 1)).mp e).1]
  · have htick := Block.rxTick_counts r h.bit hlast hhalf
    refine .inr ⟨h.counts (by omega) hp ?_ ?_ ?_, fun k _ => ?_⟩
    · simp [htick, h.bit]
    · simp [htick]
    · simp [htick]
    · have hno : ¬ p + 1 = b.startLen (k + 1) + b.halfLen (k + 1) := fun e => by
        obtain ⟨hk, he⟩ := (htime (k + 1)).mp e
        exact hhalf (hk ▸ he)
      simp [htick, hno]

/-! ### Any line, from an idle receiver -/

/-- An idle receiver stays idle or begins a frame, and delivers nothing. -/
theorem Block.engines_of_rxIdle {b : Block} (r : Bool) (running : b.Running) (idle : b.rxPhase = .idle) :
    (b.engines r).rxPhase = .idle ∨ (b.engines r).Receiving 0 := by
  rcases b.rxTick_cases r with ⟨-, -, e⟩ | ⟨-, prev, rfl, -⟩ | ⟨bit, -⟩ | ⟨bit, -⟩ | ⟨bit, -⟩
  · exact .inl (by simp [e, idle])
  · exact .inr (Block.receiving_of_edge running idle prev)
  all_goals simp [idle] at bit

theorem Block.not_deliveryBy_of_rxIdle {b : Block} (i : Instr) (idle : b.rxPhase = .idle) : ¬ b.DeliveryBy i :=
  fun ⟨_, _, bit, _⟩ => by simp [idle] at bit

/-- From an idle receiver, through TICK S(9) + H(9) - 1, whatever the line does: nothing is delivered, and a frame under
way began at one of these TICKs. -/
theorem Block.after_quiet {b : Block} (line : Nat → Bool) (running : b.Running) (idle : b.rxPhase = .idle) (n : Nat)
    (hn : n ≤ b.startLen 9 + b.halfLen 9) :
    b.SameDelivery (b.after line n) ∧
      ((b.after line n).rxPhase = .idle ∨ ∃ p, p < n ∧ (b.after line n).Receiving p) := by
  induction n with
  | zero => exact ⟨.refl b, .inl idle⟩
  | succ n ih =>
    obtain ⟨same, idle | ⟨p, hp, receiving⟩⟩ := ih (Nat.le_of_succ_le hn) <;>
      have running' := running.after line n <;> rw [Block.after_succ]
    · refine ⟨same.trans (Block.sameDelivery_engines running' (Block.not_deliveryBy_of_rxIdle _ idle)), ?_⟩
      exact (Block.engines_of_rxIdle (line n) running' idle).imp_right fun h => ⟨0, Nat.succ_pos n, h⟩
    · have hstop : p + 1 ≠ (b.after line n).startLen 9 + (b.after line n).halfLen 9 := by simp; omega
      refine ⟨same.trans (Block.sameDelivery_engines running' fun h =>
        hstop ((receiving.delivery_iff (line n) running').mp h)), ?_⟩
      rcases receiving.engines (line n) running' hstop with ⟨-, -, idle⟩ | ⟨hnext, -⟩
      · exact .inl idle
      · exact .inr ⟨p + 1, Nat.succ_lt_succ hp, hnext⟩

/-- Settles O33: a delivery is S(9) + H(9) TICKs after the one that begins its frame. -/
theorem receiveDeadline : Obligations.ReceiveDeadline := by
  intro rs s running idle hlen
  obtain ⟨t, hrun, hblock⟩ := runTicks_running rs running
  obtain ⟨same, -⟩ := Block.after_quiet (fun p => rs.getD p true) running idle rs.length hlen
  rw [← hblock] at same
  exact ⟨t, hrun, same.rxbuf, same.rxip, same.rxUnread, same.faults⟩

/-- A line that stays 0 has no falling edge. -/
theorem Block.after_stuckLow {b : Block} (running : b.Running) (idle : b.rxPhase = .idle) (prev : b.rxPrev = false)
    (n : Nat) : b.SameDelivery (b.after (fun _ => false) n) ∧ (b.after (fun _ => false) n).rxPhase = .idle ∧
      (b.after (fun _ => false) n).rxPrev = false := by
  induction n with
  | zero => exact ⟨.refl b, idle, prev⟩
  | succ n ih =>
    obtain ⟨same, idle, prev⟩ := ih
    rw [Block.after_succ]
    refine ⟨same.trans (Block.sameDelivery_engines (running.after _ n) (Block.not_deliveryBy_of_rxIdle _ idle)), ?_, rfl⟩
    simp [Block.rxTick_idle idle (r := false) (.inl prev), idle]

/-- Settles O28: without a falling edge no frame begins, so that nothing is delivered. -/
theorem stuckLowLineStartsNothing : Obligations.StuckLowLineStartsNothing := by
  intro n s running idle prev
  obtain ⟨t, hrun, hblock⟩ := runTicks_running (List.replicate n false) running
  have hline : s.block.after (fun p => (List.replicate n false).getD p true) n = s.block.after (fun _ => false) n :=
    s.block.after_congr fun p hp => by simp [hp]
  rw [List.length_replicate, hline] at hblock
  obtain ⟨same, hidle, hprev⟩ := Block.after_stuckLow running idle prev n
  exact ⟨t, hrun, hblock ▸ hidle, hblock ▸ hprev, hblock ▸ same.rxbuf, hblock ▸ same.rxip⟩

/-! ### A correctly timed frame -/

/-- The line carries the frame of v from TICK 0 on, and rests at 1 after it (R67, R93). -/
structure Block.Carries (b : Block) (line : Nat → Bool) (v : Byte) : Prop where
  level : ∀ i p, i ≤ 9 → b.startLen i ≤ p → p < b.startLen (i + 1) → line p = frameBit v i
  rest : ∀ p, b.frameLen ≤ p → line p = true

/-- From the stop bit on, the line is 1. -/
theorem Block.Carries.stop {b : Block} {line : Nat → Bool} {v : Byte} (h : b.Carries line v) {p : Nat}
    (hp : b.startLen 9 ≤ p) : line p = true := by
  by_cases hend : p < b.startLen 10
  · exact h.level 9 p (Nat.le_refl 9) hp hend
  · exact h.rest p (Nat.not_lt.mp hend)

/-- At the sample of a bit-time the line shows that bit. -/
theorem Block.Carries.sample {b : Block} {line : Nat → Bool} {v : Byte} (h : b.Carries line v) (running : b.Running)
    {i : Nat} (hi : i ≤ 9) : line (b.startLen i + b.halfLen i) = frameBit v i := by
  have hlt := b.halfLen_lt_bitLen running i
  exact h.level i _ hi (Nat.le_add_right _ _) (by rw [Block.startLen_succ]; omega)

/-- Within a frame on the line: n TICKs after the one that begins it, every data bit that was due is sampled. -/
theorem Block.Carries.receiving {b : Block} {line : Nat → Bool} {v : Byte} (h : b.Carries line v) (running : b.Running)
    (idle : b.rxPhase = .idle) (prev : b.rxPrev = true) (n : Nat) (hn : n < b.startLen 9 + b.halfLen 9) :
    (b.after line (n + 1)).Receiving n ∧ ∀ k, k < 8 → b.startLen (k + 1) + b.halfLen (k + 1) ≤ n →
      (b.after line (n + 1)).rxShift.getLsbD k = v.getLsbD k := by
  induction n with
  | zero =>
    have hfirst : line 0 = false := h.level 0 0 (Nat.zero_le 9) (Nat.le_refl 0) (by
      rw [Block.startLen_succ, Block.startLen_zero, Nat.zero_add]
      exact running.bitLen_pos 0)
    refine ⟨?_, fun k _ hk => absurd hk ?_⟩
    · rw [Block.after_succ, Block.after_zero, hfirst]
      exact Block.receiving_of_edge running idle prev
    · have := b.halfLen_pos running (k + 1)
      omega
  | succ n ih =>
    obtain ⟨receiving, hbits⟩ := ih (Nat.lt_of_succ_lt hn)
    have hstop : n + 1 ≠ (b.after line (n + 1)).startLen 9 + (b.after line (n + 1)).halfLen 9 := by simp; omega
    rw [Block.after_succ]
    rcases receiving.engines (line (n + 1)) (running.after line (n + 1)) hstop with ⟨hn0, hr, -⟩ | ⟨hnext, hshift⟩
    · have hstart := h.sample running (Nat.zero_le 9)
      rw [Block.after_halfLen] at hn0
      rw [Block.startLen_zero, Nat.zero_add, ← hn0, hr] at hstart
      cases hstart
    · refine ⟨hnext, fun k hk8 hk => ?_⟩
      rw [hshift k hk8, Block.after_startLen, Block.after_halfLen]
      split
      next hnow => rw [hnow, h.sample running (by omega), frameBit_data v _ (by omega) (by omega), Nat.add_sub_cancel]
      next hnow => exact hbits k hk8 (by omega)

/-- The stop bit's sample comes after those of all data bits. -/
theorem Block.dataSample_lt_stopSample {b : Block} (running : b.Running) {k : Nat} (hk : k < 8) :
    b.startLen (k + 1) + b.halfLen (k + 1) < b.startLen 9 + b.halfLen 9 := by
  have hlt := b.halfLen_lt_bitLen running (k + 1)
  have hle := b.startLen_mono (show k + 1 + 1 ≤ 9 by omega)
  rw [Block.startLen_succ] at hle
  omega

/-- From block b to block c byte v was delivered, with the overrun check against b, and the receiver is idle since
(R104, R105). -/
structure Block.Delivered (b : Block) (v : Byte) (c : Block) : Prop where
  rxbuf : c.rxbuf = some v
  rxip : c.rxip = true
  rxUnread : c.rxUnread = true
  idle : c.rxPhase = .idle
  faults : c.faults = { b.faults with rxOverrun := b.faults.rxOverrun || b.rxUnread }

/-- The TICK that delivers. -/
theorem Block.delivered_engines {b : Block} {r : Bool} (running : b.Running) (h : b.DeliveryBy (.tick r)) :
    b.Delivered b.rxShift (b.engines r) := by
  rcases Block.rxTick_delivers_or_keeps r running with ⟨-, e⟩ | ⟨none, -⟩
  · constructor <;> simp [e, Block.deliver_eq, Faults.mark_rxOverrun_if]
  · exact absurd h none

/-- After a delivery a line at 1 changes nothing. -/
theorem Block.Delivered.engines {b c : Block} {v : Byte} (h : b.Delivered v c) : b.Delivered v (c.engines true) := by
  obtain ⟨hbuf, hip, hunread, idle, hfaults⟩ := h
  constructor <;> simp [Block.rxTick_idle idle (r := true) (.inr rfl), hbuf, hip, hunread, idle, hfaults]

/-- What is delivered before is not seen by a delivery's check. -/
theorem Block.SameDelivery.delivered {b c d : Block} {v : Byte} (h : b.SameDelivery c) (h' : c.Delivered v d) :
    b.Delivered v d := ⟨h'.rxbuf, h'.rxip, h'.rxUnread, h'.idle, by rw [h'.faults, h.faults, h.rxUnread]⟩

/-- At the sample of the stop bit the byte of the frame is delivered (R104 to R106). -/
theorem Block.Carries.delivers {b : Block} {line : Nat → Bool} {v : Byte} (h : b.Carries line v) (running : b.Running)
    (idle : b.rxPhase = .idle) (prev : b.rxPrev = true) :
    b.Delivered v (b.after line (b.startLen 9 + b.halfLen 9 + 1)) := by
  obtain ⟨n, hn⟩ : ∃ n, b.startLen 9 + b.halfLen 9 = n + 1 :=
    Nat.exists_eq_add_one_of_ne_zero (by have := b.halfLen_pos running 9; omega)
  obtain ⟨receiving, hbits⟩ := h.receiving running idle prev n (by omega)
  obtain ⟨same, -⟩ := Block.after_quiet line running idle (n + 1) (Nat.le_of_eq hn.symm)
  have hshift : (b.after line (n + 1)).rxShift = v := by
    refine BitVec.eq_of_getLsbD_eq fun k hk => hbits k hk ?_
    have := Block.dataSample_lt_stopSample running hk
    omega
  have delivery := (receiving.delivery_iff (line (n + 1)) (running.after line (n + 1))).mpr (by simp [hn])
  have delivered := Block.delivered_engines (running.after line (n + 1)) delivery
  rw [hshift] at delivered
  rw [hn, Block.after_succ]
  exact same.delivered delivered

/-- A frame on the line, from an idle receiver, after n TICKs: its byte is delivered at TICK S(9) + H(9), counted from 0,
and not before (R106). -/
theorem Block.Carries.after {b : Block} {line : Nat → Bool} {v : Byte} (h : b.Carries line v) (running : b.Running)
    (idle : b.rxPhase = .idle) (prev : b.rxPrev = true) (n : Nat) :
    (n ≤ b.startLen 9 + b.halfLen 9 ∧ b.SameDelivery (b.after line n)) ∨
    (b.startLen 9 + b.halfLen 9 < n ∧ b.Delivered v (b.after line n)) := by
  rcases Nat.lt_or_ge (b.startLen 9 + b.halfLen 9) n with hlt | hle
  · refine .inr ⟨hlt, ?_⟩
    induction hlt with
    | refl => exact h.delivers running idle prev
    | @step n hn ih =>
      have hpast : b.startLen 9 + b.halfLen 9 < n := hn
      rw [Block.after_succ, h.stop (p := n) (by omega)]
      exact ih.engines
  · exact .inl ⟨hle, (Block.after_quiet line running idle n hle).1⟩

/-! ### FRAME as a line -/

theorem frameLevels_length (br : Word) (mod : Byte) (v : Byte) (n : Nat) :
    (frameLevels br mod v n).length = startTime br mod n := by
  induction n with
  | zero => rfl
  | succ n ih => rw [frameLevels, List.length_append, List.length_replicate, ih, startTime_succ]

/-- FRAME's level within a bit-time. -/
theorem frameLevels_getD {br : Word} {mod v : Byte} {n i p : Nat} (hi : i < n) (hp : startTime br mod i ≤ p)
    (hp' : p < startTime br mod (i + 1)) : (frameLevels br mod v n).getD p true = frameBit v i := by
  induction n with
  | zero => exact absurd hi (Nat.not_lt_zero i)
  | succ n ih =>
    have hlen := frameLevels_length br mod v n
    rw [frameLevels]
    rcases Nat.lt_succ_iff_lt_or_eq.mp hi with hlt | rfl
    · have hmono : startTime br mod (i + 1) ≤ startTime br mod n := startTime_mono br mod hlt
      rw [List.getD_eq_getElem?_getD, List.getElem?_append_left (by omega), ← List.getD_eq_getElem?_getD, ih hlt]
    · rw [startTime_succ] at hp'
      rw [List.getD_eq_getElem?_getD, List.getElem?_append_right (by omega), List.getElem?_replicate_of_lt (by omega),
        Option.getD_some]

/-- FRAME v, and then a line at 1, carries the frame of v (R67). -/
theorem Block.frameTicks_carries (v : Byte) (b : Block) : b.Carries (fun p => (b.frameTicks v).getD p true) v where
  level i p hi hp hp' := frameLevels_getD (Nat.lt_succ_of_le hi) hp hp'
  rest p hp := by
    have hend : (b.frameTicks v).length ≤ p := by rwa [Block.frameTicks, frameLevels_length]
    rw [List.getD_eq_getElem?_getD, List.getElem?_eq_none hend, Option.getD_none]

theorem Block.frameTicks_length (v : Byte) (b : Block) : (b.frameTicks v).length = b.frameLen :=
  frameLevels_length _ _ _ _

/-- The stop bit is left before the frame's last TICK (R107). -/
theorem Block.stopSample_lt_frameLen {b : Block} (running : b.Running) :
    b.startLen 9 + b.halfLen 9 + 1 < b.frameLen := by
  have : b.halfLen 9 + 1 < b.bitLen 9 := (halfTime_bounds b.br b.mod 9 running.2).2
  rw [Block.frameLen_eq]
  omega

/-- Settles O31: FRAME v is a line that carries the frame of v, cut after n TICKs or whole, and a whole frame is longer
than S(9) + H(9). -/
theorem frameDeliversItsByte : Obligations.FrameDeliversItsByte := by
  intro v n s running idle prev
  obtain ⟨t, hrun, hblock⟩ := runTicks_running ((s.block.frameTicks v).take n) running
  have hlong := Block.stopSample_lt_frameLen running
  have hline : t.block = s.block.after (fun p => (s.block.frameTicks v).getD p true) (min n s.block.frameLen) := by
    rw [hblock, List.length_take, Block.frameTicks_length]
    refine s.block.after_congr fun p hp => ?_
    simp only [List.getD_eq_getElem?_getD, List.getElem?_take_of_lt (Nat.lt_of_lt_of_le hp (Nat.min_le_left _ _))]
  have hafter := (s.block.frameTicks_carries v).after running idle prev (min n s.block.frameLen)
  rw [← hline] at hafter
  refine ⟨t, hrun, ?_⟩
  rcases hafter with ⟨hle, same⟩ | ⟨hlt, delivered⟩
  · exact ⟨fun _ => ⟨same.rxbuf, same.rxip, same.rxUnread⟩, fun h => absurd h (by omega)⟩
  · refine ⟨fun h => absurd h (by omega), fun _ => ⟨delivered.rxbuf, delivered.rxip, delivered.rxUnread,
      delivered.idle, ?_⟩⟩
    rw [delivered.faults]

/-! ### Loopback -/

/-- With rxd tied to txd, a transmitter that has begun the frame of a byte puts it on the receive line (R108). -/
theorem Block.Sending.carries_loopback {b : Block} (h : b.Sending 0) (running : b.Running) :
    b.Carries (fun p => (b.loopback p).txd) b.txbuf := by
  have hafter : ∀ p, (p < b.frameLen ∧ (b.loopback p).Sending p) ∨ (b.frameLen ≤ p ∧ (b.loopback p).txPhase = .idle) := by
    intro p
    have := h.after (fun p => (b.loopback p).txd) running p
    rw [← Block.loopback_eq_after, Nat.zero_add] at this
    exact this.imp (fun h => ⟨h.1, h.2.1⟩) fun h => ⟨h.1, h.2.1⟩
  have hkeeps : ∀ p, (b.loopback p).txbuf = b.txbuf ∧ ∀ i, (b.loopback p).startLen i = b.startLen i := by
    intro p
    rw [Block.loopback_eq_after]
    simp
  constructor
  case level =>
    intro i p hi hp hp'
    obtain ⟨hbuf, hstart⟩ := hkeeps p
    rcases hafter p with ⟨-, sending⟩ | ⟨hle, -⟩
    · rw [sending.txd (hstart i ▸ hp) (hstart (i + 1) ▸ hp'), hbuf]
    · have := b.startLen_mono (show i + 1 ≤ 10 from Nat.succ_le_succ hi)
      exact absurd (Nat.lt_of_lt_of_le hp' this) (Nat.not_lt.mpr hle)
  case rest =>
    intro p hp
    rcases hafter p with ⟨hlt, -⟩ | ⟨-, idle⟩
    · exact absurd hp (Nat.not_le.mpr hlt)
    · exact Block.txd_of_idle idle

/-- The TICK after a write with both engines idle and the line at 1: the transmitter begins the frame, the receiver sees
nothing of it yet (R96, R100). -/
theorem Block.engines_writeData {b : Block} (v : Byte) (running : b.Running) (txIdle : b.txPhase = .idle)
    (rxIdle : b.rxPhase = .idle) : ((b.writeData v).engines true).Sending 0 ∧
      ((b.writeData v).engines true).txbuf = v ∧ ((b.writeData v).engines true).txip = b.txip ∧
      ((b.writeData v).engines true).rxPhase = .idle ∧ ((b.writeData v).engines true).rxbuf = b.rxbuf := by
  have hwrite := Block.writeData_idle (d := v) running.1 txIdle
  obtain ⟨sending, hip⟩ := Block.sending_of_wait true (running.writeData v) (by rw [hwrite])
  have htick := Block.rxTick_idle (b := b.writeData v) (r := true) (by rw [hwrite]; exact rxIdle) (.inr rfl)
  refine ⟨sending, by simp [hwrite], by rw [hip, Block.writeData_txip], ?_, ?_⟩
  · rw [Block.engines_rxPhase, htick, hwrite]
    exact rxIdle
  · rw [Block.engines_rxbuf, htick, hwrite]

/-- Settles O32: the TICK after the write begins the frame while the line still rests at 1; from then on the line carries
that frame, of which the receiver sees the first TICK one TICK later than the transmitter begins it. -/
theorem loopbackRoundTrip : Obligations.LoopbackRoundTrip := by
  intro v n s running txIdle rxIdle prev
  have hlong := Block.stopSample_lt_frameLen running
  obtain ⟨t, hrun, hblock⟩ :=
    runLoopback_running (s := (s.onBlock (Block.writeData v)).logTxd) n (running.writeData v)
  refine ⟨by omega, _, t, labelStep_eq_next.mpr ⟨_, exec_wrData v s, rfl⟩, hrun, ?_⟩
  have hblock : t.block = (s.block.writeData v).loopback n := hblock
  have hwrite := Block.writeData_idle (d := v) running.1 txIdle
  cases n with
  | zero =>
    rw [Block.loopback, hwrite] at hblock
    exact ⟨fun _ => by rw [hblock], fun h => absurd h (by omega), fun _ => by rw [hblock], fun h => absurd h (by omega)⟩
  | succ n =>
    obtain ⟨sending, hbyte, hip, idle, hbuf⟩ := Block.engines_writeData v running txIdle rxIdle
    have running' := (running.writeData v).engines true
    rw [Block.loopback_succ', Block.txd_of_wait (b := s.block.writeData v) (by rw [hwrite]),
      Block.loopback_eq_after] at hblock
    have htx := sending.after (fun p => (((s.block.writeData v).engines true).loopback p).txd) running' n
    have hrx := (sending.carries_loopback running').after running' idle rfl n
    rw [← hblock] at htx hrx
    simp only [Block.engines_frameLen, Block.engines_startLen, Block.engines_halfLen, Block.writeData_frameLen,
      Block.writeData_startLen, Block.writeData_halfLen, hip, Nat.zero_add] at htx hrx
    have htxbuf : t.block.txbuf = v := by rw [hblock, Block.after_txbuf, hbyte]
    refine ⟨fun h => ?_, fun h => ?_, fun h => ?_, fun h => ?_⟩
    · rcases hrx with ⟨-, same⟩ | ⟨hlt, -⟩
      · rw [same.rxbuf, hbuf]
      · omega
    · rcases hrx with ⟨hle, -⟩ | ⟨-, delivered⟩
      · omega
      · exact ⟨by rw [delivered.rxbuf, hbyte], htxbuf⟩
    · rcases htx with ⟨-, -, e⟩ | ⟨hle, -⟩
      · exact e
      · omega
    · rcases htx with ⟨hlt, -⟩ | ⟨-, -, e⟩
      · omega
      · exact e

end Sys2Proof.Machine
end

