-- ==== Sys2Proof/Proofs/LabelEffects.lean ====
section
/-! PROOFS. What a label can do to the block, said once, and what follows for single labels: which registers it writes,
which markers it raises, when it stops, and how the stuck state begins and ends (10_state.md, 60_exceptions.md section 3). -/

namespace Sys2Proof.Machine

/-! ### The effect of a label on the block -/

/-- All that a label can do to the block: the block before, the label, the block after. -/
inductive Block.Effect (b : Block) : Instr → Block → Prop where
  | read {i : Instr} {reg : Reg} (hreg : reg ≠ .data) (hi : i = .ofRead reg) : Effect b i b
  | readData : Effect b .rdData { b with rxUnread := false }
  | writeData (d : Byte) : Effect b (.wrData d) (b.writeData d)
  | writeCtl (d : Byte) : Effect b (.wrCtl d) (b.writeCtl d)
  | writeBrlo (d : Byte) (hold : b.hold = true) : Effect b (.wrBrlo d) { b with brlo := d }
  | writeBrhi (d : Byte) (hold : b.hold = true) : Effect b (.wrBrhi d) { b with brhi := d }
  | writeMod (d : Byte) (hold : b.hold = true) : Effect b (.wrMod d) { b with mod := d }
  | ignored {i : Instr} (d : Byte) (hold : b.hold = false) (hi : i = .wrBrlo d ∨ i = .wrBrhi d ∨ i = .wrMod d) :
    Effect b i b
  | writeIe (d : Byte) : Effect b (.wrIe d) { b with rxie := d[0], txie := d[1] }
  | writeIp (d : Byte) : Effect b (.wrIp d) (b.clearFlags d)
  | writeRsvd (d : Byte) : Effect b (.wrRsvd d) b
  | held (r : Bool) (hold : b.hold = true) : Effect b (.tick r) b
  | engines (r : Bool) (running : b.Running) : Effect b (.tick r) (b.engines r)
  | reset (freeTx freeShift : Byte) : Effect b .reset (b.hardReset freeTx freeShift)

/-- A configuration write acts while held, and is ignored otherwise (R86). -/
theorem Block.Effect.of_ifHeld {b : Block} {i : Instr} (f : Block → Block) (d : Byte)
    (hi : i = .wrBrlo d ∨ i = .wrBrhi d ∨ i = .wrMod d) (h : b.hold = true → b.Effect i (f b)) :
    b.Effect i (b.ifHeld f) := by
  rcases Block.ifHeld_cases f b with ⟨hold, e⟩ | ⟨hold, e⟩ <;> rw [e]
  · exact h hold
  · exact .ignored d hold hi

/-- Every label that answers a next state has one of these effects. -/
theorem exec_effect {i : Instr} {s t : State} (h : exec i s = .next t) : s.block.Effect i t.block := by
  cases i with
  | rdData =>
    rcases execRdData_cases s with ⟨_, -, e⟩ | ⟨-, e⟩ <;> rw [e] at h <;> cases h <;> exact .readData
  | rdCtl => cases h; exact .read (reg := .ctl) (by decide) rfl
  | rdBrlo => cases h; exact .read (reg := .brlo) (by decide) rfl
  | rdBrhi => cases h; exact .read (reg := .brhi) (by decide) rfl
  | rdMod => cases h; exact .read (reg := .mod) (by decide) rfl
  | rdIe => cases h; exact .read (reg := .ie) (by decide) rfl
  | rdIp => cases h; exact .read (reg := .ip) (by decide) rfl
  | rdRsvd => cases h; exact .read (reg := .rsvd) (by decide) rfl
  | wrData d => cases h; exact .writeData d
  | wrCtl d => cases h; exact .writeCtl d
  | wrBrlo d => cases h; exact .of_ifHeld (fun b => { b with brlo := d }) d (.inl rfl) (.writeBrlo d)
  | wrBrhi d => cases h; exact .of_ifHeld (fun b => { b with brhi := d }) d (.inr (.inl rfl)) (.writeBrhi d)
  | wrMod d => cases h; exact .of_ifHeld (fun b => { b with mod := d }) d (.inr (.inr rfl)) (.writeMod d)
  | wrIe d => cases h; exact .writeIe d
  | wrIp d => cases h; exact .writeIp d
  | wrRsvd d => cases h; exact .writeRsvd d
  | tick r =>
    rcases execTick_cases r s with ⟨hold, e⟩ | ⟨-, e⟩ | ⟨running, e⟩ <;> rw [e] at h <;> cases h
    · exact .held r hold
    · exact .engines r running
  | reset => cases h; exact .reset _ _

/-! ### The frames of the writes -/

theorem Block.writeData_frame (d : Byte) (b : Block) : b.writeData d =
    { b with txbuf := (b.writeData d).txbuf, txPhase := (b.writeData d).txPhase, faults := (b.writeData d).faults } := by
  rcases b.writeData_cases d with ⟨-, e⟩ | ⟨-, -, e⟩ | ⟨-, -, e⟩ <;> simp [e]

theorem Block.release_frame (b : Block) : b.release = { b with faults := b.release.faults } := by
  rcases b.release_cases with ⟨-, e⟩ | ⟨-, e⟩ <;> simp [e, Block.raise]

@[simp] theorem Block.release_hold (b : Block) : b.release.hold = b.hold := by rw [Block.release_frame]

/-- A write of CTL leaves the enables, the divisor, the modulation and the data alone. -/
theorem Block.writeCtl_keeps (d : Byte) (b : Block) :
    (b.writeCtl d).rxie = b.rxie ∧ (b.writeCtl d).txie = b.txie ∧ (b.writeCtl d).txbuf = b.txbuf ∧
      (b.writeCtl d).brlo = b.brlo ∧ (b.writeCtl d).brhi = b.brhi ∧ (b.writeCtl d).mod = b.mod ∧
      (b.writeCtl d).rxbuf = b.rxbuf := by
  rcases b.writeCtl_cases d with ⟨-, -, e⟩ | ⟨-, -, e⟩ | ⟨-, -, e⟩ | ⟨-, -, e⟩ <;> rw [e]
  case inr.inl => rw [Block.release_frame]; simp
  all_goals simp

/-- Each register is written by its own labels only, RXBUF by a delivery. -/
theorem Block.Effect.frame {i : Instr} {b c : Block} (h : b.Effect i c) (hreset : i ≠ .reset) :
    ((∀ d, i ≠ .wrIe d) → c.rxie = b.rxie ∧ c.txie = b.txie) ∧ ((∀ d, i ≠ .wrData d) → c.txbuf = b.txbuf) ∧
      ((∀ d, i ≠ .wrCtl d) → c.hold = b.hold ∧ c.clksel = b.clksel) ∧ ((∀ d, i ≠ .wrBrlo d) → c.brlo = b.brlo) ∧
      ((∀ d, i ≠ .wrBrhi d) → c.brhi = b.brhi) ∧ ((∀ d, i ≠ .wrMod d) → c.mod = b.mod) ∧
      (¬ b.DeliveryBy i → c.rxbuf = b.rxbuf) := by
  cases h with
  | reset => exact absurd rfl hreset
  | writeData d => rw [Block.writeData_frame]; simp
  | writeCtl d => simp [Block.writeCtl_keeps]
  | engines r running =>
    rcases Block.rxTick_delivers_or_keeps r running with ⟨delivery, -⟩ | ⟨-, e, -⟩
    · simp [delivery]
    · simp [e]
  | _ => simp

/-- Settles O17: each label's effect is followed, and its frame says what it leaves; the two flags are followed by their
events. -/
theorem registersWrittenOnlyByTheirLabels : Obligations.RegistersWrittenOnlyByTheirLabels := by
  intro i s t h hreset
  obtain ⟨ie, data, ctl, brlo, brhi, mod, rxbuf⟩ := (exec_effect h).frame hreset
  refine ⟨ie, data, ctl, brlo, brhi, mod, rxbuf, fun hi entry delivery => ?rxip, fun hi entry frameEnd => ?txip⟩
  case rxip =>
    rw [Bool.eq_iff_iff, (exec_flagsEffect h).rxip_iff]
    simp [hi, entry, delivery]
  case txip =>
    rw [Bool.eq_iff_iff, (exec_flagsEffect h).txip_iff]
    simp [hi, entry, frameEnd]

/-! ### Outside the block -/

/-- A READ puts one answer on the record. -/
theorem exec_ofRead_answers (reg : Reg) {s t : State} (h : exec (.ofRead reg) s = .next t) :
    ∃ v, t.answers = v :: s.answers := by
  cases reg with
  | data => rcases execRdData_cases s with ⟨v, -, e⟩ | ⟨-, e⟩ <;> cases e.symm.trans h <;> exact ⟨_, rfl⟩
  | _ => cases h; exact ⟨_, rfl⟩

/-- A label that is no READ answers nothing. -/
theorem exec_answers_of_not_read {i : Instr} {s t : State} (h : exec i s = .next t) (hi : ∀ reg, i ≠ .ofRead reg) :
    t.answers = s.answers := by
  obtain ⟨reg, rfl⟩ | ⟨reg, d, rfl⟩ | ⟨r, rfl⟩ | rfl := i.kind_cases
  · exact absurd rfl (hi reg)
  · cases reg <;> cases h <;> rfl
  · rcases execTick_cases r s with ⟨-, e⟩ | ⟨-, e⟩ | ⟨-, e⟩ <;> rw [e] at h <;> cases h <;> rfl
  · cases h; rfl

/-- Settles O18: the rest of the state is the run's, and only a READ answers. -/
theorem labelsLeaveTheRestAlone : Obligations.LabelsLeaveTheRestAlone := by
  intro i s t h
  obtain ⟨host, schedule, refused, txdLog⟩ := exec_keeps_run h
  refine ⟨host, schedule, refused, txdLog, ?_, fun reg hi => exec_ofRead_answers reg (hi ▸ h)⟩
  by_cases hread : ∃ reg, i = .ofRead reg
  · obtain ⟨reg, rfl⟩ := hread
    obtain ⟨v, hv⟩ := exec_ofRead_answers reg h
    exact .inr ⟨reg, v, rfl, hv⟩
  · exact .inl (exec_answers_of_not_read h fun reg e => hread ⟨reg, e⟩)

/-- Settles O36: RESET writes each of these fields, whatever the state. -/
theorem resetValues : Obligations.ResetValues := ⟨rfl, fun _ => ⟨_, _, _, rfl⟩⟩

/-! ### When a label stops -/

/-- Settles O40: a TICK has its three cases, and any other label steps. -/
theorem onlyStuckTickStops : Obligations.OnlyStuckTickStops := by
  intro i s
  by_cases htick : ∃ r, i = .tick r
  · obtain ⟨r, rfl⟩ := htick
    rcases execTick_cases r s with ⟨hold, e⟩ | ⟨stuck, e⟩ | ⟨running, e⟩ <;> rw [e]
    · simp [Block.Stuck, hold]
    · exact ⟨⟨fun _ => ⟨⟨r, rfl⟩, stuck⟩, fun _ => ⟨_, rfl⟩⟩, by simp⟩
    · simp [Block.Stuck, running.1, Nat.not_lt.mpr running.2]
  · obtain ⟨t, e⟩ := exec_next_of_not_tick i s fun r h => htick ⟨r, h⟩
    simp [e, htick]

/-! ### HOLD and the configuration -/

/-- A label enters hold, or releases it, or leaves it as it is. -/
theorem Block.Effect.hold_cases {i : Instr} {b c : Block} (h : b.Effect i c) :
    (b.HoldEntryBy i ∧ c.hold = true) ∨
    (b.ReleaseBy i ∧ ∃ d : Byte, c = Block.release { b with clksel := d[1], hold := false }) ∨
    (¬ b.HoldEntryBy i ∧ c.hold = b.hold) := by
  cases h with
  | writeCtl d =>
    rcases b.writeCtl_cases d with ⟨hold, -, e⟩ | ⟨hold, h0, e⟩ | ⟨hold, h0, e⟩ | ⟨-, h0, e⟩
    · exact .inr (.inr ⟨(Block.flagsQuietBy_wrCtl (.inl hold)).noHoldEntry, by rw [e]⟩)
    · exact .inr (.inl ⟨⟨d, rfl, hold, h0⟩, d, e⟩)
    · exact .inl ⟨.inr ⟨d, rfl, hold, h0⟩, by rw [e]; rfl⟩
    · exact .inr (.inr ⟨(Block.flagsQuietBy_wrCtl (.inr h0)).noHoldEntry, by rw [e]⟩)
  | reset => exact .inl ⟨.inl rfl, rfl⟩
  | writeData d => exact .inr (.inr ⟨by simp [Block.HoldEntryBy], by rw [Block.writeData_frame]⟩)
  | engines r _ => exact .inr (.inr ⟨by simp [Block.HoldEntryBy], by simp⟩)
  | @read i reg _ hi => exact .inr (.inr ⟨by subst hi; cases reg <;> simp [Block.HoldEntryBy, Instr.ofRead], rfl⟩)
  | ignored d _ hi => exact .inr (.inr ⟨by rcases hi with rfl | rfl | rfl <;> simp [Block.HoldEntryBy], rfl⟩)
  | _ => exact .inr (.inr ⟨by simp [Block.HoldEntryBy], rfl⟩)

/-- While HOLD = 0 only a hold entry changes the configuration (R86). -/
theorem Block.Effect.keeps_config {i : Instr} {b c : Block} (h : b.Effect i c) (hold : b.hold = false)
    (hi : ¬ b.HoldEntryBy i) : c.hold = false ∧ c.clksel = b.clksel ∧ c.br = b.br ∧ c.mod = b.mod := by
  cases h with
  | writeCtl d =>
    have h0 : d[0] = false := by
      cases h0 : d[0] with
      | false => rfl
      | true => exact absurd (.inr ⟨d, rfl, hold, h0⟩) hi
    simp [Block.writeCtl_running hold h0, hold]
  | reset => exact absurd (.inl rfl) hi
  | writeData d =>
    rw [Block.writeData_frame]
    exact ⟨hold, rfl, rfl, rfl⟩
  | engines r _ => simp [hold]
  | writeBrlo d held | writeBrhi d held | writeMod d held => simp [hold] at held
  | _ => exact ⟨hold, rfl, rfl, rfl⟩

/-- What every label of a run keeps, the run keeps. -/
theorem runLabels_keeps {P : Block → Prop} {is : List Instr} {s t : State}
    (keeps : ∀ i ∈ is, ∀ u v : State, exec i u = .next v → P u.block → P v.block) (h : runLabels is s = .next t)
    (hs : P s.block) : P t.block := by
  induction is generalizing s with
  | nil =>
    cases h
    exact hs
  | cons i rest ih =>
    obtain ⟨u, hu, hrest⟩ := runLabels_cons_eq_next.mp h
    exact ih (fun j hj => keeps j (List.mem_cons_of_mem i hj)) hrest (keeps i List.mem_cons_self s u hu hs)

/-- A label that is no RESET and writes no 1 to CTL.HOLD enters no hold. -/
theorem Block.not_holdEntryBy {b : Block} {i : Instr} (hreset : i ≠ .reset) (hctl : ∀ d : Byte, i = .wrCtl d → d[0] = false) :
    ¬ b.HoldEntryBy i := by
  rintro (e | ⟨d, e, -, h0⟩)
  · exact hreset e
  · simp [hctl d e] at h0

/-- Settles O16: no label of the run is a hold entry, so that each keeps HOLD at 0 and the configuration. -/
theorem configurationFixedWhileRunning : Obligations.ConfigurationFixedWhileRunning := by
  intro is s t hold his h
  refine runLabels_keeps (P := fun b => b.hold = false ∧ b.clksel = s.block.clksel ∧ b.br = s.block.br ∧
    b.mod = s.block.mod) (fun i hi u v hu ⟨hold, hclk, hbr, hmod⟩ => ?_) h ⟨hold, rfl, rfl, rfl⟩
  obtain ⟨hreset, hctl⟩ := his i hi
  obtain ⟨hold', hclk', hbr', hmod'⟩ := (exec_effect hu).keeps_config hold (Block.not_holdEntryBy hreset hctl)
  exact ⟨hold', hclk'.trans hclk, hbr'.trans hbr, hmod'.trans hmod⟩

/-- Settles O41: a label that leaves HOLD at 0 keeps the divisor, so that only a release can begin the stuck state, and
only a hold entry can end it. -/
theorem stuckOnlyByIllegalRelease : Obligations.StuckOnlyByIllegalRelease := by
  intro i s t h
  have effect := exec_effect h
  refine ⟨fun hnot hstuck => ?begins, fun hstuck => ⟨fun hnot => ?ends, fun entry => ?entry⟩⟩
  case begins =>
    obtain ⟨hold', hbr'⟩ := hstuck
    rcases effect.hold_cases with ⟨-, hold⟩ | ⟨release, d, e⟩ | ⟨noEntry, hold⟩
    · simp [hold] at hold'
    · refine ⟨release, ?_⟩
      have hbr : Block.br { s.block with clksel := d[1], hold := false } = t.block.br := by
        rw [e, Block.release_frame]
        rfl
      rw [e, Block.release_of_illegal (by rwa [hbr])]
      rfl
    · rw [hold] at hold'
      obtain ⟨-, -, hbr, -⟩ := effect.keeps_config hold' noEntry
      exact absurd ⟨hold', hbr ▸ hbr'⟩ hnot
  case ends =>
    refine Classical.byContradiction fun noEntry => ?_
    obtain ⟨hold', -, hbr, -⟩ := effect.keeps_config hstuck.1 noEntry
    exact hnot ⟨hold', hbr.symm ▸ hstuck.2⟩
  case entry =>
    rcases effect.hold_cases with ⟨-, hold⟩ | ⟨⟨-, -, hold, -⟩, -⟩ | ⟨noEntry, -⟩
    · simp [Block.Stuck, hold]
    · simp [hstuck.1] at hold
    · exact absurd entry noEntry

/-! ### Markers -/

/-- The cause of each marker (R131). -/
def Block.RaisedBy (b : Block) (i : Instr) : FaultCode → Prop
  | .txWriteWhileBusy => (∃ d, i = .wrData d) ∧ b.hold = false ∧ b.txPhase ≠ .idle
  | .rxOverrun => b.DeliveryBy i ∧ b.rxUnread = true
  | .illegalDivisor => b.ReleaseBy i ∧ b.br.toNat < 3

/-- The marker that a label's kind can raise. -/
def markerOf : Instr → Option FaultCode
  | .wrData _ => some .txWriteWhileBusy
  | .tick _ => some .rxOverrun
  | .wrCtl _ => some .illegalDivisor
  | _ => none

theorem Block.RaisedBy.marker {b : Block} {i : Instr} {code : FaultCode} (h : b.RaisedBy i code) :
    markerOf i = some code := by
  cases code with
  | txWriteWhileBusy => obtain ⟨⟨d, rfl⟩, -⟩ := h; rfl
  | rxOverrun => obtain ⟨⟨⟨r, rfl⟩, -⟩, -⟩ := h; rfl
  | illegalDivisor => obtain ⟨⟨d, rfl, -⟩, -⟩ := h; rfl

/-- A label is the cause of one marker at most (R134). -/
theorem Block.RaisedBy.unique {b : Block} {i : Instr} {code code' : FaultCode} (h : b.RaisedBy i code)
    (h' : b.RaisedBy i code') : code = code' := Option.some.inj (h.marker.symm.trans h'.marker)

/-- A label raises the marker it is the cause of, and no other. -/
def Block.Marks (b : Block) (i : Instr) (c : Block) : Prop :=
  (c.faults = b.faults ∧ ∀ code, ¬ b.RaisedBy i code) ∨ ∃ code, b.RaisedBy i code ∧ c.faults = b.faults.mark code

theorem Block.marks_of_quiet {b c : Block} {i : Instr} (hf : c.faults = b.faults) (hi : markerOf i = none) :
    b.Marks i c := .inl ⟨hf, fun code h => by simp [h.marker] at hi⟩

/-- A label of one marker's kind that is not its cause raises none. -/
theorem Block.marks_of_no_cause {b c : Block} {i : Instr} {code : FaultCode} (hf : c.faults = b.faults)
    (hi : markerOf i = some code) (hno : ¬ b.RaisedBy i code) : b.Marks i c :=
  .inl ⟨hf, fun _ h => hno (Option.some.inj (hi.symm.trans h.marker) ▸ h)⟩

theorem Block.writeData_marks (d : Byte) (b : Block) : b.Marks (.wrData d) (b.writeData d) := by
  rcases b.writeData_cases d with ⟨hold, e⟩ | ⟨-, idle, e⟩ | ⟨hold, busy, e⟩
  · exact Block.marks_of_no_cause (by rw [e]) rfl fun h => by simp [h.2.1] at hold
  · exact Block.marks_of_no_cause (by rw [e]) rfl fun h => h.2.2 idle
  · exact .inr ⟨.txWriteWhileBusy, ⟨⟨d, rfl⟩, hold, busy⟩, by rw [e]; rfl⟩

theorem Block.writeCtl_marks (d : Byte) (b : Block) : b.Marks (.wrCtl d) (b.writeCtl d) := by
  have noRelease (h : b.hold = false ∨ d[0] = true) : ¬ b.RaisedBy (.wrCtl d) .illegalDivisor := by
    rintro ⟨⟨e, he, hold, h0⟩, -⟩
    cases he
    simp [hold, h0] at h
  rcases b.writeCtl_cases d with ⟨-, h0, e⟩ | ⟨hold, h0, e⟩ | ⟨hold, -, e⟩ | ⟨hold, -, e⟩
  · exact Block.marks_of_no_cause (by rw [e]) rfl (noRelease (.inr h0))
  · rcases Block.release_cases { b with clksel := d[1], hold := false } with ⟨hbr, er⟩ | ⟨hbr, er⟩
    · exact .inr ⟨.illegalDivisor, ⟨⟨d, rfl, hold, h0⟩, hbr⟩, by rw [e, er]; rfl⟩
    · exact Block.marks_of_no_cause (by rw [e, er]) rfl fun h => absurd h.2 (Nat.not_lt.mpr hbr)
  · exact Block.marks_of_no_cause (by rw [e]; rfl) rfl (noRelease (.inl hold))
  · exact Block.marks_of_no_cause (by rw [e]) rfl (noRelease (.inl hold))

theorem Block.engines_marks {r : Bool} {b : Block} (running : b.Running) : b.Marks (.tick r) (b.engines r) := by
  rcases Block.rxTick_faults r running with ⟨delivery, e⟩ | ⟨none, e⟩
  · cases hu : b.rxUnread with
    | false => exact Block.marks_of_no_cause (by simp [e, hu]) rfl fun h => by simp [h.2] at hu
    | true => exact .inr ⟨.rxOverrun, ⟨delivery, hu⟩, by simp [e, hu, Faults.mark]⟩
  · exact Block.marks_of_no_cause (by simp [e]) rfl fun h => none h.1

theorem Block.Effect.marks {i : Instr} {b c : Block} (h : b.Effect i c) : b.Marks i c := by
  cases h with
  | writeData d => exact Block.writeData_marks d b
  | writeCtl d => exact Block.writeCtl_marks d b
  | engines r running => exact Block.engines_marks running
  | held r hold => exact Block.marks_of_no_cause rfl rfl fun ⟨⟨_, running, _⟩, _⟩ => by simp [running.1] at hold
  | @read i reg _ hi => exact Block.marks_of_quiet rfl (by subst hi; cases reg <;> rfl)
  | ignored d _ hi => exact Block.marks_of_quiet rfl (by rcases hi with rfl | rfl | rfl <;> rfl)
  | _ => exact Block.marks_of_quiet rfl rfl

/-- After a label a marker is set exactly if it was, or if the label is its cause. -/
theorem Block.Effect.has_iff {i : Instr} {b c : Block} (h : b.Effect i c) (code : FaultCode) :
    c.faults.has code = true ↔ b.faults.has code = true ∨ b.RaisedBy i code := by
  rcases h.marks with ⟨e, none⟩ | ⟨code', raised, e⟩
  · simp [e, none code]
  · have hcode : b.RaisedBy i code ↔ code' = code := ⟨raised.unique, fun e => e ▸ raised⟩
    simp [e, Faults.has_mark, hcode]

/-- Settles O43: each marker is set by its cause alone, and a label is the cause of one marker at most. -/
theorem markerCauses : Obligations.MarkerCauses := by
  intro i s t h
  have has := (exec_effect h).has_iff
  have raised (code : FaultCode) (new : t.block.faults.has code = true) (old : s.block.faults.has code = false) :
      s.block.RaisedBy i code := ((has code).mp new).resolve_left (by simp [old])
  exact ⟨has .txWriteWhileBusy, has .rxOverrun, has .illegalDivisor,
    fun c c' hc hb hc' hb' => (raised c hc hb).unique (raised c' hc' hb')⟩

end Sys2Proof.Machine
end

