-- ==== Sys2Proof/Proofs/Turns.lean ====
section
/-! PROOFS. One step by the turn it takes: a label word, a dispatch, a turn of the host or of the timer
(60_exceptions.md section 2). -/

namespace Sys2Proof.Machine

/-! ### Label words -/

theorem wordStep_of_decode {w : Word} {i : Instr} (s : State) (h : decode w = .ok i) : wordStep w s = labelStep i s := by
  simp only [wordStep, h]

theorem wordStep_of_refused {w : Word} {e : DecodeError} (s : State) (h : decode w = .error e) :
    wordStep w s = .next { s with refused := true } := by
  simp only [wordStep, h]

/-- Settles O5: the turn is a label, whose outcome is exec's, and txd is recorded after a next state. -/
theorem stepRunsDecodedLabel : Obligations.StepRunsDecodedLabel := by
  intro s w ts i hs hw
  have hstep : step s = labelStep i { s with schedule := ts } := (step_cons hs).trans (wordStep_of_decode _ hw)
  refine ⟨fun t h => ?_, fun f h => ?_⟩
  · exact hstep.trans (labelStep_eq_next.mpr ⟨t, h, rfl⟩)
  · rw [hstep, labelStep, h, andThen_fault]

/-- Settles O6: the turn is a word that the decoder refuses. -/
theorem stepMarksIllFormedWord : Obligations.StepMarksIllFormedWord :=
  fun _ _ _ _ hs hw => (step_cons hs).trans (wordStep_of_refused _ hw)

/-! ### Turns that never stop -/

theorem perform_next (c : Ctx) (a : HostAct) (s : State) : ∃ t, HostAct.perform c a s = .next t := by
  cases a with
  | bus op => exact busStep_next c op s
  | write reg e => exact busStep_next c (.wr reg (BitVec.ofNat 8 (s.host.eval c e))) s
  | _ => exact ⟨_, rfl⟩

@[simp] theorem State.leaveIfDone_block (s : State) : s.leaveIfDone.block = s.block := by
  unfold State.leaveIfDone
  split <;> rfl

@[simp] theorem State.leaveIfDone_refused (s : State) : s.leaveIfDone.refused = s.refused := by
  unfold State.leaveIfDone
  split <;> rfl

/-- With no handler running its turn is passed over (log 3). -/
theorem handlerStep_none {s : State} (h : s.host.inHandler = none) : handlerStep s = .next s := by
  simp only [handlerStep, h]

/-- A handler whose body has ended returns. -/
theorem handlerStep_nil {s : State} {src : Source} (h : s.host.inHandler = some src) (htodo : s.host.handlerTodo = []) :
    handlerStep s = .next s.leaveHandler := by
  simp only [handlerStep, h, htodo]

/-- A running handler performs its next act, with the body that the act calls put before the rest. -/
theorem handlerStep_cons {s : State} {src : Source} {a : HostAct} {rest : List HostAct}
    (h : s.host.inHandler = some src) (htodo : s.host.handlerTodo = a :: rest) :
    handlerStep s = andThen (HostAct.perform .handler a
      (s.onHost fun h => { h with handlerTodo := HostAct.called .handler s.host a ++ rest })) fun t =>
        .next t.leaveIfDone := by
  simp only [handlerStep, h, htodo]

theorem handlerStep_next (s : State) : ∃ t, handlerStep s = .next t := by
  cases h : s.host.inHandler with
  | none => exact ⟨s, handlerStep_none h⟩
  | some src =>
    cases htodo : s.host.handlerTodo with
    | nil => exact ⟨_, handlerStep_nil h htodo⟩
    | cons a rest =>
      obtain ⟨u, hu⟩ := perform_next .handler a
        (s.onHost fun h => { h with handlerTodo := HostAct.called .handler s.host a ++ rest })
      exact ⟨u.leaveIfDone, by rw [handlerStep_cons h htodo, hu, andThen_next]⟩

/-- While a handler runs or the main context waits, its turn is passed over (R130, R142). -/
theorem mainStep_passed {s : State} (h : ¬ (s.host.inHandler = none ∧ s.host.waiting = false)) :
    mainStep s = .next s := by
  rw [mainStep, if_neg h]

/-- The main program has ended (log 28). -/
theorem mainStep_nil {s : State} (h : s.host.inHandler = none ∧ s.host.waiting = false) (htodo : s.host.mainTodo = []) :
    mainStep s = .next s := by
  simp only [mainStep, if_pos h, htodo]

/-- The main context begins its low-power wait (R123). -/
theorem mainStep_wait {s : State} {rest : List MainAct} (h : s.host.inHandler = none ∧ s.host.waiting = false)
    (htodo : s.host.mainTodo = .wait :: rest) :
    mainStep s = .next (s.onHost fun h => { h with mainTodo := rest, waiting := true }) := by
  simp only [mainStep, if_pos h, htodo]

/-- The main context performs its next act, with the body that the act calls put before the rest. -/
theorem mainStep_act {s : State} {a : HostAct} {rest : List MainAct}
    (h : s.host.inHandler = none ∧ s.host.waiting = false) (htodo : s.host.mainTodo = .act a :: rest) :
    mainStep s = HostAct.perform .main a
      (s.onHost fun h => { h with mainTodo := (HostAct.called .main s.host a).map MainAct.act ++ rest }) := by
  simp only [mainStep, if_pos h, htodo]

theorem mainStep_next (s : State) : ∃ t, mainStep s = .next t := by
  by_cases h : s.host.inHandler = none ∧ s.host.waiting = false
  · rcases htodo : s.host.mainTodo with _ | ⟨a | _, rest⟩
    · exact ⟨s, mainStep_nil h htodo⟩
    · obtain ⟨t, ht⟩ := perform_next .main a
        (s.onHost fun h => { h with mainTodo := (HostAct.called .main s.host a).map MainAct.act ++ rest })
      exact ⟨t, (mainStep_act h htodo).trans ht⟩
    · exact ⟨_, mainStep_wait h htodo⟩
  · exact ⟨s, mainStep_passed h⟩

/-- Settles O59: the host's turns are register accesses, which always step, or change the host alone. -/
theorem hostTurnsNeverStop : Obligations.HostTurnsNeverStop := by
  intro s turn ts hs hlabel
  rw [step_cons hs]
  cases turn with
  | label w => exact absurd rfl (hlabel w)
  | timerExpiry => exact ⟨_, rfl⟩
  | dispatch c => exact ⟨_, rfl⟩
  | handler => exact handlerStep_next _
  | main => exact mainStep_next _

/-! ### Dispatch -/

/-- Settles O53: dispatch enters the chosen source's handler where no handler runs, and with a handler running the
dispatch and the main context are both passed over. -/
theorem dispatchWithoutNesting : Obligations.DispatchWithoutNesting := by
  refine fun s ts c => ⟨fun hs hnone hpend => ?enters, fun hs hbusy => ?nested, fun hs hbusy => ?main⟩
  case enters =>
    have hdispatch := dispatchStep_cases c { s with schedule := ts }
    have hpend' : State.pending { s with schedule := ts } c = true := by cases c <;> exact hpend
    rcases hdispatch with ⟨-, -, e⟩ | ⟨hnot, -⟩
    · exact ⟨_, (step_cons hs).trans (congrArg Host.Outcome.next e), rfl, rfl, rfl, rfl, rfl⟩
    · simp [hnone, hpend'] at hnot
  case nested =>
    rcases dispatchStep_cases c { s with schedule := ts } with ⟨hnone, -⟩ | ⟨-, e⟩
    · exact absurd hnone hbusy
    · exact (step_cons hs).trans (congrArg Host.Outcome.next e)
  case main => exact (step_cons hs).trans (mainStep_passed fun h => hbusy h.1)

end Sys2Proof.Machine
end

