-- ==== Sys2Proof/Proofs/Invariants.lean ====
section
/-! PROOFS. What every step keeps, whichever agent takes it: the block's invariants, the sticky markers and the refused
mark (10_state.md). -/

namespace Sys2Proof.Machine

/-! ### A step and the block -/

/-- A step of any agent leaves the block alone or gives it one label; the refused mark is never cleared. -/
structure StepKeeps (s t : State) : Prop where
  block : t.block = s.block ∨ ∃ i, s.block.Effect i t.block
  refused : s.refused = true → t.refused = true

theorem stepKeeps_of_block_eq {s t : State} (hb : t.block = s.block) (hr : t.refused = s.refused) : StepKeeps s t :=
  ⟨.inl hb, fun h => hr.trans h⟩

theorem labelStep_keeps {i : Instr} {s t : State} (h : labelStep i s = .next t) : StepKeeps s t := by
  obtain ⟨u, hu, rfl⟩ := labelStep_eq_next.mp h
  obtain ⟨-, -, hr, -⟩ := exec_keeps_run hu
  have effect := exec_effect hu
  exact ⟨.inr ⟨i, effect⟩, fun h => hr.trans h⟩

theorem wordStep_keeps {w : Word} {s t : State} (h : wordStep w s = .next t) : StepKeeps s t := by
  cases hw : decode w with
  | ok i => exact labelStep_keeps ((wordStep_of_decode s hw).symm.trans h)
  | error e =>
    cases (wordStep_of_refused s hw).symm.trans h
    exact ⟨.inl rfl, fun _ => rfl⟩

theorem busStep_keeps {c : Ctx} {op : BusOp} {s t : State} (h : busStep c op s = .next t) : StepKeeps s t := by
  cases op with
  | rd reg =>
    obtain ⟨u, hu, e⟩ := andThen_eq_next.mp h
    cases e
    obtain ⟨hb, hr⟩ := labelStep_keeps hu
    exact ⟨hb, hr⟩
  | wr reg v => exact labelStep_keeps h

theorem perform_keeps {c : Ctx} {a : HostAct} {s t : State} (h : HostAct.perform c a s = .next t) : StepKeeps s t := by
  cases a with
  | bus op => exact busStep_keeps h
  | write reg e => exact busStep_keeps (c := c) (op := .wr reg (BitVec.ofNat 8 (s.host.eval c e))) h
  | _ => cases h; exact stepKeeps_of_block_eq rfl rfl

theorem handlerStep_keeps {s t : State} (h : handlerStep s = .next t) : StepKeeps s t := by
  cases hin : s.host.inHandler with
  | none =>
    cases (handlerStep_none hin).symm.trans h
    exact stepKeeps_of_block_eq rfl rfl
  | some src =>
    cases htodo : s.host.handlerTodo with
    | nil =>
      cases (handlerStep_nil hin htodo).symm.trans h
      exact stepKeeps_of_block_eq rfl rfl
    | cons a rest =>
      rw [handlerStep_cons hin htodo] at h
      obtain ⟨u, hu, e⟩ := andThen_eq_next.mp h
      cases e
      obtain ⟨hb, hr⟩ := perform_keeps hu
      exact ⟨by rw [State.leaveIfDone_block]; exact hb, by rw [State.leaveIfDone_refused]; exact hr⟩

theorem mainStep_keeps {s t : State} (h : mainStep s = .next t) : StepKeeps s t := by
  by_cases hrun : s.host.inHandler = none ∧ s.host.waiting = false
  · rcases htodo : s.host.mainTodo with _ | ⟨a | _, rest⟩
    · cases (mainStep_nil hrun htodo).symm.trans h
      exact stepKeeps_of_block_eq rfl rfl
    · rw [mainStep_act hrun htodo] at h
      obtain ⟨hb, hr⟩ := perform_keeps h
      exact ⟨hb, hr⟩
    · cases (mainStep_wait hrun htodo).symm.trans h
      exact stepKeeps_of_block_eq rfl rfl
  · cases (mainStep_passed hrun).symm.trans h
    exact stepKeeps_of_block_eq rfl rfl

theorem turnStep_keeps {turn : Turn} {s t : State} (h : turnStep turn s = .next t) : StepKeeps s t := by
  cases turn with
  | label w => exact wordStep_keeps h
  | timerExpiry =>
    cases h
    unfold timerStep
    split <;> exact stepKeeps_of_block_eq rfl rfl
  | dispatch c =>
    cases h
    rcases dispatchStep_cases c s with ⟨-, -, e⟩ | ⟨-, e⟩ <;> rw [e] <;> exact stepKeeps_of_block_eq rfl rfl
  | handler => exact handlerStep_keeps h
  | main => exact mainStep_keeps h

theorem step_keeps {s t : State} (h : step s = .next t) : StepKeeps s t := by
  obtain ⟨turn, ts, -, ht⟩ := step_next_turn h
  obtain ⟨hb, hr⟩ := turnStep_keeps ht
  exact ⟨hb, hr⟩

/-- Settles O42: no label clears a marker, no agent gives the block anything but a label, and no one clears the refused
mark. -/
theorem markersAreSticky : Obligations.MarkersAreSticky := by
  intro s t h
  obtain ⟨hb, hr⟩ := step_keeps h
  refine ⟨fun c hc => ?_, hr⟩
  rcases hb with e | ⟨i, effect⟩
  · rwa [e]
  · exact (effect.has_iff c).mpr (.inl hc)

/-! ### The invariants of a block with idle engines -/

/-- With both engines idle and HOLD = 0 every clause is about another block. -/
theorem Block.inv_of_idle {b : Block} (hold : b.hold = false) (tx : b.txPhase ≠ .bit) (rx : b.rxPhase ≠ .bit) : b.Inv where
  heldIdle h := by simp [hold] at h
  txRange h := absurd h tx
  rxRange h := absurd h rx
  stopLeft h := absurd h rx
  legalDivisor h := absurd h (by simp [tx, rx])
  heldQuiet h := by simp [hold] at h

/-- A held block with idle engines and a quiet receiver. -/
theorem Block.inv_of_held {b : Block} (tx : b.txPhase = .idle) (rx : b.rxPhase = .idle) (prev : b.rxPrev = true)
    (rxip : b.rxip = false) (unread : b.rxUnread = false) : b.Inv where
  heldIdle _ := ⟨tx, rx, prev⟩
  txRange h := by simp [tx] at h
  rxRange h := by simp [rx] at h
  stopLeft h := by simp [rx] at h
  legalDivisor h := by simp [tx, rx] at h
  heldQuiet _ := ⟨rxip, unread⟩

/-- Settles O38: the block powers on held, idle and quiet. -/
theorem invariantsAtReset : Obligations.InvariantsAtReset := Block.inv_of_held rfl rfl rfl rfl rfl

/-- While held the invariants say no more than that the block is idle and quiet. -/
theorem Block.Inv.of_held {b c : Block} (h : b.Inv) (hold : b.hold = true) (tx : c.txPhase = b.txPhase)
    (rx : c.rxPhase = b.rxPhase) (prev : c.rxPrev = b.rxPrev) (rxip : c.rxip = b.rxip)
    (unread : c.rxUnread = b.rxUnread) : c.Inv := by
  obtain ⟨txIdle, rxIdle, hprev⟩ := h.heldIdle hold
  obtain ⟨hrxip, hunread⟩ := h.heldQuiet hold
  exact Block.inv_of_held (tx.trans txIdle) (rx.trans rxIdle) (prev.trans hprev) (rxip.trans hrxip)
    (unread.trans hunread)

/-! ### The labels keep the invariants -/

theorem Block.Inv.writeData {b : Block} (h : b.Inv) (d : Byte) : (b.writeData d).Inv := by
  rcases b.writeData_cases d with ⟨-, e⟩ | ⟨hold, idle, e⟩ | ⟨-, -, e⟩ <;> rw [e]
  · exact h
  · exact ⟨fun hh => by simp [hold] at hh, nofun, h.rxRange, h.stopLeft, fun hh => h.legalDivisor (by simpa using Or.inr hh),
      h.heldQuiet⟩
  · exact ⟨h.heldIdle, h.txRange, h.rxRange, h.stopLeft, h.legalDivisor, h.heldQuiet⟩

theorem Block.Inv.writeCtl {b : Block} (h : b.Inv) (d : Byte) : (b.writeCtl d).Inv := by
  rcases b.writeCtl_cases d with ⟨hold, -, e⟩ | ⟨hold, -, e⟩ | ⟨-, -, e⟩ | ⟨-, -, e⟩ <;> rw [e]
  · exact h.of_held hold rfl rfl rfl rfl rfl
  · obtain ⟨tx, rx, -⟩ := h.heldIdle hold
    rw [Block.release_frame]
    exact Block.inv_of_idle rfl (by simp [tx]) (by simp [rx])
  · exact Block.inv_of_held rfl rfl rfl rfl rfl
  · exact h

/-- A TICK keeps the invariants: each engine stands at a position of its frame, or is idle. -/
theorem Block.Inv.engines {b : Block} (h : b.Inv) (r : Bool) (running : b.Running) : (b.engines r).Inv := by
  have tx : (b.engines r).txPhase = .bit → ∃ p, (b.engines r).Sending p := by
    intro bit
    cases hp : b.txPhase with
    | idle => cases (Block.engines_of_txIdle r hp).1.symm.trans bit
    | wait => exact ⟨0, (Block.sending_of_wait r running hp).1⟩
    | bit =>
      obtain ⟨h9, hcnt⟩ := h.txRange hp
      obtain ⟨p, sending⟩ : ∃ p, b.Sending p := ⟨_, hp, h9, hcnt, rfl⟩
      by_cases hlast : p + 1 < b.frameLen
      · exact ⟨_, (sending.engines r running hlast).1⟩
      · have hend := sending.ends r running (Nat.le_antisymm (Nat.not_lt.mp hlast) sending.lt_frameLen)
        cases hend.1.symm.trans bit
  have rx : (b.engines r).rxPhase = .bit → ∃ p, (b.engines r).Receiving p := by
    intro bit
    cases hp : b.rxPhase with
    | idle =>
      rcases Block.engines_of_rxIdle r running hp with idle | receiving
      · cases idle.symm.trans bit
      · exact ⟨0, receiving⟩
    | bit =>
      obtain ⟨h9, hcnt⟩ := h.rxRange hp
      obtain ⟨p, receiving⟩ : ∃ p, b.Receiving p := ⟨_, hp, h9, hcnt, h.stopLeft hp, rfl⟩
      by_cases hstop : p + 1 = b.startLen 9 + b.halfLen 9
      · have delivered := Block.delivered_engines running ((receiving.delivery_iff r running).mpr hstop)
        cases delivered.idle.symm.trans bit
      · rcases receiving.engines r running hstop with ⟨-, -, idle⟩ | ⟨hnext, -⟩
        · cases idle.symm.trans bit
        · exact ⟨_, hnext⟩
  have running' := running.engines r
  exact
    { heldIdle := fun hold => nomatch hold.symm.trans running'.1
      txRange := fun bit => let ⟨_, s⟩ := tx bit; ⟨s.bitRange, s.cntRange⟩
      rxRange := fun bit => let ⟨_, s⟩ := rx bit; ⟨s.bitRange, s.cntRange⟩
      stopLeft := fun bit => let ⟨_, s⟩ := rx bit; s.stopLeft
      legalDivisor := fun _ => running'.2
      heldQuiet := fun hold => nomatch hold.symm.trans running'.1 }

theorem Block.Effect.inv {i : Instr} {b c : Block} (effect : b.Effect i c) (h : b.Inv) : c.Inv := by
  cases effect with
  | readData =>
    exact ⟨h.heldIdle, h.txRange, h.rxRange, h.stopLeft, h.legalDivisor, fun hold => ⟨(h.heldQuiet hold).1, rfl⟩⟩
  | writeData d => exact h.writeData d
  | writeCtl d => exact h.writeCtl d
  | writeBrlo d hold | writeBrhi d hold | writeMod d hold => exact h.of_held hold rfl rfl rfl rfl rfl
  | writeIe d => exact ⟨h.heldIdle, h.txRange, h.rxRange, h.stopLeft, h.legalDivisor, h.heldQuiet⟩
  | writeIp d =>
    exact ⟨h.heldIdle, h.txRange, h.rxRange, h.stopLeft, h.legalDivisor,
      fun hold => ⟨by simp [(h.heldQuiet hold).1], (h.heldQuiet hold).2⟩⟩
  | engines r running => exact h.engines r running
  | reset => exact Block.inv_of_held rfl rfl rfl rfl rfl
  | read | writeRsvd | held | ignored => exact h

/-- Settles O39: a step gives the block one label or none, and every label keeps the invariants. -/
theorem invariantsKeptByEveryStep : Obligations.InvariantsKeptByEveryStep := by
  intro s t inv h
  rcases (step_keeps h).block with e | ⟨i, effect⟩
  · rwa [e]
  · exact effect.inv inv

end Sys2Proof.Machine
end

