-- ==== Sys2Proof/Proofs/LabelRuns.lean ====
section
/-! PROOFS. Runs of labels: flags that latch, lines that stay low, the two orders of read and clear around a delivery, and
the driver's `init` (60_exceptions.md section 1, 70_reset_and_hazards.md sections 2 and 3). -/

namespace Sys2Proof.Machine

/-! ### Flags and lines over a run -/

/-- Settles O45: RXIP and HOLD = 0 are kept together, as only a delivery, a clear and a hold entry act on RXIP; TXIP is
cleared by its clear alone. -/
theorem flagsLatchAndAreServiceable : Obligations.FlagsLatchAndAreServiceable := by
  intro is d s t h
  refine ⟨fun his hold hrx => ?rx, fun his htx => ?tx⟩
  case rx =>
    have kept : t.block.hold = false ∧ t.block.rxip = true := by
      refine runLabels_keeps (P := fun b => b.hold = false ∧ b.rxip = true)
        (fun i hi u v hu ⟨hold, hrx⟩ => ?_) h ⟨hold, hrx⟩
      obtain ⟨hreset, hctl, hip⟩ := his i hi
      have noEntry : ¬ u.block.HoldEntryBy i := Block.not_holdEntryBy hreset hctl
      have noClear : ¬ ∃ e : Byte, i = .wrIp e ∧ e[0] = true := fun ⟨e, he, h0⟩ => by simp [hip e he] at h0
      exact ⟨((exec_effect hu).keeps_config hold noEntry).1,
        (exec_flagsEffect hu).rxip_iff.mpr (.inr ⟨hrx, noEntry, noClear⟩)⟩
    exact ⟨kept.2, fun h0 => ⟨_, exec_wrIe d t, (Block.irqRx_iff _).mpr ⟨h0, kept.2⟩⟩⟩
  case tx =>
    have kept : t.block.txip = true := by
      refine runLabels_keeps (P := fun b => b.txip = true) (fun i hi u v hu htx => ?_) h htx
      have noClear : ¬ ∃ e : Byte, i = .wrIp e ∧ e[1] = true := fun ⟨e, he, h1⟩ => by simp [his i hi e he] at h1
      exact (exec_flagsEffect hu).txip_iff.mpr (.inr (.inr ⟨htx, noClear⟩))
    exact ⟨kept, fun h1 => ⟨_, exec_wrIe d t, (Block.irqTx_iff _).mpr ⟨h1, kept⟩⟩⟩

theorem Block.Effect.of_reset {b c : Block} (h : b.Effect .reset c) : ∃ tx sh, c = b.hardReset tx sh := by
  cases h with
  | reset tx sh => exact ⟨tx, sh, rfl⟩
  | @read _ reg _ hi => cases reg <;> cases hi
  | ignored d _ hi => simp at hi

/-- Cleared enables stay cleared through every label that does not write IE; RESET clears them itself. -/
theorem Block.Effect.keeps_disabled {i : Instr} {b c : Block} (h : b.Effect i c) (hi : ∀ d, i ≠ .wrIe d)
    (off : b.Critical) : c.Critical := by
  by_cases hreset : i = .reset
  · subst hreset
    obtain ⟨tx, sh, rfl⟩ := h.of_reset
    exact ⟨rfl, rfl⟩
  · obtain ⟨ie, -⟩ := h.frame hreset
    obtain ⟨hrx, htx⟩ := ie hi
    exact ⟨hrx.trans off.1, htx.trans off.2⟩

/-- Settles O46: the first label clears both enables, and no other one writes them. -/
theorem disabledInterruptsStayLow : Obligations.DisabledInterruptsStayLow := by
  intro is s t his h
  obtain ⟨u, hu, hrest⟩ := runLabels_cons_eq_next.mp h
  cases hu
  have off : t.block.Critical :=
    runLabels_keeps (P := Block.Critical) (fun i hi u v hu off => (exec_effect hu).keeps_disabled (his i hi) off) hrest
      ⟨rfl, rfl⟩
  exact (Block.lines_low_of_disabled off.1 off.2).2

/-! ### Read and clear around a delivery -/

/-- RD_DATA steps in every state, and clears rx_unread. -/
theorem exec_rdData_block (s : State) :
    ∃ t, exec .rdData s = .next t ∧ t.block = { s.block with rxUnread := false } := by
  rcases execRdData_cases s with ⟨v, -, e⟩ | ⟨-, e⟩ <;> exact ⟨_, e, rfl⟩

/-- A TICK that delivers. -/
theorem exec_tick_delivers {s : State} {r : Bool} (h : s.block.DeliveryBy (.tick r)) :
    ∃ t, exec (.tick r) s = .next t ∧ t.answers = s.answers ∧ s.block.Delivered s.block.rxShift t.block := by
  have ⟨_, running, _⟩ := h
  exact ⟨_, exec_tick_running r running, rfl, Block.delivered_engines running h⟩

/-- Settles O47: neither the read nor the clear touches the receiver's frame, so that the TICK delivers in both orders; the
read before it leaves nothing unread, the clear before it leaves the byte unread. -/
theorem receiveClearWindows : Obligations.ReceiveClearWindows := by
  intro r s delivery
  refine ⟨?read, fun unread => ?clear⟩
  case read =>
    obtain ⟨a, ha, hablock⟩ := exec_rdData_block s
    have delivery' : a.logTxd.block.DeliveryBy (.tick r) := by
      rw [State.logTxd_block, hablock]
      exact delivery
    obtain ⟨c, hc, -, delivered⟩ := exec_tick_delivers delivery'
    refine ⟨_, runLabels_cons_eq_next.mpr ⟨a, ha, runLabels_cons_eq_next.mpr ⟨c, hc,
      runLabels_cons_eq_next.mpr ⟨_, exec_wrIp 0x01#8 _, rfl⟩⟩⟩, ?_, ?_, ?_, ?_⟩
    · simp [delivered.rxbuf, hablock]
    · simp
    · simp [delivered.rxUnread]
    · simp [delivered.faults, hablock]
  case clear =>
    have delivery' : (s.onBlock (Block.clearFlags 0x01#8)).logTxd.block.DeliveryBy (.tick r) := delivery
    obtain ⟨c, hc, hanswers, delivered⟩ := exec_tick_delivers delivery'
    have hread := exec_rdData_some (s := c.logTxd) delivered.rxbuf
    refine ⟨_, runLabels_cons_eq_next.mpr ⟨_, exec_wrIp 0x01#8 s, runLabels_cons_eq_next.mpr ⟨c, hc,
      runLabels_cons_eq_next.mpr ⟨_, hread, rfl⟩⟩⟩, ?_, ?_, rfl, ?_⟩
    · simp [hanswers]
    · simp [delivered.rxip]
    · simp [delivered.faults, unread]

/-! ### `init` -/

/-- A write of CTL with bit 0 set holds the block from any state; from HOLD = 0 by a hold entry (R73). -/
theorem Block.writeCtl_holds {d : Byte} (b : Block) (h0 : d[0] = true) :
    (b.writeCtl d).hold = true ∧ (b.writeCtl d).faults = b.faults ∧
      (b.hold = true → (b.writeCtl d).rxip = b.rxip ∧ (b.writeCtl d).txip = b.txip) ∧
      (b.hold = false → (b.writeCtl d).rxip = false ∧ (b.writeCtl d).txip = true) := by
  cases hold : b.hold with
  | true => simp [Block.writeCtl_held hold h0, hold]
  | false => simp [Block.writeCtl_enters hold h0]

/-- The block that a write of IE 0x00 and the release find after the configuration writes (R113). -/
def Block.configured (br : Word) (mod : Byte) (clksel : Bool) (b : Block) : Block :=
  { b with
    clksel := clksel, hold := false, brlo := br.extractLsb' 0 8, brhi := br.extractLsb' 8 8, mod := mod
    rxie := false, txie := false }

/-- The six labels of `init` run from any state: hold, the configuration, the enables, and the release. -/
theorem runLabels_init (br : Word) (mod : Byte) (clksel : Bool) (s : State) :
    ∃ t, runLabels (DriverOp.labels (.init br mod clksel)) s = .next t ∧
      t.block = ((s.block.writeCtl (twoBits clksel true)).configured br mod clksel).release := by
  obtain ⟨h0, -, -⟩ := twoBits_fields clksel true
  obtain ⟨hr0, hr1, -⟩ := twoBits_fields clksel false
  obtain ⟨hold, -⟩ := s.block.writeCtl_holds h0
  refine ⟨_, rfl, ?_⟩
  simp only [State.logTxd_block, State.onBlock_block, Block.ifHeld, hold, if_true]
  rw [Block.writeCtl_release _ hr0, hr1]
  · rfl
  · rfl

theorem Block.release_illegalDivisor (b : Block) :
    b.release.faults.illegalDivisor = (b.faults.illegalDivisor || decide (b.br.toNat < 3)) := by
  rcases b.release_cases with ⟨hbr, e⟩ | ⟨hbr, e⟩
  · simp [e, Faults.mark, hbr]
  · simp [e, Nat.not_lt.mpr hbr]

/-- Settles O51: the configuration is written while held, the enables are cleared, and the release checks the divisor and
keeps the rest. -/
theorem initConfiguresTheBlock : Obligations.InitConfiguresTheBlock := by
  intro br mod clksel s
  obtain ⟨t, hrun, hblock⟩ := runLabels_init br mod clksel s
  obtain ⟨-, hfaults, hheld, hentry⟩ := s.block.writeCtl_holds (twoBits_fields clksel true).1
  have hframe := hblock.trans (Block.release_frame _)
  have hbr : t.block.br = br := by
    rw [hframe]
    exact (split_append br).symm
  have hip : t.block.ipByte =
      twoBits (s.block.writeCtl (twoBits clksel true)).txip (s.block.writeCtl (twoBits clksel true)).rxip := by
    rw [hframe]
    rfl
  obtain ⟨hie, hrx, htx⟩ := Block.lines_low_of_disabled (b := t.block) (by rw [hframe]; rfl) (by rw [hframe]; rfl)
  refine ⟨t, hrun, by rw [hframe]; rfl, by rw [hframe]; rfl, hbr, by rw [hframe]; rfl, hie, hrx, htx,
    ?illegal, fun hold => ?held, fun hold => ?entered⟩
  case illegal =>
    have hbr' : ((s.block.writeCtl (twoBits clksel true)).configured br mod clksel).br = br := (split_append br).symm
    rw [hblock, Block.release_illegalDivisor, hbr', ← hfaults]
    rfl
  case held => rw [hip, (hheld hold).1, (hheld hold).2, Block.ipByte]
  case entered => rw [hip, (hentry hold).1, (hentry hold).2]; rfl

end Sys2Proof.Machine
end

