-- ==== Sys2Proof/Proofs/HostContract.lean ====
section
/-! PROOFS. The driver's handlers and the echo application: which labels they issue, in what order, and what they leave of
the host (44_driver_operations.md). -/

namespace Sys2Proof.Machine

/-! ### Labels do not see the host -/

/-- The state with another host. -/
def State.withHost (h : HostSide) (s : State) : State := { s with host := h }

@[simp] theorem State.withHost_host (h : HostSide) (s : State) : (s.withHost h).host = h := rfl

theorem exec_withHost {i : Instr} {s t : State} (h : HostSide) (hi : exec i s = .next t) :
    exec i (s.withHost h) = .next (t.withHost h) := by
  cases i with
  | rdData =>
    rcases execRdData_cases s with ⟨v, hv, e⟩ | ⟨hv, e⟩ <;> cases e.symm.trans hi
    · exact exec_rdData_some (s := s.withHost h) hv
    · exact exec_rdData_none (s := s.withHost h) hv
  | tick r =>
    rcases execTick_cases r s with ⟨hold, e⟩ | ⟨-, e⟩ | ⟨running, e⟩ <;> cases e.symm.trans hi
    · exact exec_tick_held (s := s.withHost h) r hold
    · exact exec_tick_running (s := s.withHost h) r running
  | _ => cases hi; rfl

theorem labelStep_withHost {i : Instr} {s t : State} (h : HostSide) (hi : labelStep i s = .next t) :
    labelStep i (s.withHost h) = .next (t.withHost h) := by
  obtain ⟨u, hu, rfl⟩ := labelStep_eq_next.mp hi
  exact labelStep_eq_next.mpr ⟨_, exec_withHost h hu, rfl⟩

/-- A write of the host steps in every state. -/
theorem labelStep_ofWrite (reg : Reg) (d : Byte) (s : State) : ∃ u, labelStep (.ofWrite reg d) s = .next u :=
  busStep_next .main (.wr reg d) s

/-! ### One act of a handler -/

theorem State.leaveIfDone_cons {s : State} (h : s.host.handlerTodo ≠ []) : s.leaveIfDone = s := by
  unfold State.leaveIfDone
  split
  next e => exact absurd e h
  next => rfl

theorem State.leaveIfDone_nil {s : State} (h : s.host.handlerTodo = []) : s.leaveIfDone = s.leaveHandler := by
  simp only [State.leaveIfDone, h]

section
variable {src : Source} {h : HostSide} {s u : State} {rest : List HostAct} (hin : h.inHandler = some src)
include hin

/-- A write of a byte is its label. -/
theorem handlerStep_wr {reg : Reg} {d : Byte} (htodo : h.handlerTodo = .bus (.wr reg d) :: rest)
    (hu : labelStep (.ofWrite reg d) s = .next u) :
    handlerStep (s.withHost h) = .next (u.withHost { h with handlerTodo := rest }).leaveIfDone := by
  have hact := labelStep_withHost { h with handlerTodo := rest } hu
  rw [handlerStep_cons (s := s.withHost h) hin htodo]
  exact andThen_eq_next.mpr ⟨_, hact, rfl⟩

/-- A write of a computed value is the label of its low byte. -/
theorem handlerStep_write {reg : Reg} {e : HostExpr} (htodo : h.handlerTodo = .write reg e :: rest)
    (hu : labelStep (.ofWrite reg (BitVec.ofNat 8 (h.eval .handler e))) s = .next u) :
    handlerStep (s.withHost h) = .next (u.withHost { h with handlerTodo := rest }).leaveIfDone := by
  rw [← HostSide.eval_handlerTodo .handler h rest e] at hu
  have hact := labelStep_withHost { h with handlerTodo := rest } hu
  rw [handlerStep_cons (s := s.withHost h) hin htodo]
  exact andThen_eq_next.mpr ⟨_, hact, rfl⟩

/-- `write_byte(b)` is the label of the handler's byte (R121, R124). -/
theorem handlerStep_writeByte {reg : Reg} (htodo : h.handlerTodo = .write reg .byte :: rest)
    (hu : labelStep (.ofWrite reg h.handlerByte) s = .next u) :
    handlerStep (s.withHost h) = .next (u.withHost { h with handlerTodo := rest }).leaveIfDone :=
  handlerStep_write hin htodo (by simpa [HostSide.eval, HostSide.localByte] using hu)

/-- A read is its label, and its answer becomes the handler's byte. -/
theorem handlerStep_rd {reg : Reg} {v : Byte} (htodo : h.handlerTodo = .bus (.rd reg) :: rest)
    (hu : labelStep (.ofRead reg) s = .next u) (hv : u.answers = v :: s.answers) :
    handlerStep (s.withHost h) =
      .next (u.withHost { h with handlerTodo := rest, handlerByte := v }).leaveIfDone := by
  have hact := labelStep_withHost { h with handlerTodo := rest } hu
  have hbyte : (u.withHost { h with handlerTodo := rest }).rdata.getD 0 = v := by
    simp [State.rdata, State.withHost, hv]
  rw [handlerStep_cons (s := s.withHost h) hin htodo]
  refine andThen_eq_next.mpr ⟨_, andThen_eq_next.mpr ⟨_, hact, rfl⟩, ?_⟩
  rw [hbyte]
  rfl

/-- A call puts the registered body before the rest, at the moment of the call. -/
theorem handlerStep_callTx {cb : Option CbRef} (htodo : h.handlerTodo = .callTx :: rest) (hcb : h.txCb = cb) :
    handlerStep (s.withHost h) = .next (s.withHost { h with handlerTodo := h.callback cb ++ rest }).leaveIfDone := by
  subst hcb
  rw [handlerStep_cons (s := s.withHost h) hin htodo]
  rfl

theorem handlerStep_callRx {cb : Option CbRef} (htodo : h.handlerTodo = .callRx :: rest) (hcb : h.rxCb = cb) :
    handlerStep (s.withHost h) = .next (s.withHost { h with handlerTodo := h.callback cb ++ rest }).leaveIfDone := by
  subst hcb
  rw [handlerStep_cons (s := s.withHost h) hin htodo]
  rfl

/-- A branch puts the body it chooses before the rest. -/
theorem handlerStep_branch {e : HostExpr} {p q : Nat} (htodo : h.handlerTodo = .branch e p q :: rest) :
    handlerStep (s.withHost h) =
      .next (s.withHost { h with handlerTodo := h.proc (if h.eval .handler e = 0 then q else p) ++ rest }).leaveIfDone := by
  rw [handlerStep_cons (s := s.withHost h) hin htodo]
  rfl

theorem handlerStep_assign {i e : HostExpr} (htodo : h.handlerTodo = .assign i e :: rest) :
    handlerStep (s.withHost h) = .next (s.withHost
      (HostSide.setVar (h.eval .handler i) (h.eval .handler e) { h with handlerTodo := rest })).leaveIfDone := by
  rw [handlerStep_cons (s := s.withHost h) hin htodo, ← HostSide.eval_handlerTodo .handler h rest i,
    ← HostSide.eval_handlerTodo .handler h rest e]
  rfl

theorem handlerStep_toggleRx (htodo : h.handlerTodo = .toggleRx :: rest) :
    handlerStep (s.withHost h) =
      .next (s.withHost { h with handlerTodo := rest, ledRx := h.ledRx + 1 }).leaveIfDone := by
  rw [handlerStep_cons (s := s.withHost h) hin htodo]
  rfl

theorem handlerStep_toggleTimer (htodo : h.handlerTodo = .toggleTimer :: rest) :
    handlerStep (s.withHost h) =
      .next (s.withHost { h with handlerTodo := rest, ledTimer := h.ledTimer + 1 }).leaveIfDone := by
  rw [handlerStep_cons (s := s.withHost h) hin htodo]
  rfl

end

/-- With more to run the handler does not return. -/
theorem next_leaveIfDone_of_ne {s : State} {h : HostSide} (hrest : h.handlerTodo ≠ []) :
    Host.Outcome.next (φ := Fault) (ρ := Refusal) (s.withHost h).leaveIfDone = .next (s.withHost h) := by
  rw [State.leaveIfDone_cons hrest]

/-- RD_DATA in a run answers one byte, RXBUF's where there is one. -/
theorem labelStep_rdData (s : State) : ∃ u v, labelStep .rdData s = .next u ∧ u.answers = v :: s.answers ∧
    (∀ w, s.block.rxbuf = some w → v = w) := by
  rcases execRdData_cases s with ⟨v, hv, e⟩ | ⟨hv, e⟩
  · exact ⟨_, v, labelStep_eq_next.mpr ⟨_, e, rfl⟩, rfl, fun w hw => Option.some.inj (hv.symm.trans hw)⟩
  · exact ⟨_, _, labelStep_eq_next.mpr ⟨_, e, rfl⟩, rfl, fun w hw => nomatch hv.symm.trans hw⟩

/-- Settles O60: each clause is one act of the handler with more to run, so that the handler does not return. -/
theorem hostProceduresComputeOnTheByteRead : Obligations.HostProceduresComputeOnTheByteRead := by
  intro s src rest hin hrest
  refine ⟨fun n htodo hcb => ?callTx, fun n htodo hcb => ?callRx, fun htodo => ?read, fun e p q htodo => ?branch,
    fun reg e htodo => ?write, fun i e htodo hvars => ?assign⟩
  case callTx =>
    have hstep := handlerStep_callTx (s := s) hin htodo hcb
    rw [next_leaveIfDone_of_ne (by simp)] at hstep
    exact hstep
  case callRx =>
    have hstep := handlerStep_callRx (s := s) hin htodo hcb
    rw [next_leaveIfDone_of_ne (by simp)] at hstep
    exact hstep
  case read =>
    obtain ⟨u, v, hu, hv, -⟩ := labelStep_rdData s
    have hstep := handlerStep_rd (s := s) hin htodo hu hv
    rw [next_leaveIfDone_of_ne hrest] at hstep
    exact ⟨u, v, hu, hv, hstep⟩
  case branch =>
    have hstep := handlerStep_branch (s := s) hin htodo
    rw [next_leaveIfDone_of_ne (by simp [hrest])] at hstep
    exact hstep
  case write =>
    obtain ⟨u, hu⟩ := labelStep_ofWrite reg (BitVec.ofNat 8 (s.host.eval .handler e)) s
    have hstep := handlerStep_write (s := s) hin htodo hu
    rw [next_leaveIfDone_of_ne hrest] at hstep
    exact ⟨u, hu, hstep⟩
  case assign =>
    have hstep := handlerStep_assign (s := s) hin htodo
    rw [next_leaveIfDone_of_ne hrest] at hstep
    exact ⟨_, hstep, rfl, rfl, HostSide.setVar_varsOk _ _ (h := { s.host with handlerTodo := rest }) hvars,
      fun k => readVar_writeVar hvars⟩

/-! ### The handlers -/

/-- At the end of its body a handler returns. -/
theorem next_leaveIfDone_of_nil {s : State} {h : HostSide} (hdone : h.handlerTodo = []) :
    Host.Outcome.next (φ := Fault) (ρ := Refusal) (s.withHost h).leaveIfDone =
      .next (s.withHost { h with inHandler := none, handlerTodo := [] }) := by
  rw [State.leaveIfDone_nil (s := s.withHost h) hdone]
  rfl

theorem runHandler_succ {n : Nat} {s t : State} (h : handlerStep s = .next t) :
    runHandler (n + 1) s = runHandler n t := by
  rw [runHandler, h, andThen_next]

/-- A handler's last act, a write: its label, and the return. -/
theorem runHandler_last_wr {src : Source} {h : HostSide} {s u : State} {reg : Reg} {d : Byte}
    (hin : h.inHandler = some src) (htodo : h.handlerTodo = [.bus (.wr reg d)])
    (hu : labelStep (.ofWrite reg d) s = .next u) :
    runHandler 1 (s.withHost h) = .next (u.withHost { h with inHandler := none, handlerTodo := [] }) := by
  have hstep := handlerStep_wr hin htodo hu
  rw [next_leaveIfDone_of_nil rfl] at hstep
  exact runHandler_succ hstep

/-- A call with nothing registered, and then the handler's last act, a write. -/
theorem runHandler_callNone_wr {src : Source} {h : HostSide} {s u : State} {call : HostAct} {reg : Reg} {d : Byte}
    (hin : h.inHandler = some src) (hcall : (call = .callTx ∧ h.txCb = none) ∨ (call = .callRx ∧ h.rxCb = none))
    (htodo : h.handlerTodo = [call, .bus (.wr reg d)]) (hu : labelStep (.ofWrite reg d) s = .next u) :
    runHandler 2 (s.withHost h) = .next (u.withHost { h with inHandler := none, handlerTodo := [] }) := by
  have hstep : handlerStep (s.withHost h) = .next (s.withHost { h with handlerTodo := [.bus (.wr reg d)] }) := by
    rcases hcall with ⟨rfl, hcb⟩ | ⟨rfl, hcb⟩
    · exact (handlerStep_callTx hin htodo hcb).trans (next_leaveIfDone_of_ne (by simp))
    · exact (handlerStep_callRx hin htodo hcb).trans (next_leaveIfDone_of_ne (by simp))
  rw [runHandler_succ hstep]
  exact runHandler_last_wr (h := { h with handlerTodo := [.bus (.wr reg d)] }) hin rfl hu

theorem runLabels_single {i : Instr} {s u : State} (h : labelStep i s = .next u) : runLabels [i] s = .next u := by
  rw [runLabels, h, andThen_next, runLabels_nil]

/-- Settles O55: the call of a missing callback leaves the clear alone to run. -/
theorem missingCallbacksAreNoOps : Obligations.MissingCallbacksAreNoOps := by
  refine fun s => ⟨fun hin htodo hcb => ?_, fun hin htodo hcb => ?_⟩
  · obtain ⟨u, hu⟩ := labelStep_ofWrite .ip 0x02#8 s
    exact ⟨u, _, runLabels_single hu, runHandler_callNone_wr (s := s) hin (.inl ⟨rfl, hcb⟩) htodo hu, rfl⟩
  · obtain ⟨u, hu⟩ := labelStep_ofWrite .ip 0x01#8 s
    exact ⟨u, _, runLabels_single hu, runHandler_callNone_wr (s := s) hin (.inr ⟨rfl, hcb⟩) htodo hu, rfl⟩

/-- Settles O56: the handler is a write and a toggle, and an expiry counts where the timer is armed. -/
theorem timerHandlerWritesOnce : Obligations.TimerHandlerWritesOnce := by
  refine fun v s => ⟨fun hin htodo => ?_, rfl, rfl⟩
  obtain ⟨u, hu⟩ := labelStep_ofWrite .data v s
  have hwrite := handlerStep_wr (s := s) hin htodo hu
  rw [next_leaveIfDone_of_ne (by simp)] at hwrite
  have htoggle := handlerStep_toggleTimer (h := { s.host with handlerTodo := [.toggleTimer] }) (s := u) hin rfl
  rw [next_leaveIfDone_of_nil rfl] at htoggle
  exact ⟨u, _, runLabels_single hu, (runHandler_succ hwrite).trans (runHandler_succ htoggle), rfl⟩

/-- The echo's read, write of the byte read and toggle, in a handler with more to run (R121, R124). -/
theorem runHandler_echo {src : Source} {h : HostSide} {s u w : State} {v : Byte} {rest : List HostAct} (n : Nat)
    (hin : h.inHandler = some src) (htodo : h.handlerTodo = echoBody ++ rest) (hrest : rest ≠ [])
    (hu : labelStep .rdData s = .next u) (hv : u.answers = v :: s.answers) (hw : labelStep (.wrData v) u = .next w) :
    runHandler (n + 3) (s.withHost h) =
      runHandler n (w.withHost { h with handlerTodo := rest, handlerByte := v, ledRx := h.ledRx + 1 }) := by
  have hread := handlerStep_rd (s := s) hin htodo hu hv
  have hwrite := handlerStep_writeByte (reg := .data) (s := u) (u := w) (rest := .toggleRx :: rest)
    (h := { h with handlerTodo := .write .data .byte :: .toggleRx :: rest, handlerByte := v }) hin rfl hw
  have htoggle := handlerStep_toggleRx (s := w) (rest := rest)
    (h := { h with handlerTodo := .toggleRx :: rest, handlerByte := v }) hin rfl
  rw [next_leaveIfDone_of_ne (by simp)] at hread hwrite
  rw [next_leaveIfDone_of_ne hrest] at htoggle
  exact (runHandler_succ hread).trans ((runHandler_succ hwrite).trans (runHandler_succ htoggle))

/-- Settles O54: inline, the echo is followed by a call of no callback; in callback mode the call puts the echo before the
clear. -/
theorem rxIsrEchoesOnce : Obligations.RxIsrEchoesOnce := by
  intro viaCallback v s hin htodo hbuf hcb
  obtain ⟨a, v', ha, hv, hval⟩ := labelStep_rdData s
  obtain rfl := hval v hbuf
  obtain ⟨b, hb⟩ := labelStep_ofWrite .data v' a
  obtain ⟨c, hc⟩ := labelStep_ofWrite .ip 0x01#8 b
  have hlabels : runLabels [.rdData, .wrData v', .wrIp 0x01#8] s = .next c := by
    rw [runLabels, ha, andThen_next, runLabels]
    exact andThen_eq_next.mpr ⟨b, hb, runLabels_single hc⟩
  refine ⟨c, _, hlabels, ?_, rfl⟩
  cases viaCallback with
  | false =>
    have hecho := runHandler_echo (s := s) (rest := [.callRx, .bus (.wr .ip 0x01#8)]) 2 hin htodo (by simp) ha hv hb
    exact hecho.trans (runHandler_callNone_wr
      (h := { s.host with handlerTodo := [.callRx, .bus (.wr .ip 0x01#8)], handlerByte := v', ledRx := s.host.ledRx + 1 })
      hin (.inr ⟨rfl, hcb⟩) rfl hc)
  | true =>
    have hcall := handlerStep_callRx (s := s) hin htodo hcb
    rw [next_leaveIfDone_of_ne (by simp)] at hcall
    have hecho := runHandler_echo (s := s) (rest := [.bus (.wr .ip 0x01#8)])
      (h := { s.host with handlerTodo := echoBody ++ [.bus (.wr .ip 0x01#8)] }) 1 hin rfl (by simp) ha hv hb
    exact (runHandler_succ hcall).trans (hecho.trans (runHandler_last_wr
      (h := { s.host with handlerTodo := [.bus (.wr .ip 0x01#8)], handlerByte := v', ledRx := s.host.ledRx + 1 })
      hin rfl hc))

/-- Settles O58: each call writes the pair, and nothing else. -/
theorem setCallbacksReplacesThePair : Obligations.SetCallbacksReplacesThePair := fun _ _ _ _ _ _ =>
  ⟨_, _, rfl, rfl, rfl, rfl, rfl, rfl, rfl, rfl⟩

/-! ### The main context -/

theorem runMain_add (m n : Nat) (s : State) : runMain (m + n) s = andThen (runMain m s) (runMain n) := by
  induction m generalizing s with
  | zero => rw [Nat.zero_add, runMain, andThen_next]
  | succ m ih =>
    rw [Nat.succ_add, runMain, runMain]
    cases mainStep s <;> simp [ih]

/-- A write of the main context is its label. -/
theorem mainStep_wr {h : HostSide} {s u : State} {reg : Reg} {d : Byte} {rest : List MainAct}
    (hrun : h.inHandler = none ∧ h.waiting = false) (htodo : h.mainTodo = .act (.bus (.wr reg d)) :: rest)
    (hu : labelStep (.ofWrite reg d) s = .next u) :
    mainStep (s.withHost h) = .next (u.withHost { h with mainTodo := rest }) := by
  have hact := labelStep_withHost { h with mainTodo := rest } hu
  exact (mainStep_act (s := s.withHost h) hrun htodo).trans hact

/-- Writes of the main context in a row are their labels. -/
theorem runMain_writes {ops : List BusOp} {h : HostSide} {s u : State} {rest : List MainAct}
    (hops : ∀ op ∈ ops, ∃ reg d, op = .wr reg d) (hrun : h.inHandler = none ∧ h.waiting = false)
    (htodo : h.mainTodo = ops.map (fun op => .act (.bus op)) ++ rest)
    (hu : runLabels (ops.map BusOp.instr) s = .next u) :
    runMain ops.length (s.withHost h) = .next (u.withHost { h with mainTodo := rest }) := by
  induction ops generalizing h s with
  | nil =>
    cases hu
    rw [List.map_nil, List.nil_append] at htodo
    rw [← htodo]
    rfl
  | cons op ops ih =>
    obtain ⟨reg, d, rfl⟩ := hops op List.mem_cons_self
    obtain ⟨a, ha, hu⟩ := andThen_eq_next.mp hu
    rw [List.length_cons, runMain, mainStep_wr hrun htodo ha, andThen_next]
    exact ih (h := { h with mainTodo := ops.map (fun op => .act (.bus op)) ++ rest })
      (fun op hop => hops op (List.mem_cons_of_mem _ hop)) hrun rfl hu

/-- The host of the echo application when its block is configured and the enable comes next (R123). -/
def HostSide.beforeEnable (viaCallback : Bool) (h : HostSide) : HostSide :=
  { h with
    mainTodo := [.act (.bus (.wr .ie 0x03#8)), .wait]
    txCb := if viaCallback then none else h.txCb
    rxCb := if viaCallback then some .echoRx else h.rxCb }

/-- `init` and, in callback mode, `set_callbacks`. -/
theorem runMain_beforeEnable {viaCallback : Bool} {sel : BaudSel} {s u : State} (hin : s.host.inHandler = none)
    (hwait : s.host.waiting = false) (htodo : s.host.mainTodo = echoMain viaCallback sel)
    (hu : runLabels (DriverOp.labels (initFor sel)) s = .next u) :
    runMain (if viaCallback then 7 else 6) s = .next (u.withHost (s.host.beforeEnable viaCallback)) := by
  have hops : ∀ op ∈ DriverOp.busOps (initFor sel), ∃ reg d, op = .wr reg d := by
    simp [initFor, DriverOp.busOps]
  cases viaCallback with
  | false => exact runMain_writes hops ⟨hin, hwait⟩ htodo hu
  | true =>
    have hinit := runMain_writes (rest := .act (.setCallbacks none (some .echoRx)) ::
      [.act (.bus (.wr .ie 0x03#8)), .wait]) hops ⟨hin, hwait⟩ htodo hu
    have hset := mainStep_act (s := u.withHost { s.host with mainTodo := .act (.setCallbacks none (some .echoRx)) ::
      [.act (.bus (.wr .ie 0x03#8)), .wait] }) ⟨hin, hwait⟩ rfl
    have hlast : runMain 1 (u.withHost { s.host with mainTodo := .act (.setCallbacks none (some .echoRx)) ::
        [.act (.bus (.wr .ie 0x03#8)), .wait] }) = .next (u.withHost (s.host.beforeEnable true)) := by
      rw [runMain, hset]
      rfl
    exact (runMain_add 6 1 s).trans (andThen_eq_next.mpr ⟨_, hinit, hlast⟩)

/-- The enable and the wait. -/
theorem runMain_enable {viaCallback : Bool} {h : HostSide} {s u : State} (hin : h.inHandler = none) (hwait : h.waiting = false)
    (hu : labelStep (.wrIe 0x03#8) s = .next u) :
    runMain 2 (s.withHost (h.beforeEnable viaCallback)) =
      .next (u.withHost { h.beforeEnable viaCallback with mainTodo := [], waiting := true }) := by
  have henable := mainStep_wr (h := h.beforeEnable viaCallback) (s := s) ⟨hin, hwait⟩ rfl hu
  have hstop := mainStep_wait (s := u.withHost { h.beforeEnable viaCallback with mainTodo := [.wait] }) ⟨hin, hwait⟩ rfl
  rw [runMain, henable, andThen_next, runMain, hstop]
  rfl

/-- Settles O57: the main context runs `init`, sets the callbacks where it is to, and then enables and waits; `init` leaves
the block Configured, and the enable makes it Active. -/
theorem echoStartupOrder : Obligations.EchoStartupOrder := by
  intro viaCallback sel s hin hwait htodo
  obtain ⟨a, ha, hold, -, -, -, hie, -⟩ :=
    initConfiguresTheBlock (selBr sel) (selMod sel) (selClksel sel) s
  have hu := labelStep_eq_next.mpr ⟨_, exec_wrIe 0x03#8 a, rfl⟩
  have hbefore := runMain_beforeEnable hin hwait htodo ha
  have hturns : (if viaCallback then 9 else 8) = (if viaCallback then 7 else 6) + 2 := by cases viaCallback <;> rfl
  refine ⟨_, _, (runLabels_append _ _ s).trans (andThen_eq_next.mpr ⟨a, ha, runLabels_single hu⟩), ?main, rfl, ?active, _,
    hbefore, ?configured, rfl, rfl⟩
  case main =>
    rw [hturns, runMain_add, hbefore, andThen_next]
    exact runMain_enable hin hwait hu
  case active =>
    simp [Block.lifecycle, hold, Block.ieByte, twoBits]
  case configured =>
    have hblock : (a.withHost (s.host.beforeEnable viaCallback)).block = a.block := rfl
    simp [hblock, Block.lifecycle, hold, hie]

end Sys2Proof.Machine
end

