-- ==== Sys2Proof/Proofs/Noninterference.lean ====
section
/-! PROOFS. What no output depends on: the markers and rx_unread, TXBUF while the transmitter is idle, and the bits of
rx_shift that are not sampled (10_state.md). -/

namespace Sys2Proof.Machine

/-! ### The engines beside another receiver state -/

/-- The sample of a bit-time. -/
theorem Block.rxTick_sampleAt {b : Block} (r : Bool) (bit : b.rxPhase = .bit)
    (hlast : b.rxCnt.toNat + 1 ≠ b.bitLen b.rxBit.toNat) (hhalf : b.rxCnt.toNat + 1 = b.halfLen b.rxBit.toNat) :
    b.rxTick r = Block.sample b.rxBit.toNat r { b with rxCnt := BitVec.ofNat 16 (b.rxCnt.toNat + 1) } := by
  have hne : b.halfLen b.rxBit.toNat ≠ b.bitLen b.rxBit.toNat := hhalf ▸ hlast
  simpa [bit, hhalf, hne] using b.rxTick_cases r

/-- The transmitter of a TICK is that of a block with another receiver state. -/
theorem Block.engines_withRx (r : Bool) (b c : Block) : (b.withRx c).engines r =
    { ((b.withRx c).rxTick r).withTx b.txTick.txPhase b.txTick.txBit b.txTick.txCnt b.txTick.txip with rxPrev := r } := by
  rw [Block.engines_eq, Block.txTick_withRx]
  rfl

/-! ### The markers and rx_unread -/

/-- The block with other markers and another rx_unread. -/
def Block.withMarks (f : Faults) (u : Bool) (b : Block) : Block := { b with faults := f, rxUnread := u }

/-- The state with other markers and another rx_unread. -/
def State.withMarks (f : Faults) (u : Bool) (s : State) : State := { s with block := s.block.withMarks f u }

/-- An operation of the block that reads no marker but to check it against itself. -/
def Block.IgnoresMarks (g : Block → Block) : Prop :=
  ∀ (b : Block) (f : Faults) (u : Bool), ∃ f' u', g (b.withMarks f u) = (g b).withMarks f' u'

theorem Block.release_ignoresMarks : Block.IgnoresMarks Block.release := by
  intro b f u
  by_cases hbr : b.br.toNat < 3
  · exact ⟨f.mark .illegalDivisor, u, by rw [Block.release_of_illegal hbr, Block.release_of_illegal (b := b.withMarks f u) hbr]; rfl⟩
  · have hbr := Nat.not_lt.mp hbr
    exact ⟨f, u, by rw [Block.release_of_legal hbr, Block.release_of_legal (b := b.withMarks f u) hbr]⟩

theorem Block.writeCtl_ignoresMarks (d : Byte) : Block.IgnoresMarks (Block.writeCtl d) := by
  intro b f u
  rcases b.writeCtl_cases d with ⟨hold, h0, e⟩ | ⟨hold, h0, e⟩ | ⟨hold, h0, e⟩ | ⟨hold, h0, e⟩ <;> rw [e]
  · exact ⟨f, u, Block.writeCtl_held (b := b.withMarks f u) hold h0⟩
  · rw [Block.writeCtl_release (b := b.withMarks f u) hold h0]
    exact Block.release_ignoresMarks { b with clksel := d[1], hold := false } f u
  · exact ⟨f, false, Block.writeCtl_enters (b := b.withMarks f u) hold h0⟩
  · exact ⟨f, u, Block.writeCtl_running (b := b.withMarks f u) hold h0⟩

theorem Block.writeData_ignoresMarks (d : Byte) : Block.IgnoresMarks (Block.writeData d) := by
  intro b f u
  rcases b.writeData_cases d with ⟨hold, e⟩ | ⟨hold, idle, e⟩ | ⟨hold, busy, e⟩ <;> rw [e]
  · exact ⟨f, u, Block.writeData_held (b := b.withMarks f u) hold⟩
  · exact ⟨f, u, Block.writeData_idle (b := b.withMarks f u) hold idle⟩
  · exact ⟨_, u, Block.writeData_busy (b := b.withMarks f u) hold busy⟩

/-- A configuration write commutes with a change that its effect commutes with. -/
theorem Block.ifHeld_commutes {φ g : Block → Block} (hhold : ∀ b, (φ b).hold = b.hold) (hg : ∀ b, g (φ b) = φ (g b))
    (b : Block) : (φ b).ifHeld g = φ (b.ifHeld g) := by
  unfold Block.ifHeld
  rw [hhold, hg]
  split <;> rfl

theorem Block.ifHeld_ignoresMarks {g : Block → Block} (h : ∀ b f u, g (b.withMarks f u) = (g b).withMarks f u) :
    Block.IgnoresMarks (Block.ifHeld g) := fun b f u =>
  ⟨f, u, Block.ifHeld_commutes (φ := Block.withMarks f u) (fun _ => rfl) (fun b => h b f u) b⟩

theorem Block.sample_ignoresMarks (k : Nat) (r : Bool) : Block.IgnoresMarks (Block.sample k r) := by
  intro b f u
  by_cases h9 : k = 9
  · subst h9
    exact ⟨if u then f.mark .rxOverrun else f, true, by
      rw [Block.sample_stop, Block.sample_stop, Block.deliver_eq, Block.deliver_eq]; rfl⟩
  · refine ⟨f, u, ?_⟩
    unfold Block.sample
    rw [if_neg h9, if_neg h9]
    split
    · cases r <;> rfl
    · split <;> rfl

theorem Block.rxTick_ignoresMarks (r : Bool) : Block.IgnoresMarks (Block.rxTick r) := by
  intro b f u
  rcases b.rxTick_cases r with ⟨idle, quiet, e⟩ | ⟨idle, prev, rfl, e⟩ | ⟨bit, hlast, e⟩ | ⟨bit, hlast, hhalf, e⟩ |
    ⟨bit, hlast, hhalf, e⟩ <;> rw [e]
  · exact ⟨f, u, Block.rxTick_idle (b := b.withMarks f u) idle quiet⟩
  · exact ⟨f, u, Block.rxTick_starts (b := b.withMarks f u) idle prev⟩
  · exact ⟨f, u, Block.rxTick_nextBit (b := b.withMarks f u) r bit hlast⟩
  · rw [Block.rxTick_sampleAt (b := b.withMarks f u) r bit hlast hhalf]
    exact Block.sample_ignoresMarks _ r { b with rxCnt := BitVec.ofNat 16 (b.rxCnt.toNat + 1) } f u
  · exact ⟨f, u, Block.rxTick_counts (b := b.withMarks f u) r bit hlast hhalf⟩

theorem Block.engines_ignoresMarks (r : Bool) : Block.IgnoresMarks (Block.engines r) := by
  intro b f u
  obtain ⟨f', u', e⟩ := Block.rxTick_ignoresMarks r b f u
  refine ⟨f', u', ?_⟩
  have hrx : b.withRx (b.withMarks f u) = b.withMarks f u := rfl
  rw [← hrx, Block.engines_withRx, hrx, e, Block.engines_eq]
  rfl

/-- Two outcomes of the same kind, whose next states differ at most in the markers and rx_unread. -/
inductive SameButMarks : Host.Outcome State Fault Refusal → Host.Outcome State Fault Refusal → Prop where
  | next (t : State) (f : Faults) (u : Bool) : SameButMarks (.next t) (.next (t.withMarks f u))
  | fault (e : Fault) : SameButMarks (.fault e) (.fault e)
  | refused (e : Refusal) : SameButMarks (.refused e) (.refused e)

theorem SameButMarks.of_next {t : State} {o : Host.Outcome State Fault Refusal} (h : SameButMarks (.next t) o) :
    ∃ f u, o = .next (t.withMarks f u) := by
  cases h with
  | next _ f u => exact ⟨f, u, rfl⟩

theorem SameButMarks.of_fault {e : Fault} {o : Host.Outcome State Fault Refusal} (h : SameButMarks (.fault e) o) :
    o = .fault e := by
  cases h
  rfl

theorem SameButMarks.of_refused {e : Refusal} {o : Host.Outcome State Fault Refusal} (h : SameButMarks (.refused e) o) :
    o = .refused e := by
  cases h
  rfl

/-- A step that takes states that differ only in the markers and rx_unread to such states. -/
def IgnoresMarks (g : State → Host.Outcome State Fault Refusal) : Prop :=
  ∀ (s : State) (f : Faults) (u : Bool), SameButMarks (g s) (g (s.withMarks f u))

theorem SameButMarks.andThen {o o' : Host.Outcome State Fault Refusal} {k : State → Host.Outcome State Fault Refusal}
    (h : SameButMarks o o') (hk : IgnoresMarks k) : SameButMarks (andThen o k) (andThen o' k) := by
  cases h with
  | next t f u => exact hk t f u
  | fault e => exact .fault e
  | refused e => exact .refused e

theorem sameButMarks_onBlock {g : Block → Block} (h : Block.IgnoresMarks g) (s : State) (f : Faults) (u : Bool) :
    SameButMarks (.next (s.onBlock g)) (.next ((s.withMarks f u).onBlock g)) := by
  obtain ⟨f', u', e⟩ := h s.block f u
  have hstate : (s.withMarks f u).onBlock g = (s.onBlock g).withMarks f' u' := by
    rw [State.onBlock_of_eq (s := s.withMarks f u) e]
    rfl
  rw [hstate]
  exact .next _ f' u'

theorem exec_ignoresMarks (i : Instr) : IgnoresMarks (exec i) := by
  intro s f u
  cases i with
  | rdData =>
    rcases execRdData_cases s with ⟨v, hv, e⟩ | ⟨hv, e⟩ <;> rw [e]
    · rw [exec_rdData_some (s := s.withMarks f u) hv]
      exact .next _ f false
    · rw [exec_rdData_none (s := s.withMarks f u) hv]
      exact .next _ f false
  | wrData d => exact sameButMarks_onBlock (Block.writeData_ignoresMarks d) s f u
  | wrCtl d => exact sameButMarks_onBlock (Block.writeCtl_ignoresMarks d) s f u
  | wrBrlo d | wrBrhi d | wrMod d => exact sameButMarks_onBlock (Block.ifHeld_ignoresMarks fun _ _ _ => rfl) s f u
  | tick r =>
    rcases execTick_cases r s with ⟨hold, e⟩ | ⟨stuck, e⟩ | ⟨running, e⟩ <;> rw [e]
    · rw [exec_tick_held (s := s.withMarks f u) r hold]
      exact .next s f u
    · rw [exec_tick_stuck (s := s.withMarks f u) r stuck]
      exact .fault _
    · rw [exec_tick_running (s := s.withMarks f u) r running]
      exact sameButMarks_onBlock (Block.engines_ignoresMarks r) s f u
  | reset => exact .next _ f false
  | _ => exact .next _ f u

theorem labelStep_ignoresMarks (i : Instr) : IgnoresMarks (labelStep i) := fun s f u =>
  (exec_ignoresMarks i s f u).andThen fun t f u => .next t.logTxd f u

theorem wordStep_ignoresMarks (w : Word) : IgnoresMarks (wordStep w) := by
  intro s f u
  cases hw : decode w with
  | ok i =>
    rw [wordStep_of_decode s hw, wordStep_of_decode (s.withMarks f u) hw]
    exact labelStep_ignoresMarks i s f u
  | error e =>
    rw [wordStep_of_refused s hw, wordStep_of_refused (s.withMarks f u) hw]
    exact .next _ f u

theorem busStep_ignoresMarks (c : Ctx) (op : BusOp) : IgnoresMarks (busStep c op) := by
  intro s f u
  cases op with
  | rd reg =>
    exact (labelStep_ignoresMarks _ s f u).andThen fun t f u => .next (t.onHost (HostSide.setLocal c (t.rdata.getD 0))) f u
  | wr reg v => exact labelStep_ignoresMarks _ s f u

theorem perform_ignoresMarks (c : Ctx) (a : HostAct) : IgnoresMarks (HostAct.perform c a) := by
  intro s f u
  cases a with
  | bus op => exact busStep_ignoresMarks c op s f u
  | write reg e => exact busStep_ignoresMarks c (.wr reg (BitVec.ofNat 8 (s.host.eval c e))) s f u
  | _ => exact .next _ f u

theorem State.leaveIfDone_withMarks (f : Faults) (u : Bool) (s : State) :
    (s.withMarks f u).leaveIfDone = s.leaveIfDone.withMarks f u := by
  cases htodo : s.host.handlerTodo with
  | nil => rw [State.leaveIfDone_nil htodo, State.leaveIfDone_nil (s := s.withMarks f u) htodo]; rfl
  | cons a rest =>
    have hne : s.host.handlerTodo ≠ [] := by simp [htodo]
    rw [State.leaveIfDone_cons hne, State.leaveIfDone_cons (s := s.withMarks f u) hne]

theorem handlerStep_ignoresMarks : IgnoresMarks handlerStep := by
  intro s f u
  cases hin : s.host.inHandler with
  | none =>
    rw [handlerStep_none hin, handlerStep_none (s := s.withMarks f u) hin]
    exact .next s f u
  | some src =>
    cases htodo : s.host.handlerTodo with
    | nil =>
      rw [handlerStep_nil hin htodo, handlerStep_nil (s := s.withMarks f u) hin htodo]
      exact .next _ f u
    | cons a rest =>
      rw [handlerStep_cons hin htodo, handlerStep_cons (s := s.withMarks f u) hin htodo]
      refine (perform_ignoresMarks .handler a (s.onHost fun h =>
        { h with handlerTodo := HostAct.called .handler s.host a ++ rest }) f u).andThen fun t f u => ?_
      rw [State.leaveIfDone_withMarks]
      exact .next _ f u

theorem mainStep_ignoresMarks : IgnoresMarks mainStep := by
  intro s f u
  by_cases hrun : s.host.inHandler = none ∧ s.host.waiting = false
  · rcases htodo : s.host.mainTodo with _ | ⟨a | _, rest⟩
    · rw [mainStep_nil hrun htodo, mainStep_nil (s := s.withMarks f u) hrun htodo]
      exact .next s f u
    · rw [mainStep_act hrun htodo, mainStep_act (s := s.withMarks f u) hrun htodo]
      exact perform_ignoresMarks .main a (s.onHost fun h =>
        { h with mainTodo := (HostAct.called .main s.host a).map MainAct.act ++ rest }) f u
    · rw [mainStep_wait hrun htodo, mainStep_wait (s := s.withMarks f u) hrun htodo]
      exact .next _ f u
  · rw [mainStep_passed hrun, mainStep_passed (s := s.withMarks f u) hrun]
    exact .next s f u

theorem dispatchStep_withMarks (c : Source) (f : Faults) (u : Bool) (s : State) :
    dispatchStep c (s.withMarks f u) = (dispatchStep c s).withMarks f u := by
  have hpend : (s.withMarks f u).pending c = s.pending c := by cases c <;> rfl
  have hhost : (s.withMarks f u).host = s.host := rfl
  unfold dispatchStep
  rw [hpend, hhost]
  split <;> rfl

theorem turnStep_ignoresMarks (turn : Turn) : IgnoresMarks (turnStep turn) := by
  intro s f u
  cases turn with
  | label w => exact wordStep_ignoresMarks w s f u
  | timerExpiry =>
    unfold turnStep timerStep
    cases Config.periodicEnable <;> exact .next _ f u
  | dispatch c =>
    have e := dispatchStep_withMarks c f u s
    simp only [turnStep, e]
    exact .next _ f u
  | handler => exact handlerStep_ignoresMarks s f u
  | main => exact mainStep_ignoresMarks s f u

theorem step_ignoresMarks : IgnoresMarks step := by
  intro s f u
  cases hs : s.schedule with
  | nil =>
    rw [step_empty hs, step_empty (s := s.withMarks f u) hs]
    exact .refused _
  | cons turn ts =>
    rw [step_cons hs, step_cons (s := s.withMarks f u) hs]
    exact turnStep_ignoresMarks turn { s with schedule := ts } f u

/-- Settles O48: every operation of the block only writes the markers and rx_unread, or reads them to write them, and no
agent reads them. -/
theorem markersChangeNoOutput : Obligations.MarkersChangeNoOutput := by
  intro s f u
  have same := step_ignoresMarks s f u
  exact ⟨fun t h => (h ▸ same).of_next, fun e h => (h ▸ same).of_fault, fun e h => (h ▸ same).of_refused⟩

/-! ### TXBUF while the transmitter is idle -/

/-- A write of CTL commutes with a change of fields that it neither reads nor writes. -/
theorem Block.writeCtl_commutes {φ : Block → Block} (hhold : ∀ b, (φ b).hold = b.hold) (hbr : ∀ b, (φ b).br = b.br)
    (hraise : ∀ b code, (φ b).raise code = φ (b.raise code)) (hentry : ∀ b, (φ b).holdEntry = φ b.holdEntry)
    (hctl : ∀ (b : Block) c h, { φ b with clksel := c, hold := h } = φ { b with clksel := c, hold := h })
    (henter : ∀ (b : Block) h, { φ b with hold := h } = φ { b with hold := h })
    (hclksel : ∀ (b : Block) c, { φ b with clksel := c } = φ { b with clksel := c }) (d : Byte) (b : Block) :
    (φ b).writeCtl d = φ (b.writeCtl d) := by
  have hrelease : ∀ b, (φ b).release = φ b.release := by
    intro b
    rcases b.release_cases with ⟨h, e⟩ | ⟨h, e⟩
    · rw [e, Block.release_of_illegal (by rwa [hbr]), hraise]
    · rw [e, Block.release_of_legal (by rwa [hbr])]
  rcases b.writeCtl_cases d with ⟨hold, h0, e⟩ | ⟨hold, h0, e⟩ | ⟨hold, h0, e⟩ | ⟨hold, h0, e⟩ <;>
    rw [← hhold] at hold <;> rw [e]
  · rw [Block.writeCtl_held hold h0, hclksel]
  · rw [Block.writeCtl_release hold h0, hctl, hrelease]
  · rw [Block.writeCtl_enters hold h0, henter, hentry]
  · rw [Block.writeCtl_running hold h0]

/-- The block with another TXBUF. -/
def Block.withTxbuf (v : Byte) (b : Block) : Block := { b with txbuf := v }

theorem Block.writeCtl_withTxbuf (d v : Byte) (b : Block) : (b.withTxbuf v).writeCtl d = (b.writeCtl d).withTxbuf v :=
  Block.writeCtl_commutes (φ := Block.withTxbuf v) (fun _ => rfl) (fun _ => rfl) (fun _ _ => rfl) (fun _ => rfl)
    (fun _ _ _ => rfl) (fun _ _ => rfl) (fun _ _ => rfl) d b

theorem Block.sample_withTxbuf (k : Nat) (r : Bool) (v : Byte) (b : Block) :
    (b.withTxbuf v).sample k r = (b.sample k r).withTxbuf v := by
  by_cases h9 : k = 9
  · subst h9
    rw [Block.sample_stop, Block.sample_stop, Block.deliver_eq, Block.deliver_eq]
    rfl
  · unfold Block.sample
    rw [if_neg h9, if_neg h9]
    split
    · cases r <;> rfl
    · split <;> rfl

theorem Block.rxTick_withTxbuf (r : Bool) (v : Byte) (b : Block) :
    (b.withTxbuf v).rxTick r = (b.rxTick r).withTxbuf v := by
  rcases b.rxTick_cases r with ⟨idle, quiet, e⟩ | ⟨idle, prev, rfl, e⟩ | ⟨bit, hlast, e⟩ | ⟨bit, hlast, hhalf, e⟩ |
    ⟨bit, hlast, hhalf, e⟩ <;> rw [e]
  · exact Block.rxTick_idle (b := b.withTxbuf v) idle quiet
  · exact Block.rxTick_starts (b := b.withTxbuf v) idle prev
  · exact Block.rxTick_nextBit (b := b.withTxbuf v) r bit hlast
  · rw [Block.rxTick_sampleAt (b := b.withTxbuf v) r bit hlast hhalf]
    exact Block.sample_withTxbuf _ r v { b with rxCnt := BitVec.ofNat 16 (b.rxCnt.toNat + 1) }
  · exact Block.rxTick_counts (b := b.withTxbuf v) r bit hlast hhalf

/-- While the transmitter is idle, a TICK is the receiver's. -/
theorem Block.engines_withTxbuf {b : Block} (r : Bool) (v : Byte) (idle : b.txPhase = .idle) :
    (b.withTxbuf v).engines r = (b.engines r).withTxbuf v := by
  rw [Block.engines, Block.engines, Block.txTick_idle idle, Block.txTick_idle (b := b.withTxbuf v) idle,
    Block.rxTick_withTxbuf]
  rfl

/-- An operation on the block after a change of it, where the change may go last. -/
theorem next_onBlock_comm {g φ φ' : Block → Block} {s : State} (h : g (φ s.block) = φ' (g s.block)) :
    Host.Outcome.next (φ := Fault) (ρ := Refusal) ((s.onBlock φ).onBlock g) = .next ((s.onBlock g).onBlock φ') := by
  rw [State.onBlock_of_eq (s := s.onBlock φ) h]
  rfl

theorem Block.writeCtl_txIdle (d : Byte) {b : Block} (idle : b.txPhase = .idle) : (b.writeCtl d).txPhase = .idle := by
  rcases b.writeCtl_cases d with ⟨-, -, e⟩ | ⟨-, -, e⟩ | ⟨-, -, e⟩ | ⟨-, -, e⟩ <;> rw [e]
  · exact idle
  · rw [Block.release_frame]
    exact idle
  · rfl
  · exact idle

/-- An accepted write replaces the other TXBUF, and an ignored one leaves it. -/
theorem Block.writeData_withTxbuf (d v : Byte) {b : Block} (idle : b.txPhase = .idle) :
    ∃ v', (b.withTxbuf v).writeData d = (b.writeData d).withTxbuf v' ∧
      ((b.writeData d).txPhase ≠ .idle → v' = (b.writeData d).txbuf) := by
  cases hold : b.hold with
  | true =>
    rw [Block.writeData_held hold]
    exact ⟨v, Block.writeData_held (b := b.withTxbuf v) hold, fun busy => absurd idle busy⟩
  | false =>
    rw [Block.writeData_idle hold idle]
    exact ⟨d, Block.writeData_idle (b := b.withTxbuf v) hold idle, fun _ => rfl⟩

/-- With the transmitter idle, a label that leaves it idle leaves the other TXBUF, and one that makes it busy writes
TXBUF. -/
theorem exec_withTxbuf {i : Instr} {s t : State} (v : Byte) (idle : s.block.txPhase = .idle) (h : exec i s = .next t) :
    ∃ v', exec i (s.onBlock (Block.withTxbuf v)) = .next (t.onBlock (Block.withTxbuf v')) ∧
      (t.block.txPhase ≠ .idle → v' = t.block.txbuf) := by
  cases i with
  | rdData =>
    rcases execRdData_cases s with ⟨w, hw, e⟩ | ⟨hw, e⟩ <;> cases e.symm.trans h
    · exact ⟨v, exec_rdData_some (s := s.onBlock (Block.withTxbuf v)) hw, fun busy => absurd idle busy⟩
    · exact ⟨v, exec_rdData_none (s := s.onBlock (Block.withTxbuf v)) hw, fun busy => absurd idle busy⟩
  | wrData d =>
    cases h
    obtain ⟨v', e, hv⟩ := Block.writeData_withTxbuf d v idle
    exact ⟨v', next_onBlock_comm (φ := Block.withTxbuf v) e, hv⟩
  | wrCtl d =>
    cases h
    exact ⟨v, next_onBlock_comm (Block.writeCtl_withTxbuf d v s.block),
      fun busy => absurd (Block.writeCtl_txIdle d idle) busy⟩
  | wrBrlo d | wrBrhi d | wrMod d =>
    cases h
    exact ⟨v, next_onBlock_comm (Block.ifHeld_commutes (φ := Block.withTxbuf v) (fun _ => rfl) (by intro b; rfl) s.block),
      fun busy => absurd ((Block.ifHeld_keeps Block.txPhase (by intro b; rfl) s.block).trans idle) busy⟩
  | tick r =>
    rcases execTick_cases r s with ⟨hold, e⟩ | ⟨-, e⟩ | ⟨running, e⟩ <;> cases e.symm.trans h
    · exact ⟨v, exec_tick_held (s := s.onBlock (Block.withTxbuf v)) r hold, fun busy => absurd idle busy⟩
    · exact ⟨v, (exec_tick_running (s := s.onBlock (Block.withTxbuf v)) r running).trans
        (next_onBlock_comm (Block.engines_withTxbuf r v idle)),
        fun busy => absurd (Block.engines_of_txIdle r idle).1 busy⟩
  | reset =>
    cases h
    exact ⟨_, rfl, fun _ => rfl⟩
  | _ =>
    cases h
    exact ⟨v, rfl, fun busy => absurd idle busy⟩

/-- Settles O49: an idle transmitter shows 1 whatever TXBUF is, and a busy one has TXBUF from the label that made it busy. -/
theorem idleTxbufIsUnseen : Obligations.IdleTxbufIsUnseen := by
  intro i s t v idle h
  obtain ⟨v', hv, hbusy⟩ := exec_withTxbuf v idle h
  refine ⟨v', hv, hbusy, ?_⟩
  by_cases hidle : t.block.txPhase = .idle
  · rw [Block.txd_of_idle hidle]
    exact Block.txd_of_idle (b := t.block.withTxbuf v') hidle
  · rw [hbusy hidle]

/-! ### The bits of rx_shift that are not sampled -/

/-- The block with another rx_shift. -/
def Block.withShift (v : Byte) (b : Block) : Block := { b with rxShift := v }

/-- A byte that agrees with rx_shift on the bits sampled in the current frame. -/
def Block.AgreesSampled (v : Byte) (b : Block) : Prop :=
  ∀ k, k < 8 → b.Sampled k → v.getLsbD k = b.rxShift.getLsbD k

theorem Block.agreesSampled_of_idle {v : Byte} {b : Block} (idle : b.rxPhase = .idle) : b.AgreesSampled v :=
  fun _ _ h => nomatch idle.symm.trans h.1

/-- Agreement depends on the receiver and the lengths of bit-times alone. -/
theorem Block.AgreesSampled.congr {v : Byte} {b c : Block} (h : b.AgreesSampled v) (phase : c.rxPhase = b.rxPhase)
    (bit : c.rxBit = b.rxBit) (cnt : c.rxCnt = b.rxCnt) (shift : c.rxShift = b.rxShift)
    (half : ∀ k, c.halfLen k = b.halfLen k) : c.AgreesSampled v := by
  intro k hk hs
  rw [shift]
  refine h k hk ?_
  rw [Block.Sampled, phase, bit, cnt, half] at hs
  exact hs

theorem Block.writeCtl_withShift (d v : Byte) (b : Block) : (b.withShift v).writeCtl d = (b.writeCtl d).withShift v :=
  Block.writeCtl_commutes (φ := Block.withShift v) (fun _ => rfl) (fun _ => rfl) (fun _ _ => rfl) (fun _ => rfl)
    (fun _ _ _ => rfl) (fun _ _ => rfl) (fun _ _ => rfl) d b

theorem Block.writeData_withShift (d v : Byte) (b : Block) :
    (b.withShift v).writeData d = (b.writeData d).withShift v := by
  rcases b.writeData_cases d with ⟨hold, e⟩ | ⟨hold, idle, e⟩ | ⟨hold, busy, e⟩ <;> rw [e]
  · exact Block.writeData_held (b := b.withShift v) hold
  · exact Block.writeData_idle (b := b.withShift v) hold idle
  · exact Block.writeData_busy (b := b.withShift v) hold busy

/-- Before its first sample a frame has no bit sampled. -/
theorem Block.agreesSampled_of_startBit {v : Byte} {b : Block} (h0 : b.rxBit.toNat = 0) : b.AgreesSampled v := by
  rintro k - ⟨-, hs⟩
  omega

/-- The last TICK of a bit-time is after its sample. -/
theorem Block.AgreesSampled.nextBit {v : Byte} {b : Block} (h : b.AgreesSampled v) (running : b.Running) (inv : b.Inv)
    (bit : b.rxPhase = .bit) (hlast : b.rxCnt.toNat + 1 = b.bitLen b.rxBit.toNat) :
    Block.AgreesSampled v { b with rxBit := b.rxBit + 1#4, rxCnt := 0 } := by
  rintro k hk ⟨-, hs⟩
  have hbit : (b.rxBit + 1#4).toNat = b.rxBit.toNat + 1 := by
    obtain ⟨h9, -⟩ := inv.rxRange bit
    bv_omega
  have hpos : 0 < b.halfLen (k + 1) := b.halfLen_pos running (k + 1)
  have hle : k + 1 ≤ b.rxBit.toNat := by
    rcases hs with hs | ⟨-, hs⟩
    · have hs : k + 1 < (b.rxBit + 1#4).toNat := hs
      omega
    · exact absurd hs (Nat.not_le.mpr hpos)
  refine h k hk ⟨bit, (Nat.lt_or_eq_of_le hle).imp_right fun heq => ⟨heq, ?_⟩⟩
  have hlt := b.halfLen_lt_bitLen running (k + 1)
  rw [← heq] at hlast
  omega

/-- A TICK that only counts reaches no sample. -/
theorem Block.AgreesSampled.counts {v : Byte} {b : Block} (h : b.AgreesSampled v) (inv : b.Inv) (bit : b.rxPhase = .bit)
    (hlast : b.rxCnt.toNat + 1 ≠ b.bitLen b.rxBit.toNat) (hhalf : b.rxCnt.toNat + 1 ≠ b.halfLen b.rxBit.toNat) :
    Block.AgreesSampled v { b with rxCnt := BitVec.ofNat 16 (b.rxCnt.toNat + 1) } := by
  rintro k hk ⟨-, hs⟩
  obtain ⟨-, hrange⟩ := inv.rxRange bit
  refine h k hk ⟨bit, hs.imp_right fun ⟨heq, hle⟩ => ⟨heq, ?_⟩⟩
  have hle : b.halfLen (k + 1) ≤ (BitVec.ofNat 16 (b.rxCnt.toNat + 1)).toNat := hle
  rw [Block.toNat_ofNat_of_lt_bitLen (show b.rxCnt.toNat + 1 < b.bitLen b.rxBit.toNat by omega)] at hle
  rw [← heq] at hhalf
  omega

/-- The sample of data bit j leaves the two bytes the same in it, and in the bits sampled before. -/
theorem Block.AgreesSampled.sampleData {v : Byte} {b : Block} (h : b.AgreesSampled v) (r : Bool) (bit : b.rxPhase = .bit)
    (c : BitVec 16) : Block.AgreesSampled (setBit v (b.rxBit.toNat - 1) r)
      { b with rxCnt := c, rxShift := setBit b.rxShift (b.rxBit.toNat - 1) r } := by
  rintro k hk ⟨-, hs⟩
  rw [setBit_getLsbD _ _ _ _ hk, setBit_getLsbD _ _ _ _ hk]
  split
  next => rfl
  next hne =>
    have hs : k + 1 < b.rxBit.toNat ∨ k + 1 = b.rxBit.toNat ∧ _ := hs
    exact h k hk ⟨bit, .inl (by omega)⟩

/-- At the sample of the stop bit every data bit is sampled. -/
theorem Block.AgreesSampled.eq_of_stopBit {v : Byte} {b : Block} (h : b.AgreesSampled v) (bit : b.rxPhase = .bit)
    (h9 : b.rxBit.toNat = 9) : v = b.rxShift :=
  BitVec.eq_of_getLsbD_eq fun k hk => h k hk ⟨bit, .inl (by omega)⟩

/-- The sample of a bit-time beside another rx_shift. -/
theorem Block.AgreesSampled.sample {v : Byte} {b : Block} (h : b.AgreesSampled v) (r : Bool) (inv : b.Inv)
    (bit : b.rxPhase = .bit) (c : BitVec 16) :
    ∃ v', Block.sample b.rxBit.toNat r (Block.withShift v { b with rxCnt := c }) =
        (Block.sample b.rxBit.toNat r { b with rxCnt := c }).withShift v' ∧
      (Block.sample b.rxBit.toNat r { b with rxCnt := c }).AgreesSampled v' := by
  obtain ⟨h9, -⟩ := inv.rxRange bit
  by_cases h0 : b.rxBit.toNat = 0
  · refine ⟨v, ?_, Block.agreesSampled_of_startBit (by rw [Block.sample_rxBit]; exact h0)⟩
    rw [h0, Block.sample_start, Block.sample_start]
    rfl
  by_cases h8 : b.rxBit.toNat ≤ 8
  · refine ⟨setBit v (b.rxBit.toNat - 1) r, ?_, ?_⟩ <;>
      simp only [Block.sample_data r _ (Nat.one_le_iff_ne_zero.mpr h0) h8]
    · rfl
    · exact h.sampleData r bit c
  · have hstop : b.rxBit.toNat = 9 := by omega
    refine ⟨v, ?_, Block.agreesSampled_of_idle (by rw [hstop, Block.sample_stop, Block.deliver_eq])⟩
    rw [h.eq_of_stopBit bit hstop, hstop, Block.sample_stop, Block.sample_stop, Block.deliver_eq, Block.deliver_eq]
    rfl

/-- One TICK of the receiver beside another rx_shift that agrees on the sampled bits: it delivers the same byte, and the two
agree after it on the bits sampled then. -/
theorem Block.AgreesSampled.rxTick {v : Byte} {b : Block} (h : b.AgreesSampled v) (r : Bool) (running : b.Running)
    (inv : b.Inv) : ∃ v', (b.withShift v).rxTick r = (b.rxTick r).withShift v' ∧ (b.rxTick r).AgreesSampled v' := by
  rcases b.rxTick_cases r with ⟨idle, quiet, e⟩ | ⟨idle, prev, rfl, e⟩ | ⟨bit, hlast, e⟩ | ⟨bit, hlast, hhalf, e⟩ |
    ⟨bit, hlast, hhalf, e⟩ <;> rw [e]
  · exact ⟨v, Block.rxTick_idle (b := b.withShift v) idle quiet, h⟩
  · exact ⟨v, Block.rxTick_starts (b := b.withShift v) idle prev, Block.agreesSampled_of_startBit rfl⟩
  · exact ⟨v, Block.rxTick_nextBit (b := b.withShift v) r bit hlast, h.nextBit running inv bit hlast⟩
  · rw [Block.rxTick_sampleAt (b := b.withShift v) r bit hlast hhalf]
    exact h.sample r inv bit _
  · exact ⟨v, Block.rxTick_counts (b := b.withShift v) r bit hlast hhalf, h.counts inv bit hlast hhalf⟩

theorem Block.AgreesSampled.engines {v : Byte} {b : Block} (h : b.AgreesSampled v) (r : Bool) (running : b.Running)
    (inv : b.Inv) : ∃ v', (b.withShift v).engines r = (b.engines r).withShift v' ∧ (b.engines r).AgreesSampled v' := by
  obtain ⟨v', e, agrees⟩ := h.rxTick r running inv
  have hrx : b.withRx (b.withShift v) = b.withShift v := rfl
  refine ⟨v', ?_, ?_⟩
  · rw [← hrx, Block.engines_withRx, hrx, e, Block.engines_eq]
    rfl
  · rw [Block.engines_eq]
    exact agrees.congr rfl rfl rfl rfl fun _ => rfl

/-- A write of CTL leaves a receiver that is idle, or changes nothing: while held the receiver is idle. -/
theorem Block.AgreesSampled.writeCtl {v : Byte} {b : Block} (h : b.AgreesSampled v) (d : Byte) (inv : b.Inv) :
    (b.writeCtl d).AgreesSampled v := by
  rcases b.writeCtl_cases d with ⟨hold, -, e⟩ | ⟨hold, -, e⟩ | ⟨-, -, e⟩ | ⟨-, -, e⟩ <;> rw [e]
  · exact Block.agreesSampled_of_idle (inv.heldIdle hold).2.1
  · rw [Block.release_frame]
    exact Block.agreesSampled_of_idle (inv.heldIdle hold).2.1
  · exact Block.agreesSampled_of_idle rfl
  · exact h

/-- A configuration write acts only while the receiver is idle. -/
theorem Block.AgreesSampled.ifHeld {v : Byte} {b : Block} (h : b.AgreesSampled v) (inv : b.Inv) {g : Block → Block}
    (hg : ∀ b, (g b).rxPhase = b.rxPhase) : (b.ifHeld g).AgreesSampled v := by
  rcases Block.ifHeld_cases g b with ⟨hold, e⟩ | ⟨-, e⟩ <;> rw [e]
  · exact Block.agreesSampled_of_idle ((hg b).trans (inv.heldIdle hold).2.1)
  · exact h

/-- Settles O50: only a sample writes rx_shift, and only the sample of the stop bit reads it, when all its bits are
sampled. -/
theorem unsampledShiftBitsAreUnseen : Obligations.UnsampledShiftBitsAreUnseen := by
  intro i s t v inv agrees h
  have agrees : s.block.AgreesSampled v := agrees
  show ∃ v', exec i (s.onBlock (Block.withShift v)) = .next (t.onBlock (Block.withShift v')) ∧ t.block.AgreesSampled v'
  cases i with
  | rdData =>
    have kept : Block.AgreesSampled v { s.block with rxUnread := false } := agrees.congr rfl rfl rfl rfl fun _ => rfl
    rcases execRdData_cases s with ⟨w, hw, e⟩ | ⟨hw, e⟩ <;> cases e.symm.trans h
    · exact ⟨v, exec_rdData_some (s := s.onBlock (Block.withShift v)) hw, kept⟩
    · exact ⟨v, exec_rdData_none (s := s.onBlock (Block.withShift v)) hw, kept⟩
  | wrData d =>
    cases h
    refine ⟨v, next_onBlock_comm (Block.writeData_withShift d v s.block), ?_⟩
    rw [State.onBlock_block, Block.writeData_frame]
    exact agrees.congr rfl rfl rfl rfl fun _ => rfl
  | wrCtl d =>
    cases h
    exact ⟨v, next_onBlock_comm (Block.writeCtl_withShift d v s.block), agrees.writeCtl d inv⟩
  | wrBrlo d | wrBrhi d | wrMod d =>
    cases h
    exact ⟨v, next_onBlock_comm (Block.ifHeld_commutes (φ := Block.withShift v) (fun _ => rfl) (by intro b; rfl) s.block),
      agrees.ifHeld inv (by intro b; rfl)⟩
  | tick r =>
    rcases execTick_cases r s with ⟨hold, e⟩ | ⟨-, e⟩ | ⟨running, e⟩ <;> cases e.symm.trans h
    · exact ⟨v, exec_tick_held (s := s.onBlock (Block.withShift v)) r hold, agrees⟩
    · obtain ⟨v', hengines, agrees'⟩ := agrees.engines r running inv
      exact ⟨v', (exec_tick_running (s := s.onBlock (Block.withShift v)) r running).trans (next_onBlock_comm hengines),
        agrees'⟩
  | reset =>
    cases h
    exact ⟨_, rfl, Block.agreesSampled_of_idle rfl⟩
  | _ =>
    cases h
    exact ⟨v, rfl, agrees.congr rfl rfl rfl rfl fun _ => rfl⟩

end Sys2Proof.Machine
end
